-- ==== Sys2Proof/Word.lean ====
section
/-! DEFINITION. The word, the byte and the byte string of the block (spec/00_scope.md R7). -/
namespace Sys2Proof

/-- A u32: every register and every command word is 32 bits wide (00_scope.md R5, R6). -/
abbrev Word := BitVec 32

/-- A byte, an integer in [0, 255] (00_scope.md R7). -/
abbrev Byte := BitVec 8

/-- *Bytes*: a finite list of bytes (00_scope.md R7). -/
abbrev Bytes := List Byte

end Sys2Proof
end

