-- ==== Sys2Proof/Config.lean ====
section
/-! DEFINITION. What an implementation of the block fixes (spec/00_scope.md R6): the two buffer sizes and the
identification value, all OPEN. BLOCK_BASE is 0: addresses are block-relative (20_memory.md R60; log 1). -/
namespace Sys2Proof

/-- The OPEN parameters of 00_scope.md R6. A size is held as the index of the buffer's last byte, so that every
value of this type is a size in [1, 2^30] and a configuration outside that range cannot be written down
(60_exceptions.md R237; log 3). -/
structure Config where
  /-- `ID_VALUE`, any 32-bit value (D7). -/
  idValue : Word
  /-- `IBUF_SIZE - 1` (D5). -/
  ibufLast : Fin (2 ^ 30)
  /-- `OBUF_SIZE - 1` (D6). -/
  obufLast : Fin (2 ^ 30)
  deriving DecidableEq, Repr, Inhabited

/-- `IBUF_SIZE`, in [1, 2^30] (00_scope.md R6). -/
def Config.ibufSize (c : Config) : Nat := c.ibufLast.val + 1

/-- `OBUF_SIZE`, in [1, 2^30] (00_scope.md R6). -/
def Config.obufSize (c : Config) : Nat := c.obufLast.val + 1

/-- `K_MAX`, the most prefixed fields of one parse or frame: 4, fixed (00_scope.md R6, D8). -/
def Config.kMax : Nat := 4

/-- The configuration of the chip at hand. It has no body: the spec leaves the three values OPEN, so nothing can be
proved of them but that the sizes are in range (93_implementation_defined.md section 1; log 2). -/
opaque Config.chip : Config

/-- The configuration with the given parameters, or none where 60_exceptions.md R237 refuses it: "IBUF_SIZE or
OBUF_SIZE outside [1, 2^30], or with K_MAX ≠ 4". -/
def Config.ofParameters (ibufSize obufSize kMax : Nat) (idValue : Word) : Option Config :=
  if h : (1 ≤ ibufSize ∧ ibufSize ≤ 2 ^ 30) ∧ (1 ≤ obufSize ∧ obufSize ≤ 2 ^ 30) ∧ kMax = Config.kMax then
    some { idValue := idValue, ibufLast := ⟨ibufSize - 1, by omega⟩, obufLast := ⟨obufSize - 1, by omega⟩ }
  else none

end Sys2Proof
end

