-- ==== Sys2Proof/Syntax.lean ====
section
/-! DEFINITION. The commands: one constructor per row of spec/opcode_table.json (spec/30_encoding.md R93). -/
namespace Sys2Proof

/-- The LAYOUT field of FP_PARSE and FP_FRAME (30_encoding.md R90; 43_framing.md R180). -/
inductive Layout where
  /-- 0: all k prefixes first, then all k fields. -/
  | grouped
  /-- 1: each prefix directly before its field. -/
  | interleaved
  deriving DecidableEq, Repr

/-- A command of the block (30_encoding.md R93). `k` is the 3-bit field K; K above K_MAX is not well formed. -/
inductive Instr where
  /-- NOP, OP 0x00 (R115). -/
  | nop
  /-- OUT_CLEAR, OP 0x01 (R116). -/
  | outClear
  /-- SOFT_RESET, OP 0x02 (R118). -/
  | softReset
  /-- RLE_INIT, OP 0x10 (R155). -/
  | rleInit
  /-- RLE_PUSH, OP 0x11, with the byte IMM8 (R156). -/
  | rlePush (b : Byte)
  /-- RLE_FLUSH, OP 0x12 (R157). -/
  | rleFlush
  /-- RLE_PUSHBUF, OP 0x13 (R158). -/
  | rlePushbuf
  /-- RLE_ENCODE, OP 0x14 (R159). -/
  | rleEncode
  /-- LE32_ENC, OP 0x20 (R136). -/
  | le32Enc
  /-- LE32_DEC, OP 0x21 (R137). -/
  | le32Dec
  /-- FP_PARSE, OP 0x30, with K and LAYOUT (R194). -/
  | fpParse (k : BitVec 3) (layout : Layout)
  /-- FP_FRAME, OP 0x31, with K and LAYOUT (R201). -/
  | fpFrame (k : BitVec 3) (layout : Layout)
  deriving DecidableEq, Repr

end Sys2Proof
end

