-- ==== Sys2Proof/WellFormed.lean ====
section
/-! DEFINITION. Which commands are well formed (spec/30_encoding.md R92). -/
namespace Sys2Proof

/-- K in range: "Legal values 0 to K_MAX = 4; values 5, 6 and 7 are ILLEGAL" (30_encoding.md R92). -/
def kLegal (k : BitVec 3) : Bool := decide (k.toNat ≤ Config.kMax)

/-- A command some word encodes: the one check is K's range. "All 256 values are legal" for RLE_PUSH's byte (R92). -/
def Instr.wellFormed : Instr → Bool
  | .nop => true
  | .outClear => true
  | .softReset => true
  | .rleInit => true
  | .rlePush _ => true
  | .rleFlush => true
  | .rlePushbuf => true
  | .rleEncode => true
  | .le32Enc => true
  | .le32Dec => true
  | .fpParse k _ => kLegal k
  | .fpFrame k _ => kLegal k

end Sys2Proof
end

