-- ==== Sys2Proof/Decode.lean ====
section
/-! DEFINITION. The command word CMD32: its fields, the opcode rows, the decoder and the encoder
(spec/30_encoding.md R90 to R98). -/
namespace Sys2Proof

/-! ### Fields of a command word (R90) -/

/-- OP = w[7:0]. -/
def opField (w : Word) : Byte := w.extractLsb' 0 8
/-- IMM8 = w[15:8]. -/
def imm8Field (w : Word) : Byte := w.extractLsb' 8 8
/-- K = w[18:16]. -/
def kField (w : Word) : BitVec 3 := w.extractLsb' 16 3
/-- LAYOUT = w[19], as a bit. -/
def layoutField (w : Word) : BitVec 1 := w.extractLsb' 19 1
/-- RSV = w[31:20], reserved, must be 0. -/
def rsvField (w : Word) : BitVec 12 := w.extractLsb' 20 12

/-- The layout a LAYOUT bit names: 0 GROUPED, 1 INTERLEAVED (R92). -/
def layoutOfBit (l : BitVec 1) : Layout := if l = 0 then .grouped else .interleaved

/-- The LAYOUT bit of a layout (R90). -/
def Layout.bit : Layout → BitVec 1
  | .grouped => 0
  | .interleaved => 1

/-- The word with the five fields of R90's figure, RSV at the left. -/
def cmd32 (rsv : BitVec 12) (layout : BitVec 1) (k : BitVec 3) (imm8 op : Byte) : Word :=
  rsv ++ layout ++ k ++ imm8 ++ op

/-! ### The opcode rows (R93) -/

/-- The OP byte of a command (R93). -/
def Instr.opcode : Instr → Byte
  | .nop => 0x00
  | .outClear => 0x01
  | .softReset => 0x02
  | .rleInit => 0x10
  | .rlePush _ => 0x11
  | .rleFlush => 0x12
  | .rlePushbuf => 0x13
  | .rleEncode => 0x14
  | .le32Enc => 0x20
  | .le32Dec => 0x21
  | .fpParse _ _ => 0x30
  | .fpFrame _ _ => 0x31

/-- A row of R93's second table: mask, match, whether K must be at most K_MAX, and the command its operands give. -/
structure OpcodeRow where
  mask : Word
  pattern : Word
  limitsK : Bool
  command : Byte → BitVec 3 → Layout → Instr

/-- The twelve rows of R93 (and of spec/opcode_table.json), in the table's order. -/
def opcodeRows : List OpcodeRow :=
  [ ⟨0xFFFFFFFF, 0x00000000, false, fun _ _ _ => .nop⟩,
    ⟨0xFFFFFFFF, 0x00000001, false, fun _ _ _ => .outClear⟩,
    ⟨0xFFFFFFFF, 0x00000002, false, fun _ _ _ => .softReset⟩,
    ⟨0xFFFFFFFF, 0x00000010, false, fun _ _ _ => .rleInit⟩,
    ⟨0xFFFF00FF, 0x00000011, false, fun b _ _ => .rlePush b⟩,
    ⟨0xFFFFFFFF, 0x00000012, false, fun _ _ _ => .rleFlush⟩,
    ⟨0xFFFFFFFF, 0x00000013, false, fun _ _ _ => .rlePushbuf⟩,
    ⟨0xFFFFFFFF, 0x00000014, false, fun _ _ _ => .rleEncode⟩,
    ⟨0xFFFFFFFF, 0x00000020, false, fun _ _ _ => .le32Enc⟩,
    ⟨0xFFFFFFFF, 0x00000021, false, fun _ _ _ => .le32Dec⟩,
    ⟨0xFFF0FFFF, 0x00000030, true, fun _ k l => .fpParse k l⟩,
    ⟨0xFFF0FFFF, 0x00000031, true, fun _ k l => .fpFrame k l⟩ ]

/-- "A word w selects a row when `(w AND mask) = match`. For FP_PARSE and FP_FRAME it must also have
`w[18:16] ≤ 4`." (R93) -/
def rowSelects (r : OpcodeRow) (w : Word) : Bool :=
  decide (w &&& r.mask = r.pattern) && (!r.limitsK || kLegal (kField w))

/-! ### Decode (R94) -/

/-- Why a word is ILLEGAL: the four cases of R96, by name. The block reports the one code ILLEGAL for all of them;
which name a word gets where several cases hold is the model's (log 10) and no state depends on it. -/
inductive Illegal where
  /-- R96 item 1: OP is not one of the twelve values. -/
  | unknownOpcode
  /-- R96 item 2: RSV ≠ 0. -/
  | reservedBits
  /-- R96 item 3: a field the opcode does not use is nonzero. -/
  | unusedField
  /-- R96 item 4: K is 5, 6 or 7 for FP_PARSE or FP_FRAME. -/
  | kOutOfRange
  deriving DecidableEq, Repr

/-- The first of R96's cases that holds of a word no row selects. -/
def illegalReason (w : Word) : Illegal :=
  if !(opcodeRows.any fun r => decide (opField r.pattern = opField w)) then .unknownOpcode
  else if rsvField w ≠ 0 then .reservedBits
  else if (opcodeRows.any fun r => decide (w &&& r.mask = r.pattern)) then .kOutOfRange
  else .unusedField

/-- Decode: "total on every 32-bit word" (R94), the same in every state (R98). -/
def decode (w : Word) : Except Illegal Instr :=
  match opcodeRows.find? (fun r => rowSelects r w) with
  | some r => .ok (r.command (imm8Field w) (kField w) (layoutOfBit (layoutField w)))
  | none => .error (illegalReason w)

/-! ### Encode -/

/-- The command word of a command, from R93's word column: `OP + b·2^8` for RLE_PUSH, `OP + k·2^16 + L·2^19` for
FP_PARSE and FP_FRAME, OP alone for the others. -/
def encode : Instr → Word
  | .nop => cmd32 0 0 0 0 0x00
  | .outClear => cmd32 0 0 0 0 0x01
  | .softReset => cmd32 0 0 0 0 0x02
  | .rleInit => cmd32 0 0 0 0 0x10
  | .rlePush b => cmd32 0 0 0 b 0x11
  | .rleFlush => cmd32 0 0 0 0 0x12
  | .rlePushbuf => cmd32 0 0 0 0 0x13
  | .rleEncode => cmd32 0 0 0 0 0x14
  | .le32Enc => cmd32 0 0 0 0 0x20
  | .le32Dec => cmd32 0 0 0 0 0x21
  | .fpParse k layout => cmd32 0 layout.bit k 0 0x30
  | .fpFrame k layout => cmd32 0 layout.bit k 0 0x31

/-- The command the decoder reads from an instruction whose low `nbits` bits are `w` and whose other bits are 0. A
command is one 32-bit datum written to CMD (R90, R98), so there is no byte order to choose here. -/
def decodeTableWord (nbits w : Nat) : Option Instr :=
  match decode (BitVec.ofNat 32 (w % 2 ^ nbits)) with
  | .ok i => some i
  | .error _ => none

end Sys2Proof
end

