-- ==== Sys2Proof/Machine/State.lean ====
section
/-! DEFINITION. The state of the block and of its host session, the reasons a step can stop, and the state after
power-on reset (spec/10_state.md, spec/70_reset_and_hazards.md R250 to R252). -/
namespace Sys2Proof.Machine

/-! ### Why a step can stop -/

/-- The faults. There is one: the block itself "has no trap, exception or abort mechanism" (60_exceptions.md R230). -/
inductive Fault where
  /-- `UnwrittenRead` (60_exceptions.md R236): a command that reads an IBUF byte, or a host read of an IBUF or OBUF
  byte, that nothing has stored since power-on reset raises it. SAFE: the chip returns some byte there, which the spec
  does not fix, so a claim about such a run cannot be proved (log 7). -/
  | unwrittenRead
  deriving DecidableEq, Repr

/-- The refusals: what is not this block, or has no meaning yet. -/
inductive Refusal where
  /-- An instruction with no meaning in this model; `exec`'s arm would raise it. SAFE. No arm does. -/
  | notModelled (mnemonic : String)
  /-- `powerOn` raises it for a configuration outside [1, 2^30] or with K_MAX ≠ 4, as 60_exceptions.md R237 asks.
  SAFE: the spec gives such a configuration no meaning (log 3). -/
  | badConfiguration
  deriving DecidableEq, Repr

/-! ### The parts of the state -/

/-- The run state of the RLE encoder, `s = (valid, value, count)` (42_rle.md R150). -/
structure RleState where
  valid : Bool
  value : Byte
  count : Byte
  deriving DecidableEq, Repr

/-- The idle state (0, 0, 0): no current run (42_rle.md R150). -/
def RleState.idle : RleState := { valid := false, value := 0, count := 0 }

/-- Four registers of one kind: FIELD_OFF0..3 or FIELD_LEN0..3 (10_state.md R34). -/
structure FieldBank where
  r0 : Word
  r1 : Word
  r2 : Word
  r3 : Word
  deriving DecidableEq, Repr

/-- All four registers 0, their reset value (10_state.md R34). -/
def FieldBank.zero : FieldBank := { r0 := 0, r1 := 0, r2 := 0, r3 := 0 }

/-- The stored bytes of a buffer, as (index, byte) pairs with strictly rising indices. An index that is not listed
holds no value: its *written* flag is false (10_state.md R39; 70_reset_and_hazards.md R252; log 7). -/
abbrev Memory := List Host.Cell

/-- A host access at a block-relative address (20_memory.md R60, R63): the widths of R63's table, and no other. -/
inductive Access where
  | rd8 (addr : Word)
  | rd16 (addr : Word)
  | rd32 (addr : Word)
  | wr8 (addr : Word) (value : Byte)
  | wr16 (addr : Word) (value : BitVec 16)
  | wr32 (addr : Word) (value : Word)
  deriving DecidableEq, Repr

/-- What the host is answered: the value a read returned, that a write was accepted, or the bus error response
(20_memory.md R67; 70_reset_and_hazards.md R260). -/
inductive Response where
  | byte (value : Byte)
  | word (value : Word)
  | accepted
  | busError
  deriving DecidableEq, Repr

/-! ### The state -/

/-- Every piece of state the spec gives the block (10_state.md R22 to R39), and the host session around it
(70_reset_and_hazards.md R260). CMD "stores nothing" (R24) and has no field. -/
structure State where
  /-- The constants behind ID, IBUF_CAP and OBUF_CAP (10_state.md R23, R32). -/
  cfg : Config
  /-- STATUS, offset 0x08 (R25). -/
  status : Word
  /-- IN_LEN, offset 0x0C (R27). -/
  inLen : Word
  /-- OUT_LEN, offset 0x10 (R28). -/
  outLen : Word
  /-- DATA, offset 0x14 (R29). -/
  data : Word
  /-- OFFSET, offset 0x18 (R30). -/
  offset : Word
  /-- The encoder's run state; RLE_STATE, offset 0x1C, is its word (R31; 42_rle.md R150). -/
  rle : RleState
  /-- TRAIL_OFF, offset 0x28 (R33). -/
  trailOff : Word
  /-- TRAIL_LEN, offset 0x2C (R33). -/
  trailLen : Word
  /-- FIELD_OFF0..3, offsets 0x30 to 0x3C (R34). -/
  fieldOff : FieldBank
  /-- FIELD_LEN0..3, offsets 0x40 to 0x4C (R34). -/
  fieldLen : FieldBank
  /-- IBUF's stored bytes (R38, R39; 20_memory.md R61). -/
  ibuf : Memory
  /-- OBUF's stored bytes (R38, R39; 20_memory.md R62). -/
  obuf : Memory
  /-- The session: the host accesses not served yet, the next one first (70_reset_and_hazards.md R260; log 4). -/
  pending : List Access
  /-- The session: the answers given so far, the oldest first (70_reset_and_hazards.md R260; log 4). -/
  responses : List Response
  deriving DecidableEq, Repr

/-- What a step, an access or a command answers. -/
abbrev StepResult := Host.Outcome State Fault Refusal

/-- Power-on reset of a block with configuration `c` (70_reset_and_hazards.md R250): every register at its reset value,
every written flag false, and no access in sight (R251). -/
def State.resetWith (c : Config) : State :=
  { cfg := c, status := 0, inLen := 0, outLen := 0, data := 0, offset := 0, rle := RleState.idle,
    trailOff := 0, trailLen := 0, fieldOff := FieldBank.zero, fieldLen := FieldBank.zero,
    ibuf := [], obuf := [], pending := [], responses := [] }

/-- The machine right after power-on reset, its configuration left open (00_scope.md R6; log 2). -/
def State.reset : State := State.resetWith Config.chip

end Sys2Proof.Machine
end

