-- ==== Sys2Proof/Machine/Flags.lean ====
section
/-! DEFINITION. STATUS, the block's one flag register: its codes, its fields and how a command writes it
(spec/10_state.md R25, R26, R37; spec/40_control.md R114). -/
namespace Sys2Proof.Machine

/-- The values of STATUS.CODE (10_state.md R26). -/
inductive Code where
  | ok
  | illegal
  | overflow
  | shortPrefix
  | shortField
  | shortData
  | range
  deriving DecidableEq, Repr

/-- The number of a code (10_state.md R26). -/
def Code.value : Code → Nat
  | .ok => 0
  | .illegal => 1
  | .overflow => 2
  | .shortPrefix => 3
  | .shortField => 4
  | .shortData => 5
  | .range => 6

/-- The 4-bit field CODE of a code (10_state.md R25). -/
def Code.field (c : Code) : BitVec 4 := BitVec.ofNat 4 c.value

/-- The word a command writes to STATUS, its fields where R25's table has them and its reserved bits 0. As a number it is
`zext_32(CODE) + IDX * 2^8 + UTF8_BAD * 2^16 + UTF8_BAD_TRAIL * 2^20 + w[7:0] * 2^24` (40_control.md R114), which
`statusWord_toNat` proves. -/
def statusWord (code : Code) (idx : Nat) (utf8Bad : BitVec 4) (utf8BadTrail : Bool) (lastOp : Byte) : Word :=
  lastOp ++ 0#3 ++ BitVec.ofBool utf8BadTrail ++ utf8Bad ++ 0#5 ++ BitVec.ofNat 3 idx ++ 0#4 ++ code.field

/-! ### The fields of STATUS (10_state.md R25) -/

/-- STATUS.CODE, bits [3:0]. -/
def statusCode (w : Word) : BitVec 4 := w.extractLsb' 0 4
/-- STATUS.IDX, bits [10:8]. -/
def statusIdx (w : Word) : BitVec 3 := w.extractLsb' 8 3
/-- STATUS.UTF8_BAD, bits [19:16]. -/
def statusUtf8Bad (w : Word) : BitVec 4 := w.extractLsb' 16 4
/-- STATUS.UTF8_BAD_TRAIL, bit [20]. -/
def statusUtf8BadTrail (w : Word) : BitVec 1 := w.extractLsb' 20 1
/-- STATUS.LAST_OP, bits [31:24]. -/
def statusLastOp (w : Word) : Byte := w.extractLsb' 24 8
/-- The reserved bits [7:4], [15:11] and [23:21] of STATUS, side by side; they read 0. -/
def statusReserved (w : Word) : BitVec 12 := w.extractLsb' 21 3 ++ w.extractLsb' 11 5 ++ w.extractLsb' 4 4

/-- UTF8_BAD from the validity of the fields in order: bit i is 1 when field i is not valid, and 0 for i beyond the
fields (43_framing.md R193). -/
def utf8BadBits (valid : List Bool) : BitVec 4 :=
  BitVec.ofBool (!valid.getD 3 true) ++ BitVec.ofBool (!valid.getD 2 true)
    ++ BitVec.ofBool (!valid.getD 1 true) ++ BitVec.ofBool (!valid.getD 0 true)

end Sys2Proof.Machine
end

