-- ==== Sys2Proof/Machine/Ops.lean ====
section
/-! DEFINITION. The named operations over buffers and registers: reading and storing bytes, raising a status (the
block's one counterpart of an exception), staging and commit (spec/00_scope.md R9; spec/40_control.md R111 to R114). -/
namespace Sys2Proof.Machine

/-! ### Buffers -/

/-- The canonical form: indices strictly rising. (No listed value can equal an unlisted one's: that one has none.) -/
abbrev Memory.wf (m : Memory) : Prop := m.Pairwise (fun x y => x.1 < y.1)

/-- The byte last stored at an index, or none where nothing has been stored (10_state.md R39). -/
def Memory.read : Memory → Nat → Option Byte
  | [], _ => none
  | (j, v) :: m, i => if j = i then some v else Memory.read m i

/-- The *written* flag of an index (10_state.md R39). -/
def Memory.written (m : Memory) (i : Nat) : Bool := (m.read i).isSome

/-- Store one byte, keeping the canonical form. -/
def Memory.write : Memory → Nat → Byte → Memory
  | [], i, b => [(i, b)]
  | (j, v) :: m, i, b =>
    if i < j then (i, b) :: (j, v) :: m
    else if i = j then (i, b) :: m
    else (j, v) :: Memory.write m i b

/-- `MemRead(·, i, n)`: the n bytes from index i, or none if any of them has no value (00_scope.md R9;
60_exceptions.md R236). -/
def Memory.readBytes (m : Memory) : Nat → Nat → Option Bytes
  | _, 0 => some []
  | i, n + 1 =>
    match m.read i, Memory.readBytes m (i + 1) n with
    | some b, some bs => some (b :: bs)
    | _, _ => none

/-- `MemWrite(·, i, |B|, B)` (00_scope.md R9). -/
def Memory.writeBytes : Memory → Nat → Bytes → Memory
  | m, _, [] => m
  | m, i, b :: bs => Memory.writeBytes (m.write i b) (i + 1) bs

/-! ### Updates of one field of the state -/

/-- Write STATUS. -/
def State.withStatus (s : State) (w : Word) : State := { s with status := w }

/-- Answer the host. -/
def State.respond (s : State) (r : Response) : State := { s with responses := s.responses ++ [r] }

/-- Set the accesses still to be served. -/
def State.withPending (s : State) (as : List Access) : State := { s with pending := as }

/-- Set IBUF's stored bytes. -/
def State.withIbuf (s : State) (m : Memory) : State := { s with ibuf := m }

/-! ### Raising a status -/

/-- `raise Status(CODE, idx)`: the command ends, its staged output and staged writes are discarded, and STATUS is the
one thing that changes (00_scope.md R9; 40_control.md R112, R114). The block has no trap entry beyond this
(60_exceptions.md R230, R238): nothing is saved and no handler runs, so there is no return from it either (R239). -/
def raiseStatus (code : Code) (idx : Nat) (lastOp : Byte) (s : State) : State :=
  s.withStatus (statusWord code idx 0 false lastOp)

/-! ### Staging and commit -/

/-- What a command stages (40_control.md R111): its output S, the registers it writes (none: left alone) and, for
FP_PARSE, its UTF-8 report. -/
structure Staged where
  output : Bytes := []
  utf8Bad : BitVec 4 := 0
  utf8BadTrail : Bool := false
  inLen : Option Word := none
  outLen : Option Word := none
  data : Option Word := none
  offset : Option Word := none
  rle : Option RleState := none
  trailOff : Option Word := none
  trailLen : Option Word := none
  fieldOff : Option FieldBank := none
  fieldLen : Option FieldBank := none
  deriving DecidableEq, Repr

/-- "perform every staged register write" (40_control.md R113). -/
def Staged.perform (st : Staged) (s : State) : State :=
  { s with
    inLen := st.inLen.getD s.inLen
    outLen := st.outLen.getD s.outLen
    data := st.data.getD s.data
    offset := st.offset.getD s.offset
    rle := st.rle.getD s.rle
    trailOff := st.trailOff.getD s.trailOff
    trailLen := st.trailLen.getD s.trailLen
    fieldOff := st.fieldOff.getD s.fieldOff
    fieldLen := st.fieldLen.getD s.fieldLen }

/-- Append a command's output at OUT_LEN: `MemWrite(OBUF, o, n, S)` and `reg[OUT_LEN] <- o + n` (40_control.md R113). -/
def State.appendOutput (s : State) (out : Bytes) : State :=
  { s with
    obuf := s.obuf.writeBytes s.outLen.toNat out
    outLen := BitVec.ofNat 32 (s.outLen.toNat + out.length) }

/-- The output does not fit: `o + n > OBUF_SIZE`, compared exactly, for an output that is not empty ("A command with
n = 0 cannot raise OVERFLOW", 40_control.md R113; log 8). -/
def overflows (s : State) (out : Bytes) : Bool :=
  !out.isEmpty && decide (s.cfg.obufSize < s.outLen.toNat + out.length)

/-- The end of a command that raised nothing (40_control.md R113): all of its output and writes, or OVERFLOW and none
of them. -/
def commit (lastOp : Byte) (st : Staged) (s : State) : State :=
  if overflows s st.output then raiseStatus .overflow 0 lastOp s
  else (st.perform (s.appendOutput st.output)).withStatus (statusWord .ok 0 st.utf8Bad st.utf8BadTrail lastOp)

/-! ### Power-on reset -/

/-- Power-on reset of a block built with the given parameters; any others than 00_scope.md R6 allows are refused
(60_exceptions.md R237; 70_reset_and_hazards.md R250). -/
def powerOn (ibufSize obufSize kMax : Nat) (idValue : Word) : StepResult :=
  match Config.ofParameters ibufSize obufSize kMax idValue with
  | some c => .next (State.resetWith c)
  | none => .refused .badConfiguration

end Sys2Proof.Machine
end

