-- ==== Sys2Proof/Machine/Codec.lean ====
section
/-! DEFINITION. The little-endian u32 scalar codec: its functions (spec/41_le32_codec.md R130 to R133). -/
namespace Sys2Proof.Machine

/-- `enc32(v) = [ v[7:0], v[15:8], v[23:16], v[31:24] ]` (R130; log 11). -/
def enc32 (v : Word) : Bytes :=
  [v.extractLsb' 0 8, v.extractLsb' 8 8, v.extractLsb' 16 8, v.extractLsb' 24 8]

/-- `dec32(B) = B[0] + 2^8 * B[1] + 2^16 * B[2] + 2^24 * B[3]`, "defined only for |B| = 4" (R131): the four bytes side by
side, B[3] the most significant (`dec32_toNat` proves the sum), and no value for a list of another length. -/
def dec32 : Bytes → Option Word
  | [b0, b1, b2, b3] => some (b3 ++ b2 ++ b1 ++ b0)
  | _ => none

/-- `B[i..i+n)` (00_scope.md R7), where it lies inside B. -/
def slice (B : Bytes) (i n : Nat) : Bytes := (B.drop i).take n

end Sys2Proof.Machine
end

