-- ==== Sys2Proof/Machine/Operands.lean ====
section
/-! DEFINITION. The operands of the commands: registers and IBUF bytes as they stand when the command starts
(spec/30_encoding.md R92; spec/20_memory.md R61; spec/43_framing.md R200). -/
namespace Sys2Proof.Machine

/-- `reg[IN_LEN]` as a number. -/
abbrev inputLength (s : State) : Nat := s.inLen.toNat

/-- A region of IBUF: start and length. -/
abbrev Span := Nat × Nat

/-- `MemRead(IBUF, off, len)`, or none where it reads a byte that nothing has written (60_exceptions.md R236). -/
def readRegion (s : State) (r : Span) : Option Bytes := s.ibuf.readBytes r.1 r.2

/-- The whole input `IBUF[0..IN_LEN)` (20_memory.md R61). -/
def inputBytes (s : State) : Option Bytes := readRegion s (0, inputLength s)

/-- The bytes of several regions, in order. -/
def readRegions (s : State) : List Span → Option (List Bytes)
  | [] => some []
  | r :: rs =>
    match readRegion s r, readRegions s rs with
    | some b, some bs => some (b :: bs)
    | _, _ => none

/-- The source regions of the fields i < k: `[FIELD_OFF[i], FIELD_OFF[i] + FIELD_LEN[i])`; "FIELD registers for i ≥ k are
not read" (43_framing.md R200). -/
def fieldRegions (k : Nat) (s : State) : List Span :=
  [(s.fieldOff.r0.toNat, s.fieldLen.r0.toNat), (s.fieldOff.r1.toNat, s.fieldLen.r1.toNat),
   (s.fieldOff.r2.toNat, s.fieldLen.r2.toNat), (s.fieldOff.r3.toNat, s.fieldLen.r3.toNat)].take k

/-- The source region of the trailer (43_framing.md R200). -/
def trailRegion (s : State) : Span := (s.trailOff.toNat, s.trailLen.toNat)

/-- "A region is in range when `off + len ≤ IN_LEN`, compared exactly with no wrap" (43_framing.md R200). -/
def inRange (L : Nat) (r : Span) : Bool := decide (r.1 + r.2 ≤ L)

/-- The index, counted from i, of the first region out of range (43_framing.md R201; 40_control.md R120). -/
def firstOutOfRange (L : Nat) : Nat → List Span → Option Nat
  | _, [] => none
  | i, r :: rs => if inRange L r then firstOutOfRange L (i + 1) rs else some i

/-- Four field registers from the values of the first fields; the registers beyond them are written 0
(43_framing.md R194, R196). -/
def fieldBankOf (vs : List Nat) : FieldBank :=
  { r0 := BitVec.ofNat 32 (vs.getD 0 0), r1 := BitVec.ofNat 32 (vs.getD 1 0),
    r2 := BitVec.ofNat 32 (vs.getD 2 0), r3 := BitVec.ofNat 32 (vs.getD 3 0) }

end Sys2Proof.Machine
end

