-- ==== Sys2Proof/Machine/Control.lean ====
section
/-! DEFINITION. The control commands NOP, OUT_CLEAR and SOFT_RESET (spec/40_control.md R115, R116, R118). -/
namespace Sys2Proof.Machine

/-- NOP (R115): nothing staged; STATUS becomes OK with LAST_OP 0x00. -/
def execNop (s : State) : StepResult :=
  .next (commit 0x00 {} s)

/-- OUT_CLEAR (R116): OUT_LEN becomes 0; "OBUF's bytes are not erased". -/
def execOutClear (s : State) : StepResult :=
  .next (commit 0x01 { outLen := some 0 } s)

/-- SOFT_RESET (R118): every register to its reset value; buffers and written flags stay. -/
def execSoftReset (s : State) : StepResult :=
  .next (commit 0x02
    { inLen := some 0, outLen := some 0, data := some 0, offset := some 0, rle := some RleState.idle,
      trailOff := some 0, trailLen := some 0, fieldOff := some FieldBank.zero, fieldLen := some FieldBank.zero } s)

end Sys2Proof.Machine
end

