-- ==== Sys2Proof/Machine/Framing.lean ====
section
/-! DEFINITION. UTF-8 validity, the length-prefixed field parser, the framer, and the commands FP_PARSE and FP_FRAME
(spec/43_framing.md R180 to R202). -/
namespace Sys2Proof.Machine

/-! ### UTF-8 validity (R181) -/

/-- A range of byte values, both ends included. -/
abbrev ByteRange := Nat × Nat

/-- A byte lies in a range. -/
def inByteRange (r : ByteRange) (b : Byte) : Bool := decide (r.1 ≤ b.toNat) && decide (b.toNat ≤ r.2)

/-- The table of well-formed sequences, one range per position (R181; log 12). -/
def utf8Rows : List (ByteRange × List ByteRange) :=
  [ ((0x00, 0x7F), []),
    ((0xC2, 0xDF), [(0x80, 0xBF)]),
    ((0xE0, 0xE0), [(0xA0, 0xBF), (0x80, 0xBF)]),
    ((0xE1, 0xEC), [(0x80, 0xBF), (0x80, 0xBF)]),
    ((0xED, 0xED), [(0x80, 0x9F), (0x80, 0xBF)]),
    ((0xEE, 0xEF), [(0x80, 0xBF), (0x80, 0xBF)]),
    ((0xF0, 0xF0), [(0x90, 0xBF), (0x80, 0xBF), (0x80, 0xBF)]),
    ((0xF1, 0xF3), [(0x80, 0xBF), (0x80, 0xBF), (0x80, 0xBF)]),
    ((0xF4, 0xF4), [(0x80, 0x8F), (0x80, 0xBF), (0x80, 0xBF)]) ]

/-- The ranges of the bytes after `b` in a sequence that `b` begins; none where no row begins with `b`. -/
def utf8Tail (b : Byte) : Option (List ByteRange) :=
  (utf8Rows.find? fun row => inByteRange row.1 b).map (·.2)

/-- R181's loop over the bytes, with the ranges still due of the sequence it is inside. -/
def utf8From : List ByteRange → Bytes → Bool
  | due, [] => due.isEmpty
  | [], b :: B =>
    match utf8Tail b with
    | none => false
    | some due => utf8From due B
  | r :: due, b :: B => inByteRange r b && utf8From due B

/-- `utf8_valid(B)` (R181). -/
def utf8Valid (B : Bytes) : Bool := utf8From [] B

/-! ### The parse function (R183 to R187) -/

/-- What `parse` returns (R183): the fields as (off, len) in order and the trailer, or the field that did not fit. -/
inductive ParseResult where
  | ok (fields : List Span) (toff tlen : Nat)
  | shortPrefix (i : Nat)
  | shortField (i : Nat)
  deriving DecidableEq, Repr

/-- The 4-byte length prefix at index p, or none where fewer than 4 bytes remain, `p + 4 > L` (R184, R185). -/
def prefixAt (B : Bytes) (p : Nat) : Option Nat := (dec32 (slice B p 4)).map BitVec.toNat

/-- The n prefixes from index `4 * i` on, in order, or the index of the first that does not fit (R184, first loop). -/
def groupedLengths (B : Bytes) : Nat → Nat → Except Nat (List Nat)
  | _, 0 => .ok []
  | i, n + 1 =>
    match prefixAt B (4 * i) with
    | none => .error i
    | some len =>
      match groupedLengths B (i + 1) n with
      | .error j => .error j
      | .ok lens => .ok (len :: lens)

/-- Place fields of the given lengths from index p on; field i is the first (R184, second loop). `L` is |B|. -/
def placeFields (L : Nat) : Nat → Nat → List Nat → ParseResult
  | _, p, [] => .ok [] p (L - p)
  | i, p, len :: lens =>
    if L < p + len then .shortField i
    else
      match placeFields L (i + 1) (p + len) lens with
      | .ok fields toff tlen => .ok ((p, len) :: fields) toff tlen
      | r => r

/-- `parse(B, k, GROUPED)` (R184): "Every prefix is checked under (a) before any length is checked under (b)." -/
def parseGrouped (B : Bytes) (k : Nat) : ParseResult :=
  match groupedLengths B 0 k with
  | .error i => .shortPrefix i
  | .ok lens => placeFields B.length 0 (4 * k) lens

/-- R185's loop for n more fields: field i is the next, its prefix at index p. -/
def parseInterleavedFrom (B : Bytes) : Nat → Nat → Nat → ParseResult
  | 0, _, p => .ok [] p (B.length - p)
  | n + 1, i, p =>
    match prefixAt B p with
    | none => .shortPrefix i
    | some len =>
      if B.length < p + 4 + len then .shortField i
      else
        match parseInterleavedFrom B n (i + 1) (p + 4 + len) with
        | .ok fields toff tlen => .ok ((p + 4, len) :: fields) toff tlen
        | r => r

/-- `parse(B, k, INTERLEAVED)` (R185). -/
def parseInterleaved (B : Bytes) (k : Nat) : ParseResult := parseInterleavedFrom B k 0 0

/-- `parse(B, k, layout)` (R183). -/
def parse (B : Bytes) (k : Nat) : Layout → ParseResult
  | .grouped => parseGrouped B k
  | .interleaved => parseInterleaved B k

/-! ### The frame function (R190) -/

/-- The length prefix of a field: enc32(|F|) (R190). enc32 takes a u32, and R191 bounds |F| by 2^32 - 1: for a longer
list the spec gives no value, and the prefix is that of |F| mod 2^32 (DESIGN CHOICE, log 20). No command frames one. -/
def lengthPrefix (F : Bytes) : Bytes := enc32 (BitVec.ofNat 32 F.length)

/-- `frame(F, T, layout)` (R190). -/
def frame (F : List Bytes) (T : Bytes) : Layout → Bytes
  | .grouped => F.flatMap lengthPrefix ++ F.flatten ++ T
  | .interleaved => F.flatMap (fun f => lengthPrefix f ++ f) ++ T

/-! ### The commands -/

/-- What a successful parse stages (R193, R194): the four field pairs (0 beyond k, R196), the trailer, and the UTF-8
report of every field and the trailer. -/
def stagedParse (B : Bytes) (fields : List Span) (toff tlen : Nat) : Staged :=
  { fieldOff := some (fieldBankOf (fields.map (·.1)))
    fieldLen := some (fieldBankOf (fields.map (·.2)))
    trailOff := some (BitVec.ofNat 32 toff)
    trailLen := some (BitVec.ofNat 32 tlen)
    utf8Bad := utf8BadBits (fields.map fun f => utf8Valid (slice B f.1 f.2))
    utf8BadTrail := !utf8Valid (slice B toff tlen) }

/-- FP_PARSE (R194, R195). A K above K_MAX is ILLEGAL (30_encoding.md R96; log 9). The whole input is read before it is
parsed (log 5). -/
def execFpParse (k : BitVec 3) (layout : Layout) (s : State) : StepResult :=
  if !kLegal k then .next (raiseStatus .illegal 0 0x30 s)
  else
    match inputBytes s with
    | none => .fault .unwrittenRead
    | some B =>
      match parse B k.toNat layout with
      | .shortPrefix i => .next (raiseStatus .shortPrefix i 0x30 s)
      | .shortField i => .next (raiseStatus .shortField i 0x30 s)
      | .ok fields toff tlen => .next (commit 0x30 (stagedParse B fields toff tlen) s)

/-- The index FP_FRAME reports with RANGE for the trailer (R201). -/
def trailerIndex : Nat := 4

/-- FP_FRAME (R200, R201): the range checks in order, then the reads, then the commit. A K above K_MAX is ILLEGAL
(30_encoding.md R96; log 9). -/
def execFpFrame (k : BitVec 3) (layout : Layout) (s : State) : StepResult :=
  if !kLegal k then .next (raiseStatus .illegal 0 0x31 s)
  else
    match firstOutOfRange (inputLength s) 0 (fieldRegions k.toNat s) with
    | some i => .next (raiseStatus .range i 0x31 s)
    | none =>
      if !inRange (inputLength s) (trailRegion s) then .next (raiseStatus .range trailerIndex 0x31 s)
      else
        match readRegions s (fieldRegions k.toNat s), readRegion s (trailRegion s) with
        | some F, some T => .next (commit 0x31 { output := frame F T layout } s)
        | _, _ => .fault .unwrittenRead

end Sys2Proof.Machine
end

