-- ==== Sys2Proof/Machine/Rle.lean ====
section
/-! DEFINITION. The run-length encoder: its state machine and its five commands (spec/42_rle.md). -/
namespace Sys2Proof.Machine

/-! ### The state machine -/

/-- `rle_step(s, b)` (R151): the new state and the bytes emitted. The third case is the full run: its count is 255. -/
def rleStep (s : RleState) (b : Byte) : RleState × Bytes :=
  if s.valid = false then ({ valid := true, value := b, count := 1 }, [])
  else if b = s.value ∧ s.count.toNat < 255 then ({ valid := true, value := s.value, count := s.count + 1 }, [])
  else if b = s.value then ({ valid := true, value := b, count := 1 }, [255, s.value])
  else ({ valid := true, value := b, count := 1 }, [s.count, s.value])

/-- `rle_flush(s)` (R152). -/
def rleFlush (s : RleState) : RleState × Bytes :=
  if s.valid then (RleState.idle, [s.count, s.value]) else (RleState.idle, [])

/-- The loop of R153, R158 and R159: step through every byte, collecting what is emitted. -/
def rleRun : RleState → Bytes → RleState × Bytes
  | s, [] => (s, [])
  | s, b :: bs => ((rleRun (rleStep s b).1 bs).1, (rleStep s b).2 ++ (rleRun (rleStep s b).1 bs).2)

/-- The loop, then the flush (R159). -/
def rleRunFlush (s : RleState) (B : Bytes) : RleState × Bytes :=
  ((rleFlush (rleRun s B).1).1, (rleRun s B).2 ++ (rleFlush (rleRun s B).1).2)

/-- `rle(B)`: the encoder's function on a whole buffer, from the idle state (R153). -/
def rle (B : Bytes) : Bytes := (rleRunFlush RleState.idle B).2

/-- `rle_decode(P)`, "defined for |P| even" (R171): a specification function, not a command; none for an odd length
(log 19). -/
def rleDecode : Bytes → Option Bytes
  | [] => some []
  | [_] => none
  | c :: v :: P =>
    match rleDecode P with
    | some B => some (List.replicate c.toNat v ++ B)
    | none => none

/-- The register word RLE_STATE: VALUE [7:0], COUNT [15:8], VALID [16], bits [31:17] read 0 (10_state.md R31). -/
def rleStateWord (s : RleState) : Word :=
  0#15 ++ BitVec.ofBool s.valid ++ s.count ++ s.value

/-! ### The commands -/

/-- RLE_INIT (R155): back to idle, "nothing is emitted, even if a run was open". -/
def execRleInit (s : State) : StepResult :=
  .next (commit 0x10 { rle := some RleState.idle } s)

/-- RLE_PUSH (R156): one step with the byte IMM8. -/
def execRlePush (b : Byte) (s : State) : StepResult :=
  .next (commit 0x11 { output := (rleStep s.rle b).2, rle := some (rleStep s.rle b).1 } s)

/-- RLE_FLUSH (R157): close the open run, if any. -/
def execRleFlush (s : State) : StepResult :=
  .next (commit 0x12 { output := (rleFlush s.rle).2, rle := some (rleFlush s.rle).1 } s)

/-- RLE_PUSHBUF (R158): push every input byte, without a final flush. -/
def execRlePushbuf (s : State) : StepResult :=
  match inputBytes s with
  | none => .fault .unwrittenRead
  | some B => .next (commit 0x13 { output := (rleRun s.rle B).2, rle := some (rleRun s.rle B).1 } s)

/-- RLE_ENCODE (R159): push every input byte, then flush. -/
def execRleEncode (s : State) : StepResult :=
  match inputBytes s with
  | none => .fault .unwrittenRead
  | some B => .next (commit 0x14 { output := (rleRunFlush s.rle B).2, rle := some (rleRunFlush s.rle B).1 } s)

end Sys2Proof.Machine
end

