-- ==== Sys2Proof/Machine/Scalar.lean ====
section
/-! DEFINITION. The scalar codec commands LE32_ENC and LE32_DEC (spec/41_le32_codec.md R136, R137). -/
namespace Sys2Proof.Machine

/-- LE32_ENC (R136): append enc32(DATA). -/
def execLe32Enc (s : State) : StepResult :=
  .next (commit 0x20 { output := enc32 s.data } s)

/-- LE32_DEC (R137): decode the 4 input bytes at OFFSET into DATA; SHORT_DATA where `o + 4 > L`, compared exactly. -/
def execLe32Dec (s : State) : StepResult :=
  if inputLength s < s.offset.toNat + 4 then .next (raiseStatus .shortData 0 0x21 s)
  else
    match readRegion s (s.offset.toNat, 4) with
    | none => .fault .unwrittenRead
    | some B => .next (commit 0x21 { data := dec32 B } s)

end Sys2Proof.Machine
end

