-- ==== Sys2Proof/Machine/Dispatch.lean ====
section
/-! DEFINITION. One arm per command (spec/30_encoding.md R93; spec/40_control.md R110). -/
namespace Sys2Proof.Machine

def exec (i : Instr) (s : State) : Host.Outcome State Fault Refusal :=
  match i with
  | .nop => Sys2Proof.Machine.execNop s
  | .outClear => Sys2Proof.Machine.execOutClear s
  | .softReset => Sys2Proof.Machine.execSoftReset s
  | .rleInit => Sys2Proof.Machine.execRleInit s
  | .rlePush b => Sys2Proof.Machine.execRlePush b s
  | .rleFlush => Sys2Proof.Machine.execRleFlush s
  | .rlePushbuf => Sys2Proof.Machine.execRlePushbuf s
  | .rleEncode => Sys2Proof.Machine.execRleEncode s
  | .le32Enc => Sys2Proof.Machine.execLe32Enc s
  | .le32Dec => Sys2Proof.Machine.execLe32Dec s
  | .fpParse k layout => Sys2Proof.Machine.execFpParse k layout s
  | .fpFrame k layout => Sys2Proof.Machine.execFpFrame k layout s

end Sys2Proof.Machine
end

