-- ==== Sys2Proof/Machine/HostAccess.lean ====
section
/-! DEFINITION. The host interface: the address map, the register map, bus errors, and what one host access does
(spec/10_state.md R22 to R36; spec/20_memory.md R60 to R76; spec/40_control.md R110). -/
namespace Sys2Proof.Machine

/-! ### The register map (10_state.md R22) -/

/-- A register of the map. -/
inductive Reg where
  | id | cmd | status | inLen | outLen | data | offset | rleState | ibufCap | obufCap | trailOff | trailLen
  | fieldOff0 | fieldOff1 | fieldOff2 | fieldOff3 | fieldLen0 | fieldLen1 | fieldLen2 | fieldLen3
  deriving DecidableEq, Repr

/-- The registers in the order of their offsets: the register at offset 4 * n is the n-th. -/
def registerMap : List Reg :=
  [.id, .cmd, .status, .inLen, .outLen, .data, .offset, .rleState, .ibufCap, .obufCap, .trailOff, .trailLen,
   .fieldOff0, .fieldOff1, .fieldOff2, .fieldOff3, .fieldLen0, .fieldLen1, .fieldLen2, .fieldLen3]

/-- The register at an aligned offset; none for the reserved offsets 0x50 to 0xFC (R35). -/
def registerAt (off : Nat) : Option Reg := registerMap[off / 4]?

/-- The value a host read of a register returns. CMD reads 0 (R24); IBUF_CAP and OBUF_CAP are the sizes (R32);
RLE_STATE is the encoder's word (R31). -/
def readReg (s : State) : Reg → Word
  | .id => s.cfg.idValue
  | .cmd => 0
  | .status => s.status
  | .inLen => s.inLen
  | .outLen => s.outLen
  | .data => s.data
  | .offset => s.offset
  | .rleState => rleStateWord s.rle
  | .ibufCap => BitVec.ofNat 32 s.cfg.ibufSize
  | .obufCap => BitVec.ofNat 32 s.cfg.obufSize
  | .trailOff => s.trailOff
  | .trailLen => s.trailLen
  | .fieldOff0 => s.fieldOff.r0
  | .fieldOff1 => s.fieldOff.r1
  | .fieldOff2 => s.fieldOff.r2
  | .fieldOff3 => s.fieldOff.r3
  | .fieldLen0 => s.fieldLen.r0
  | .fieldLen1 => s.fieldLen.r1
  | .fieldLen2 => s.fieldLen.r2
  | .fieldLen3 => s.fieldLen.r3

/-- A host write of w to IN_LEN stores min(w, IBUF_SIZE) (R27). -/
def clampInLen (s : State) (w : Word) : Word := BitVec.ofNat 32 (min w.toNat s.cfg.ibufSize)

/-- The state after a host write of a register that holds what it is given; none for the read-only registers
(20_memory.md R66 item 4) and for CMD, whose write executes a command instead (R24). -/
def writeReg (s : State) (w : Word) : Reg → Option State
  | .id => none
  | .cmd => none
  | .status => none
  | .inLen => some { s with inLen := clampInLen s w }
  | .outLen => none
  | .data => some { s with data := w }
  | .offset => some { s with offset := w }
  | .rleState => none
  | .ibufCap => none
  | .obufCap => none
  | .trailOff => some { s with trailOff := w }
  | .trailLen => some { s with trailLen := w }
  | .fieldOff0 => some { s with fieldOff := { s.fieldOff with r0 := w } }
  | .fieldOff1 => some { s with fieldOff := { s.fieldOff with r1 := w } }
  | .fieldOff2 => some { s with fieldOff := { s.fieldOff with r2 := w } }
  | .fieldOff3 => some { s with fieldOff := { s.fieldOff with r3 := w } }
  | .fieldLen0 => some { s with fieldLen := { s.fieldLen with r0 := w } }
  | .fieldLen1 => some { s with fieldLen := { s.fieldLen with r1 := w } }
  | .fieldLen2 => some { s with fieldLen := { s.fieldLen with r2 := w } }
  | .fieldLen3 => some { s with fieldLen := { s.fieldLen with r3 := w } }

/-! ### The address map (20_memory.md R60) -/

/-- Where the IBUF window begins. -/
def ibufBase : Nat := 0x40000000
/-- Where the OBUF window begins. -/
def obufBase : Nat := 0x80000000

/-- What a block-relative address names. -/
inductive Location where
  /-- An offset in the register window. -/
  | window (off : Nat)
  /-- Byte i of IBUF. -/
  | ibuf (i : Nat)
  /-- Byte i of OBUF. -/
  | obuf (i : Nat)
  /-- Every other address. -/
  | unmapped
  deriving DecidableEq, Repr

/-- The map of R60. -/
def locate (c : Config) (addr : Word) : Location :=
  if addr.toNat < 0x100 then .window addr.toNat
  else if ibufBase ≤ addr.toNat ∧ addr.toNat < ibufBase + c.ibufSize then .ibuf (addr.toNat - ibufBase)
  else if obufBase ≤ addr.toNat ∧ addr.toNat < obufBase + c.obufSize then .obuf (addr.toNat - obufBase)
  else .unmapped

/-- A 32-bit access at a multiple of 4 (R64). -/
def aligned (addr : Word) : Bool := decide (addr.toNat % 4 = 0)

/-! ### Commands -/

/-- A host write of w to CMD: "on host write CMD <- w" (40_control.md R110). An ILLEGAL word changes STATUS only, with
LAST_OP = w[7:0] (R114; 30_encoding.md R96). -/
def runCommand (w : Word) (s : State) : StepResult :=
  match decode w with
  | .ok i => exec i s
  | .error _ => .next (raiseStatus .illegal 0 (opField w) s)

/-! ### Serving one access -/

/-- A bus error: no state of the block changes, a write's data is dropped, a read returns no data, and the host is
answered the error (20_memory.md R67; 60_exceptions.md R234; log 6). -/
def busError (s : State) : StepResult := .next (s.respond .busError)

/-- Answer an access with a byte, or fault where the byte has no value (60_exceptions.md R236). -/
def answerByte (s : State) : Option Byte → StepResult
  | some b => .next (s.respond (.byte b))
  | none => .fault .unwrittenRead

/-- Answer an access with the little-endian word of four bytes (20_memory.md R65), or fault where one has no value. -/
def answerBytes (s : State) (bytes : Option Bytes) : StepResult :=
  match bytes.bind dec32 with
  | some w => .next (s.respond (.word w))
  | none => .fault .unwrittenRead

/-- A write that was accepted, after what it did. -/
def accept : StepResult → StepResult
  | .next s => .next (s.respond .accepted)
  | .fault r => .fault r
  | .refused r => .refused r

/-- An 8-bit read: IBUF and OBUF only (20_memory.md R63). -/
def serveRead8 (addr : Word) (s : State) : StepResult :=
  match locate s.cfg addr with
  | .window _ => busError s
  | .ibuf i => answerByte s (s.ibuf.read i)
  | .obuf i => answerByte s (s.obuf.read i)
  | .unmapped => busError s

/-- A 32-bit read: a register, or four bytes of a buffer inside it (20_memory.md R63, R64). -/
def serveRead32 (addr : Word) (s : State) : StepResult :=
  if !aligned addr then busError s
  else
    match locate s.cfg addr with
    | .window off =>
      match registerAt off with
      | some r => .next (s.respond (.word (readReg s r)))
      | none => busError s
    | .ibuf i => if i + 4 ≤ s.cfg.ibufSize then answerBytes s (s.ibuf.readBytes i 4) else busError s
    | .obuf i => if i + 4 ≤ s.cfg.obufSize then answerBytes s (s.obuf.readBytes i 4) else busError s
    | .unmapped => busError s

/-- An 8-bit write: IBUF only (20_memory.md R63, R66). -/
def serveWrite8 (addr : Word) (b : Byte) (s : State) : StepResult :=
  match locate s.cfg addr with
  | .window _ => busError s
  | .ibuf i => accept (.next (s.withIbuf (s.ibuf.write i b)))
  | .obuf _ => busError s
  | .unmapped => busError s

/-- A 32-bit write of a register: CMD executes (10_state.md R24), a read-only register is a bus error
(20_memory.md R66). -/
def serveWriteReg (r : Reg) (w : Word) (s : State) : StepResult :=
  if r = .cmd then accept (runCommand w s)
  else
    match writeReg s w r with
    | some t => accept (.next t)
    | none => busError s

/-- A 32-bit write: a register, or `B[i..i+4) <- enc32(w)` inside IBUF (20_memory.md R63 to R66). -/
def serveWrite32 (addr w : Word) (s : State) : StepResult :=
  if !aligned addr then busError s
  else
    match locate s.cfg addr with
    | .window off =>
      match registerAt off with
      | some r => serveWriteReg r w s
      | none => busError s
    | .ibuf i =>
      if i + 4 ≤ s.cfg.ibufSize then accept (.next (s.withIbuf (s.ibuf.writeBytes i (enc32 w)))) else busError s
    | .obuf _ => busError s
    | .unmapped => busError s

/-- One host access, served to its end before the next (20_memory.md R68, R69, R71). No 16-bit access is allowed
anywhere (R63). -/
def serve (a : Access) (s : State) : StepResult :=
  match a with
  | .rd8 addr => serveRead8 addr s
  | .rd16 _ => busError s
  | .rd32 addr => serveRead32 addr s
  | .wr8 addr b => serveWrite8 addr b s
  | .wr16 _ _ => busError s
  | .wr32 addr w => serveWrite32 addr w s

/-- The block-relative address of CMD (10_state.md R22). -/
def cmdAddress : Word := 0x04

end Sys2Proof.Machine
end

