-- ==== Sys2Proof/Machine/Step.lean ====
section
/-! DEFINITION. One step of the machine: the next host access is served whole (spec/20_memory.md R69, R71). -/
namespace Sys2Proof.Machine

/-- One step: the first pending access is taken and served. With none pending "the block waits for host accesses" and
"runs nothing of its own" (70_reset_and_hazards.md R251; log 4). -/
def step (s : State) : Host.Outcome State Fault Refusal :=
  match s.pending with
  | [] => .next s
  | a :: rest => serve a (s.withPending rest)

/-- `s` with a host write of the command word `w` to CMD as its next access: the way every command reaches the block
(40_control.md R110; log 4). The accesses that were pending stay behind it. -/
def State.withFetchWord (s : State) (nbits w : Nat) : State :=
  s.withPending (.wr32 cmdAddress (BitVec.ofNat 32 (w % 2 ^ nbits)) :: s.pending)

end Sys2Proof.Machine
end

