-- ==== Sys2Proof/Machine/Session.lean ====
section
/-! DEFINITION. Host sessions: a finite sequence of accesses from power-on reset, a host that chooses its next access
from the answers so far, what a session lets one observe, and the host's pseudo-instructions (spec/30_encoding.md R93,
R99, R100; spec/70_reset_and_hazards.md R254, R260). Nothing here is used by `step`. -/
namespace Sys2Proof.Machine

/-! ### Fixed sessions (70_reset_and_hazards.md R260) -/

/-- The start of a session: power-on reset, the accesses to come. -/
def sessionStart (c : Config) (as : List Access) : State := (State.resetWith c).withPending as

/-- The session, run to its end: "It ends when its last access has completed." UnwrittenRead ends it as a fault. -/
def runSession (c : Config) (as : List Access) : StepResult := Sys2Proof.core.run as.length (sessionStart c as)

/-! ### A host that decides as it goes (30_encoding.md R99) -/

/-- A host program with variables, labels, branches and gotos, as what it amounts to for the block: the next access,
given every answer so far, or none when the program is over. "These are host steps, not block commands." (R99) -/
abbrev HostProgram := List Response → Option Access

/-- At most n accesses of a host program. -/
def runHostProgram (h : HostProgram) : Nat → State → StepResult
  | 0, s => .next s
  | n + 1, s =>
    match h s.responses with
    | none => .next s
    | some a =>
      match step (s.withPending [a]) with
      | .next t => runHostProgram h n t
      | .fault r => .fault r
      | .refused r => .refused r

/-! ### Several commands in a row -/

/-- Run commands one after the other as long as each ends with CODE = OK; none where one raised a status or read an
unwritten byte. -/
def commandsOk : List Instr → State → Option State
  | [], s => some s
  | i :: is, s =>
    match exec i s with
    | .next t => if statusCode t.status = 0 then commandsOk is t else none
    | .fault _ => none
    | .refused _ => none

/-! ### The observation of a session (70_reset_and_hazards.md R260) -/

/-- What a session that completed lets one observe. (That UnwrittenRead was raised is the outcome `fault` instead.) -/
structure Observation where
  /-- "the host values each read returned", with the other answers between them -/
  answers : List Response
  /-- "whether any access got a bus error" -/
  anyBusError : Bool
  /-- "the final registers", in the order of the map -/
  registers : List Word
  /-- "the final OBUF[0..OUT_LEN)"; every one of these bytes was stored by a commit, so it is never none -/
  output : Option Bytes
  deriving DecidableEq, Repr

/-- Some access got a bus error. -/
def State.gotBusError (s : State) : Bool := s.responses.any fun r => decide (r = .busError)

/-- The observation of a session that has come to the state s. -/
def observe (s : State) : Observation :=
  { answers := s.responses
    anyBusError := s.gotBusError
    registers := registerMap.map (readReg s)
    output := s.obuf.readBytes 0 s.outLen.toNat }

/-! ### Host syntax: accesses and pseudo-instructions (30_encoding.md R99, R100) -/

/-- The offset of a register in the map (10_state.md R22). -/
def Reg.address (r : Reg) : Word := BitVec.ofNat 32 (4 * registerMap.idxOf r)

/-- `wr32 <REG>, <v>`. -/
def wrReg (r : Reg) (v : Word) : Access := .wr32 r.address v
/-- `rd32 <REG>`. -/
def rdReg (r : Reg) : Access := .rd32 r.address
/-- `wr8 IBUF+<i>, <b>`. -/
def wr8Ibuf (i : Nat) (b : Byte) : Access := .wr8 (BitVec.ofNat 32 (ibufBase + i)) b
/-- `wr32 IBUF+<i>, <v>`. -/
def wr32Ibuf (i : Nat) (v : Word) : Access := .wr32 (BitVec.ofNat 32 (ibufBase + i)) v
/-- `rd8 IBUF+<i>`. -/
def rd8Ibuf (i : Nat) : Access := .rd8 (BitVec.ofNat 32 (ibufBase + i))
/-- `rd32 IBUF+<i>`. -/
def rd32Ibuf (i : Nat) : Access := .rd32 (BitVec.ofNat 32 (ibufBase + i))
/-- `rd8 OBUF+<i>`. -/
def rd8Obuf (i : Nat) : Access := .rd8 (BitVec.ofNat 32 (obufBase + i))
/-- `rd32 OBUF+<i>`. -/
def rd32Obuf (i : Nat) : Access := .rd32 (BitVec.ofNat 32 (obufBase + i))

/-- A command `<mnemonic> [operands]`: "It means `wr32 CMD, <word>`." (R99) -/
def command (i : Instr) : Access := wrReg .cmd (encode i)

/-- `wr8 IBUF+j, B[j]` in increasing j, from index i. -/
def loadBytes : Nat → Bytes → List Access
  | _, [] => []
  | i, b :: bs => wr8Ibuf i b :: loadBytes (i + 1) bs

/-- `load [..]` (R100). -/
def load (B : Bytes) : List Access := loadBytes 0 B ++ [wrReg .inLen (BitVec.ofNat 32 B.length)]

/-- `drain` (R100), for the OUT_LEN = n that its first read returns. -/
def drain (n : Nat) : List Access := rdReg .outLen :: (List.range n).map rd8Obuf ++ [command .outClear]

/-- The register FIELD_OFF<i>. -/
def fieldOffReg : Fin 4 → Reg
  | 0 => .fieldOff0
  | 1 => .fieldOff1
  | 2 => .fieldOff2
  | 3 => .fieldOff3

/-- The register FIELD_LEN<i>. -/
def fieldLenReg : Fin 4 → Reg
  | 0 => .fieldLen0
  | 1 => .fieldLen1
  | 2 => .fieldLen2
  | 3 => .fieldLen3

/-- `setfield <i>, <off>, <len>` (R100). -/
def setfield (i : Fin 4) (off len : Word) : List Access := [wrReg (fieldOffReg i) off, wrReg (fieldLenReg i) len]

/-- `settrail <off>, <len>` (R100). -/
def settrail (off len : Word) : List Access := [wrReg .trailOff off, wrReg .trailLen len]

/-- `li <v>` (R100). -/
def li (v : Word) : List Access := [wrReg .data v]

/-- `code -> <name>` (R100): read STATUS; the name is `statusCode` of the word returned. -/
def readCode : List Access := [rdReg .status]

/-- The layout operand of the assembler form (R99). -/
def Layout.assembler : Layout → String
  | .grouped => "grouped"
  | .interleaved => "interleaved"

/-- The assembler form of a command (30_encoding.md R93). -/
def assembler : Instr → String
  | .nop => "nop"
  | .outClear => "out.clear"
  | .softReset => "soft.reset"
  | .rleInit => "rle.init"
  | .rlePush b => "rle.push " ++ toString b.toNat
  | .rleFlush => "rle.flush"
  | .rlePushbuf => "rle.pushbuf"
  | .rleEncode => "rle.encode"
  | .le32Enc => "le32.enc"
  | .le32Dec => "le32.dec"
  | .fpParse k layout => "fp.parse " ++ toString k.toNat ++ ", " ++ Layout.assembler layout
  | .fpFrame k layout => "fp.frame " ++ toString k.toNat ++ ", " ++ Layout.assembler layout

end Sys2Proof.Machine
end

