-- ==== Sys2Proof/Machine/Profiles.lean ====
section
/-! DEFINITION. The consumer profiles: how a caller turns the parser's outcomes into the match and replace filters'
outputs (spec/43_framing.md R214 to R221). They are "outside the block": nothing here is used by `step`. -/
namespace Sys2Proof.Machine

/-- The regex oracle REGEX_ENGINE (R214), OPEN: any three functions of these shapes (log 16). -/
structure RegexEngine where
  Regex : Type
  /-- `regex_compile(p)`; none is CompileError. -/
  compile : Bytes → Option Regex
  /-- `regex_is_match(re, s)`. -/
  isMatch : Regex → Bytes → Bool
  /-- `regex_replace_all(re, r, s)`. -/
  replaceAll : Regex → Bytes → Bytes → Bytes

/-- "The only facts the source fixes about it are the §8 examples" (R214): "a+" matches "baaab"; "z+" does not;
replacing "a" by "X" in "banana" gives "bXnXnX"; "(" fails to compile. -/
structure RegexEngine.MeetsExamples (e : RegexEngine) : Prop where
  matches_aPlus : (e.compile [0x61, 0x2B]).map (e.isMatch · [0x62, 0x61, 0x61, 0x61, 0x62]) = some true
  not_matches_zPlus : (e.compile [0x7A, 0x2B]).map (e.isMatch · [0x62, 0x61, 0x61, 0x61, 0x62]) = some false
  replaces_banana : (e.compile [0x61]).map (e.replaceAll · [0x58] [0x62, 0x61, 0x6E, 0x61, 0x6E, 0x61])
    = some [0x62, 0x58, 0x6E, 0x58, 0x6E, 0x58]
  rejects_paren : (e.compile [0x28]).isNone

/-- A field of a buffer, by its (off, len). -/
def fieldBytes (B : Bytes) (f : Span) : Bytes := slice B f.1 f.2

/-- The zero output of every fallback of the match profile (R216). -/
def matchZero : Bytes := enc32 0

/-- `match_out(B)` (R215). -/
def matchOut (e : RegexEngine) (B : Bytes) : Bytes :=
  match parse B 1 .grouped with
  | .ok [p] toff tlen =>
    if utf8Valid (fieldBytes B p) && utf8Valid (slice B toff tlen) then
      match e.compile (fieldBytes B p) with
      | none => matchZero
      | some re => enc32 (if e.isMatch re (slice B toff tlen) then 1 else 0)
    else matchZero
  | _ => matchZero

/-- The partial echo of the replace profile: `ts <- 8 + dec32(B[0..4)) + dec32(B[4..8))`, exact, and `B[min(ts, L) .. L)`
(R217, R219; log 13). A ShortField means that both prefixes are there, so the last case does not arise. -/
def partialEcho (B : Bytes) : Bytes :=
  match prefixAt B 0, prefixAt B 4 with
  | some plen, some rlen => B.drop (min (8 + plen + rlen) B.length)
  | _, _ => []

/-- `replace_out(B)` (R217). -/
def replaceOut (e : RegexEngine) (B : Bytes) : Bytes :=
  match parse B 2 .grouped with
  | .shortPrefix _ => B
  | .shortField _ => partialEcho B
  | .ok [p, r] toff tlen =>
    if utf8Valid (fieldBytes B p) && utf8Valid (fieldBytes B r) && utf8Valid (slice B toff tlen) then
      match e.compile (fieldBytes B p) with
      | none => slice B toff tlen
      | some re => e.replaceAll re (fieldBytes B r) (slice B toff tlen)
    else slice B toff tlen
  | .ok _ toff tlen => slice B toff tlen

/-- The host's regex step in the sequence of R221: the match value from the pattern and the subject it read. -/
def regexStep (e : RegexEngine) (pattern subject : Bytes) : Word :=
  match e.compile pattern with
  | none => 0
  | some re => if e.isMatch re subject then 1 else 0

/-- The value R221's host program writes to DATA, after `fp.parse 1, grouped` left `status` and the field registers
naming `pattern` and `subject`: "if c /= OK goto zero", "if s[16] = 1 or s[20] = 1 goto zero", else the regex step. -/
def matchSequenceValue (e : RegexEngine) (status : Word) (pattern subject : Bytes) : Word :=
  if statusCode status ≠ 0 then 0
  else if (statusUtf8Bad status).getLsbD 0 || statusUtf8BadTrail status = 1 then 0
  else regexStep e pattern subject

end Sys2Proof.Machine
end

