-- ==== Sys2Proof/Safety.lean ====
section
/-! DEFINITION. What counts as a safe run and a legal state, in the terms claims use (spec/10_state.md R31, R40;
spec/60_exceptions.md R234, R236; spec/70_reset_and_hazards.md R260). -/
namespace Sys2Proof.Machine

/-- A final session: every access served and none of them a bus error ("the session is never final", 60_exceptions.md
R234). A run that raised UnwrittenRead is a fault and reaches no state, so it is never final either (R236). -/
def State.sessionFinal (s : State) : Bool := s.pending.isEmpty && !s.gotBusError

/-- An outcome that is a next state. -/
def completes : StepResult → Bool
  | .next _ => true
  | .fault _ => false
  | .refused _ => false

/-- "VALID = 0 implies VALUE = 0 and COUNT = 0; VALID = 1 implies 1 ≤ COUNT ≤ 255" (10_state.md R31). -/
def RleState.legal (r : RleState) : Prop :=
  (r.valid = false → r.value = 0 ∧ r.count = 0) ∧ (r.valid = true → 1 ≤ r.count.toNat ∧ r.count.toNat ≤ 255)

/-- What R25, R26 and R40 say of STATUS: CODE in 0..6, IDX at most 4, reserved bits 0, and the UTF-8 bits 0 unless
LAST_OP = 0x30 and CODE = OK. -/
def statusLegal (w : Word) : Prop :=
  (statusCode w).toNat ≤ 6 ∧ (statusIdx w).toNat ≤ 4 ∧ statusReserved w = 0 ∧
  (¬ (statusLastOp w = 0x30 ∧ statusCode w = 0) → statusUtf8Bad w = 0 ∧ statusUtf8BadTrail w = 0)

/-- A buffer in canonical form with no byte beyond its size. -/
def bufferLegal (size : Nat) (m : Memory) : Prop := m.wf ∧ ∀ cell ∈ m, cell.1 < size

/-- The invariant of every reachable state (10_state.md R40), with the buffers' form and "OBUF[0..OUT_LEN) are committed
bytes" (R28). -/
structure State.Legal (s : State) : Prop where
  inLen_le : s.inLen.toNat ≤ s.cfg.ibufSize
  outLen_le : s.outLen.toNat ≤ s.cfg.obufSize
  rle_legal : s.rle.legal
  status_legal : statusLegal s.status
  ibuf_legal : bufferLegal s.cfg.ibufSize s.ibuf
  obuf_legal : bufferLegal s.cfg.obufSize s.obuf
  output_written : ∀ i, i < s.outLen.toNat → s.obuf.written i = true

/-! ### What a command that emits output does to the state -/

/-- The output fits: it is empty, or OBUF has room for all of it (40_control.md R113). -/
def State.fits (s : State) (out : Bytes) : Prop := out = [] ∨ s.outLen.toNat + out.length ≤ s.cfg.obufSize

/-- From s to t, exactly `out` was appended: OUT_LEN grew by its length, its bytes stand at the old OUT_LEN, and every
other byte of OBUF reads as before (20_memory.md R62; 40_control.md R113). -/
structure State.Appends (s t : State) (out : Bytes) : Prop where
  length : t.outLen.toNat = s.outLen.toNat + out.length
  inside : ∀ j, j < out.length → t.obuf.read (s.outLen.toNat + j) = out[j]?
  outside : ∀ a, (a < s.outLen.toNat ∨ s.outLen.toNat + out.length ≤ a) → t.obuf.read a = s.obuf.read a

/-- Nothing but STATUS, OUT_LEN, OBUF and the RLE state differs between s and t. -/
structure State.SameButOutput (s t : State) : Prop where
  cfg : t.cfg = s.cfg
  inLen : t.inLen = s.inLen
  data : t.data = s.data
  offset : t.offset = s.offset
  trailOff : t.trailOff = s.trailOff
  trailLen : t.trailLen = s.trailLen
  fieldOff : t.fieldOff = s.fieldOff
  fieldLen : t.fieldLen = s.fieldLen
  ibuf : ∀ a, t.ibuf.read a = s.ibuf.read a
  pending : t.pending = s.pending
  responses : t.responses = s.responses

/-- Nothing but STATUS and the registers FP_PARSE writes differs between s and t. -/
structure State.SameButParse (s t : State) : Prop where
  cfg : t.cfg = s.cfg
  inLen : t.inLen = s.inLen
  outLen : t.outLen = s.outLen
  data : t.data = s.data
  offset : t.offset = s.offset
  rle : t.rle = s.rle
  ibuf : ∀ a, t.ibuf.read a = s.ibuf.read a
  obuf : ∀ a, t.obuf.read a = s.obuf.read a
  pending : t.pending = s.pending
  responses : t.responses = s.responses

/-- Every register and every byte a command may read agrees between s and t: IN_LEN, IBUF[0..IN_LEN), OUT_LEN,
OBUF_SIZE and the operand registers (40_control.md R121). STATUS, OBUF, the rest of IBUF and the session may differ. -/
structure State.SameOperands (s t : State) : Prop where
  obufSize : t.cfg.obufSize = s.cfg.obufSize
  inLen : t.inLen = s.inLen
  input : ∀ a, a < s.inLen.toNat → t.ibuf.read a = s.ibuf.read a
  outLen : t.outLen = s.outLen
  data : t.data = s.data
  offset : t.offset = s.offset
  rle : t.rle = s.rle
  trailOff : t.trailOff = s.trailOff
  trailLen : t.trailLen = s.trailLen
  fieldOff : t.fieldOff = s.fieldOff
  fieldLen : t.fieldLen = s.fieldLen

/-! ### The reads of a command, and bus errors -/

/-- The command reads, in state s, an IBUF byte that nothing has written: the whole input for RLE_PUSHBUF, RLE_ENCODE
and FP_PARSE, four bytes for LE32_DEC, the named regions for FP_FRAME, each once its own checks have passed
(60_exceptions.md R236). -/
def readsUnwritten (i : Instr) (s : State) : Prop :=
  match i with
  | .nop => False
  | .outClear => False
  | .softReset => False
  | .rleInit => False
  | .rlePush _ => False
  | .rleFlush => False
  | .rlePushbuf => ∃ a, a < s.inLen.toNat ∧ s.ibuf.written a = false
  | .rleEncode => ∃ a, a < s.inLen.toNat ∧ s.ibuf.written a = false
  | .le32Enc => False
  | .le32Dec => s.offset.toNat + 4 ≤ s.inLen.toNat ∧ ∃ j, j < 4 ∧ s.ibuf.written (s.offset.toNat + j) = false
  | .fpParse k _ => k.toNat ≤ 4 ∧ ∃ a, a < s.inLen.toNat ∧ s.ibuf.written a = false
  | .fpFrame k _ =>
    k.toNat ≤ 4 ∧ (∀ r ∈ trailRegion s :: fieldRegions k.toNat s, r.1 + r.2 ≤ s.inLen.toNat) ∧
      ∃ r ∈ trailRegion s :: fieldRegions k.toNat s, ∃ j, j < r.2 ∧ s.ibuf.written (r.1 + j) = false

/-- An address of the IBUF window (20_memory.md R60). -/
def inIbufWindow (c : Config) (addr : Word) : Prop :=
  0x40000000 ≤ addr.toNat ∧ addr.toNat < 0x40000000 + c.ibufSize

/-- An address of the OBUF window (20_memory.md R60). -/
def inObufWindow (c : Config) (addr : Word) : Prop :=
  0x80000000 ≤ addr.toNat ∧ addr.toNat < 0x80000000 + c.obufSize

/-- 20_memory.md R66 item 1: the address is unmapped, "including the reserved register offsets 0x50 to 0xFC". -/
def unmappedAddress (c : Config) (addr : Word) : Prop :=
  ¬ (addr.toNat < 0x50 ∨ inIbufWindow c addr ∨ inObufWindow c addr)

/-- 20_memory.md R66 item 3: a 32-bit access is misaligned or crosses the end of a buffer. -/
def misplaced (c : Config) (addr : Word) : Prop :=
  addr.toNat % 4 ≠ 0 ∨ (inIbufWindow c addr ∧ 0x40000000 + c.ibufSize < addr.toNat + 4) ∨
    (inObufWindow c addr ∧ 0x80000000 + c.obufSize < addr.toNat + 4)

/-- 20_memory.md R66 item 4: the offsets of ID, STATUS, OUT_LEN, RLE_STATE, IBUF_CAP and OBUF_CAP. -/
def readOnlyOffset (addr : Word) : Prop := addr.toNat ∈ [0x00, 0x08, 0x10, 0x1C, 0x20, 0x24]

/-- The access is a bus error: 20_memory.md R66, item by item, widths from R63. -/
def isBusError (c : Config) : Access → Prop
  | .rd8 addr => unmappedAddress c addr ∨ addr.toNat < 0x100
  | .rd16 _ => True
  | .rd32 addr => unmappedAddress c addr ∨ misplaced c addr
  | .wr8 addr _ => unmappedAddress c addr ∨ addr.toNat < 0x100 ∨ inObufWindow c addr
  | .wr16 _ _ => True
  | .wr32 addr _ => unmappedAddress c addr ∨ misplaced c addr ∨ readOnlyOffset addr ∨ inObufWindow c addr

/-! ### Interleaved buffers -/

/-- Where the prefix of the next INTERLEAVED field starts, behind fields of the given lengths (43_framing.md R185). -/
def interleavedStart (lens : List Nat) : Nat := 4 * lens.length + lens.sum

/-- The first fields of an INTERLEAVED buffer have the given lengths: each prefix declares its length, and each field ends
inside the buffer (43_framing.md R185, neither (a) nor (b) for any of them). -/
def interleavedFits (B : Bytes) (lens : List Nat) : Prop :=
  ∀ i len, lens[i]? = some len →
    prefixAt B (interleavedStart (lens.take i)) = some len ∧ interleavedStart (lens.take (i + 1)) ≤ B.length

/-! ### Well-formed UTF-8 sequences -/

/-- A byte between two values, both included. -/
def byteIn (lo hi : Nat) (b : Byte) : Prop := lo ≤ b.toNat ∧ b.toNat ≤ hi

/-- One well-formed UTF-8 sequence: a row of 43_framing.md R181's table. -/
inductive Utf8Sequence : Bytes → Prop where
  | ascii (a : Byte) (ha : byteIn 0x00 0x7F a) : Utf8Sequence [a]
  | two (a b : Byte) (ha : byteIn 0xC2 0xDF a) (hb : byteIn 0x80 0xBF b) : Utf8Sequence [a, b]
  | threeE0 (a b c : Byte) (ha : byteIn 0xE0 0xE0 a) (hb : byteIn 0xA0 0xBF b) (hc : byteIn 0x80 0xBF c) :
      Utf8Sequence [a, b, c]
  | threeE1 (a b c : Byte) (ha : byteIn 0xE1 0xEC a) (hb : byteIn 0x80 0xBF b) (hc : byteIn 0x80 0xBF c) :
      Utf8Sequence [a, b, c]
  | threeED (a b c : Byte) (ha : byteIn 0xED 0xED a) (hb : byteIn 0x80 0x9F b) (hc : byteIn 0x80 0xBF c) :
      Utf8Sequence [a, b, c]
  | threeEE (a b c : Byte) (ha : byteIn 0xEE 0xEF a) (hb : byteIn 0x80 0xBF b) (hc : byteIn 0x80 0xBF c) :
      Utf8Sequence [a, b, c]
  | fourF0 (a b c d : Byte) (ha : byteIn 0xF0 0xF0 a) (hb : byteIn 0x90 0xBF b) (hc : byteIn 0x80 0xBF c)
      (hd : byteIn 0x80 0xBF d) : Utf8Sequence [a, b, c, d]
  | fourF1 (a b c d : Byte) (ha : byteIn 0xF1 0xF3 a) (hb : byteIn 0x80 0xBF b) (hc : byteIn 0x80 0xBF c)
      (hd : byteIn 0x80 0xBF d) : Utf8Sequence [a, b, c, d]
  | fourF4 (a b c d : Byte) (ha : byteIn 0xF4 0xF4 a) (hb : byteIn 0x80 0x8F b) (hc : byteIn 0x80 0xBF c)
      (hd : byteIn 0x80 0xBF d) : Utf8Sequence [a, b, c, d]

/-- Every byte of the input is written: what a command that reads the whole input needs to run (60_exceptions.md R236). -/
def State.inputWritten (s : State) : Prop := ∀ i, i < s.inLen.toNat → s.ibuf.written i = true

end Sys2Proof.Machine
end

