-- ==== Sys2Proof/Certificates/Slice0/Obligations.lean ====
section
/-! DEFINITION. The statements for the provers, each from numbered rules of spec/. -/
open Sys2Proof Sys2Proof.Machine

/-! ### The command encoding (30_encoding.md) -/

/-- R90, R93: every well-formed command decodes from its own word. -/
def Obligations.DecodeOfEncode : Prop :=
  ∀ i : Instr, i.wellFormed = true → decode (encode i) = .ok i

/-- R93, R94, R97: a word that decodes is the word of a well-formed command: no second word stands for it. -/
def Obligations.EncodeOfDecode : Prop :=
  ∀ (w : Word) (i : Instr), decode w = .ok i → i.wellFormed = true ∧ encode i = w

/-- R93: "No two rows can both select one word." -/
def Obligations.OpcodeRowsDisjoint : Prop :=
  ∀ w : Word, (opcodeRows.filter fun r => rowSelects r w).length ≤ 1

/-- R96: when a word is ILLEGAL, and that it then changes nothing but STATUS. -/
def Obligations.IllegalWordsExactly : Prop :=
  ∀ w : Word,
    ((∃ e, decode w = .error e) ↔
      opField w ∉ ([0x00, 0x01, 0x02, 0x10, 0x11, 0x12, 0x13, 0x14, 0x20, 0x21, 0x30, 0x31] : List Byte)
        ∨ rsvField w ≠ 0
        ∨ (opField w ≠ 0x11 ∧ imm8Field w ≠ 0)
        ∨ (opField w ≠ 0x30 ∧ opField w ≠ 0x31 ∧ (kField w ≠ 0 ∨ layoutField w ≠ 0))
        ∨ ((opField w = 0x30 ∨ opField w = 0x31) ∧ 5 ≤ (kField w).toNat))
    ∧ ∀ (e : Illegal) (s : State), decode w = .error e → ∃ t, runCommand w s = .next t ∧
        t = { s with status := t.status } ∧ (statusCode t.status).toNat = 1 ∧ statusIdx t.status = 0 ∧
        statusUtf8Bad t.status = 0 ∧ statusUtf8BadTrail t.status = 0 ∧ statusLastOp t.status = opField w

/-- R93: some words written out from the encoding, and what they stand for. The reason 0xFFFFFFFF is named after,
where two hold (an unknown OP and a nonzero RSV), is the model's choice: log 10. -/
def Obligations.WrittenWordsDecode : Prop :=
  decode 0x00000000 = .ok .nop ∧ decode 0x00000002 = .ok .softReset ∧ decode 0x00006211 = .ok (.rlePush 0x62) ∧
  decode 0x00000014 = .ok .rleEncode ∧ decode 0x00000021 = .ok .le32Dec ∧
  decode 0x00010030 = .ok (.fpParse 1 .grouped) ∧ decode 0x000C0030 = .ok (.fpParse 4 .interleaved) ∧
  decode 0x000A0031 = .ok (.fpFrame 2 .interleaved) ∧ decode 0x00050030 = .error .kOutOfRange ∧
  decode 0x00100000 = .error .reservedBits ∧ decode 0x00000110 = .error .unusedField ∧
  decode 0xFFFFFFFF = .error .unknownOpcode

/-! ### Steps (40_control.md) -/

/-- R110, R24, R251: a step whose next access writes w to CMD runs the command w decodes to, in the state with that
access taken, and answers the host that the write was accepted; an ILLEGAL word changes STATUS instead; with no access
pending the block waits. The last clause says the same of `withFetchWord`. The session's form (`pending`, `responses`)
is the model's: log 4. -/
def Obligations.StepRunsDecodedCommand : Prop :=
  (∀ (s : State) (w : Word) (i : Instr) (rest : List Access), s.pending = .wr32 0x04 w :: rest → decode w = .ok i →
    (∀ t, exec i { s with pending := rest } = .next t →
      step s = .next { t with responses := t.responses ++ [.accepted] }) ∧
    (∀ r, exec i { s with pending := rest } = .fault r → step s = .fault r)) ∧
  (∀ (s : State) (w : Word) (e : Illegal) (rest : List Access), s.pending = .wr32 0x04 w :: rest → decode w = .error e →
    ∃ st, step s = .next { s with pending := rest, status := st, responses := s.responses ++ [.accepted] }) ∧
  (∀ s : State, s.pending = [] → step s = .next s) ∧
  (∀ (s : State) (w : Word) (i : Instr), decode w = .ok i →
    step (s.withFetchWord 32 w.toNat) = accept (exec i s))

/-- R115: NOP. -/
def Obligations.NopResult : Prop :=
  encode .nop = 0x00000000 ∧ (∀ s : State, exec .nop s = .next { s with status := 0x00000000 }) ∧
  ∀ w : Word, opField w = 0x00 → w ≠ 0 → ∃ e, decode w = .error e

/-- R116: OUT_CLEAR: OUT_LEN becomes 0, and OBUF, the RLE state and all else stay. -/
def Obligations.OutClearResult : Prop :=
  encode .outClear = 0x00000001 ∧ ∀ s : State, exec .outClear s = .next { s with outLen := 0, status := 0x01000000 }

/-- R118, R253: SOFT_RESET gives power-on reset's register values but for LAST_OP, and keeps the buffers. -/
def Obligations.SoftResetResult : Prop :=
  encode .softReset = 0x00000002 ∧
  ∀ s : State, exec .softReset s = .next
    { State.resetWith s.cfg with
      status := 0x02000000, ibuf := s.ibuf, obuf := s.obuf, pending := s.pending, responses := s.responses }

/-- R112: a command that ends with a code other than OK has changed STATUS and nothing else. -/
def Obligations.RaisedStatusChangesOnlyStatus : Prop :=
  ∀ (w : Word) (s t : State), runCommand w s = .next t → statusCode t.status ≠ 0 → t = { s with status := t.status }

/-- R114: every command writes STATUS whole, as the sum of its fields, with w[7:0] as LAST_OP; IDX is 0 at a commit, and
the UTF-8 bits are 0 unless an FP_PARSE commits. -/
def Obligations.StatusWrittenWhole : Prop :=
  ∀ (w : Word) (s t : State), runCommand w s = .next t →
    ∃ code idx bad trail : Nat, code ≤ 6 ∧ idx ≤ 4 ∧ bad < 16 ∧ trail < 2 ∧
      t.status.toNat = code + idx * 2 ^ 8 + bad * 2 ^ 16 + trail * 2 ^ 20 + (opField w).toNat * 2 ^ 24 ∧
      (code = 0 → idx = 0) ∧ (opField w ≠ 0x30 ∨ code ≠ 0 → bad = 0 ∧ trail = 0)

/-- R231, which the spec derives from the rules of the commands: the codes each command can end with. That exec of an
FP_PARSE or FP_FRAME with K above 4, which no word decodes to, ends with ILLEGAL is the model's choice: log 9. -/
def Obligations.CodesOfEachCommand : Prop :=
  ∀ (i : Instr) (s t : State), exec i s = .next t →
    (statusCode t.status).toNat ∈
      (match i with
       | .nop => [0]
       | .outClear => [0]
       | .softReset => [0]
       | .rleInit => [0]
       | .rlePush _ => [0, 2]
       | .rleFlush => [0, 2]
       | .rlePushbuf => [0, 2]
       | .rleEncode => [0, 2]
       | .le32Enc => [0, 2]
       | .le32Dec => [0, 5]
       | .fpParse k _ => if k.toNat ≤ 4 then [0, 3, 4] else [1]
       | .fpFrame k _ => if k.toNat ≤ 4 then [0, 2, 6] else [1])

/-- R230: no command word and no state stop the block: with its input written, every word ends normally, with a status
code and its own OP byte in STATUS. -/
def Obligations.EveryWordEndsWithStatus : Prop :=
  ∀ (w : Word) (s : State), s.inputWritten →
    ∃ t, runCommand w s = .next t ∧ (statusCode t.status).toNat ≤ 6 ∧ statusLastOp t.status = opField w

/-- R236: a command faults exactly when it reads an unwritten IBUF byte. What each command reads is its pseudocode's
(for FP_PARSE the whole input before it is parsed: log 5). -/
def Obligations.UnwrittenReadExactly : Prop :=
  ∀ (i : Instr) (s : State), exec i s = .fault .unwrittenRead ↔ readsUnwritten i s

/-- The frame of every command (R27, R30, R31, R33, R34, R62): what it leaves alone whenever it gives a next state. The
last clause: a byte of OBUF below the old OUT_LEN, or not below the new one, reads as before. -/
def Obligations.FrameOfEveryCommand : Prop :=
  ∀ (i : Instr) (s t : State), exec i s = .next t →
    t.cfg = s.cfg ∧ (∀ a, t.ibuf.read a = s.ibuf.read a) ∧ t.pending = s.pending ∧ t.responses = s.responses ∧
    (i ≠ .softReset → t.inLen = s.inLen ∧ t.offset = s.offset) ∧
    (i ≠ .softReset → i ≠ .le32Dec → t.data = s.data) ∧
    (i ≠ .softReset → (∀ k l, i ≠ .fpParse k l) →
      t.trailOff = s.trailOff ∧ t.trailLen = s.trailLen ∧ t.fieldOff = s.fieldOff ∧ t.fieldLen = s.fieldLen) ∧
    (i ∉ [Instr.softReset, .rleInit, .rleFlush, .rlePushbuf, .rleEncode] → (∀ b, i ≠ .rlePush b) → t.rle = s.rle) ∧
    (i ∈ [Instr.nop, .rleInit, .le32Dec] ∨ (∃ k l, i = .fpParse k l) → t.outLen = s.outLen) ∧
    (∀ a, a < s.outLen.toNat ∨ t.outLen.toNat ≤ a → t.obuf.read a = s.obuf.read a)

/-- R121, which the spec derives from R110 to R113: no command's outcome depends on STATUS, on OBUF's bytes or on IBUF
at or above IN_LEN: two states that agree on the operands give the same fault, or the same status, registers and
appended bytes. -/
def Obligations.OutcomeDependsOnOperandsOnly : Prop :=
  ∀ (i : Instr) (s₁ s₂ : State), s₁.SameOperands s₂ →
    (exec i s₁ = .fault .unwrittenRead ↔ exec i s₂ = .fault .unwrittenRead) ∧
    ∀ t₁, exec i s₁ = .next t₁ → ∃ t₂, exec i s₂ = .next t₂ ∧ t₂.status = t₁.status ∧ t₁.SameOperands t₂ ∧
      ∀ a, s₁.outLen.toNat ≤ a → a < t₁.outLen.toNat → t₂.obuf.read a = t₁.obuf.read a

/-! ### The scalar codec (41_le32_codec.md) -/

/-- R132: both round trips; the second is the spec's inference from R130 and R131. -/
def Obligations.ScalarRoundTrips : Prop :=
  (∀ v : Word, dec32 (enc32 v) = some v) ∧ ∀ B : Bytes, B.length = 4 → (dec32 B).map enc32 = some B

/-- R136: LE32_ENC appends DATA's four bytes, the least significant first (R130's order, which the spec takes from
general knowledge: log 11), or raises OVERFLOW and changes nothing else. -/
def Obligations.Le32EncResult : Prop :=
  encode .le32Enc = 0x00000020 ∧ ∀ s : State,
    (s.outLen.toNat + 4 ≤ s.cfg.obufSize → ∃ t, exec .le32Enc s = .next t ∧
      s.Appends t [s.data.extractLsb' 0 8, s.data.extractLsb' 8 8, s.data.extractLsb' 16 8, s.data.extractLsb' 24 8] ∧
      t.status = 0x20000000 ∧ t.rle = s.rle ∧ s.SameButOutput t) ∧
    (s.cfg.obufSize < s.outLen.toNat + 4 → exec .le32Enc s = .next { s with status := 0x20000002 })

/-- R137: LE32_DEC decodes the four input bytes at OFFSET (by R131's sum, which the spec takes from general knowledge:
log 11), or raises SHORT_DATA; nothing else changes. The form with an unwritten byte is in UnwrittenReadExactly. -/
def Obligations.Le32DecResult : Prop :=
  encode .le32Dec = 0x00000021 ∧ ∀ s : State,
    (∀ b₀ b₁ b₂ b₃ : Byte, s.offset.toNat + 4 ≤ s.inLen.toNat →
      s.ibuf.read s.offset.toNat = some b₀ → s.ibuf.read (s.offset.toNat + 1) = some b₁ →
      s.ibuf.read (s.offset.toNat + 2) = some b₂ → s.ibuf.read (s.offset.toNat + 3) = some b₃ →
      exec .le32Dec s = .next
        { s with
          data := BitVec.ofNat 32 (b₀.toNat + 2 ^ 8 * b₁.toNat + 2 ^ 16 * b₂.toNat + 2 ^ 24 * b₃.toNat)
          status := 0x21000000 }) ∧
    (s.inLen.toNat < s.offset.toNat + 4 → exec .le32Dec s = .next { s with status := 0x21000005 })

/-! ### The run-length encoder (42_rle.md) -/

/-- R151, R152: the step and the flush, branch by branch. -/
def Obligations.RleStepAndFlush : Prop :=
  (∀ (value count b : Byte), rleStep ⟨false, value, count⟩ b = (⟨true, b, 1⟩, [])) ∧
  (∀ (value count : Byte), count.toNat < 255 →
    ∃ count', count'.toNat = count.toNat + 1 ∧ rleStep ⟨true, value, count⟩ value = (⟨true, value, count'⟩, [])) ∧
  (∀ value : Byte, rleStep ⟨true, value, 255⟩ value = (⟨true, value, 1⟩, [255, value])) ∧
  (∀ (value count b : Byte), b ≠ value → rleStep ⟨true, value, count⟩ b = (⟨true, b, 1⟩, [count, value])) ∧
  (∀ (value count : Byte), rleFlush ⟨true, value, count⟩ = (⟨false, 0, 0⟩, [count, value])) ∧
  (∀ (value count : Byte), rleFlush ⟨false, value, count⟩ = (⟨false, 0, 0⟩, []))

/-- R155: RLE_INIT discards the open run and emits nothing. -/
def Obligations.RleInitResult : Prop :=
  encode .rleInit = 0x00000010 ∧
  ∀ s : State, exec .rleInit s = .next { s with rle := ⟨false, 0, 0⟩, status := 0x10000000 }

/-- R156: RLE_PUSH takes one step and appends what it emits, or raises OVERFLOW with the run unchanged. -/
def Obligations.RlePushResult : Prop :=
  ∀ (b : Byte) (s : State),
    (encode (.rlePush b)).toNat = 0x11 + b.toNat * 2 ^ 8 ∧
    (s.fits (rleStep s.rle b).2 → ∃ t, exec (.rlePush b) s = .next t ∧ s.Appends t (rleStep s.rle b).2 ∧
      t.rle = (rleStep s.rle b).1 ∧ t.status = 0x11000000 ∧ s.SameButOutput t) ∧
    (¬ s.fits (rleStep s.rle b).2 → exec (.rlePush b) s = .next { s with status := 0x11000002 })

/-- R157: RLE_FLUSH emits the open run, if any, and is idle; or raises OVERFLOW with the run open. -/
def Obligations.RleFlushResult : Prop :=
  encode .rleFlush = 0x00000012 ∧ ∀ s : State,
    (s.rle.valid = true → s.outLen.toNat + 2 ≤ s.cfg.obufSize → ∃ t, exec .rleFlush s = .next t ∧
      s.Appends t [s.rle.count, s.rle.value] ∧ t.rle = ⟨false, 0, 0⟩ ∧ t.status = 0x12000000 ∧ s.SameButOutput t) ∧
    (s.rle.valid = true → s.cfg.obufSize < s.outLen.toNat + 2 →
      exec .rleFlush s = .next { s with status := 0x12000002 }) ∧
    (s.rle.valid = false → exec .rleFlush s = .next { s with rle := ⟨false, 0, 0⟩, status := 0x12000000 })

/-- R158: RLE_PUSHBUF steps through the input in index order and leaves the last run open. -/
def Obligations.RlePushbufResult : Prop :=
  encode .rlePushbuf = 0x00000013 ∧
  ∀ (s : State) (B : Bytes), B.length = s.inLen.toNat → (∀ j, j < B.length → s.ibuf.read j = B[j]?) →
    (s.fits (rleRun s.rle B).2 → ∃ t, exec .rlePushbuf s = .next t ∧ s.Appends t (rleRun s.rle B).2 ∧
      t.rle = (rleRun s.rle B).1 ∧ t.status = 0x13000000 ∧ s.SameButOutput t) ∧
    (¬ s.fits (rleRun s.rle B).2 → exec .rlePushbuf s = .next { s with status := 0x13000002 })

/-- R159: RLE_ENCODE steps through the input, flushes, and is idle; from idle it emits rle of the input, which is the
spec's inference from R153 and R159. -/
def Obligations.RleEncodeResult : Prop :=
  encode .rleEncode = 0x00000014 ∧
  ∀ (s : State) (B : Bytes), B.length = s.inLen.toNat → (∀ j, j < B.length → s.ibuf.read j = B[j]?) →
    (s.fits ((rleRun s.rle B).2 ++ (rleFlush (rleRun s.rle B).1).2) → ∃ t, exec .rleEncode s = .next t ∧
      s.Appends t ((rleRun s.rle B).2 ++ (rleFlush (rleRun s.rle B).1).2) ∧
      (s.rle = ⟨false, 0, 0⟩ → s.Appends t (rle B)) ∧
      t.rle = ⟨false, 0, 0⟩ ∧ t.status = 0x14000000 ∧ s.SameButOutput t) ∧
    (¬ s.fits ((rleRun s.rle B).2 ++ (rleFlush (rleRun s.rle B).1).2) →
      exec .rleEncode s = .next { s with status := 0x14000002 })

/-- R160 items 1 and 3, which the spec derives from R151 to R153: decoding the output gives the input
back, and empty input gives empty output. -/
def Obligations.RleRoundTrip : Prop :=
  rle [] = [] ∧ ∀ B : Bytes, rleDecode (rle B) = some B

/-- R154, with R160 items 2 and 4, which the spec derives from R151 to R153: the output is a concatenation of (count,
value) pairs, its length is even, every count lies in [1, 255], and two neighbours share a value only after a full
run. -/
def Obligations.RlePairsWellFormed : Prop :=
  ∀ B : Bytes, (rle B).length % 2 = 0 ∧ ∃ pairs : List (Byte × Byte),
    rle B = pairs.flatMap (fun p => [p.1, p.2]) ∧ (∀ p ∈ pairs, 1 ≤ p.1.toNat ∧ p.1.toNat ≤ 255) ∧
    ∀ j p q, pairs[j]? = some p → pairs[j + 1]? = some q → p.2 = q.2 → p.1 = 255

/-- R160 item 5, which the spec derives from R151 to R153, with R162: n equal bytes give floor(n/255) full runs and
then the rest. -/
def Obligations.RleOfRepeatedByte : Prop :=
  ∀ (v : Byte) (n : Nat), 1 ≤ n →
    rle (List.replicate n v) = (List.replicate (n / 255) [255, v]).flatten ++
      (if n % 255 = 0 then [] else [BitVec.ofNat 8 (n % 255), v])

/-- R160 item 6, which the spec derives from R151 to R153: the number of pairs is the sum of ceil(m/255) over the
maximal blocks of equal bytes. -/
def Obligations.RlePairCount : Prop :=
  ∀ B : Bytes, (rle B).length = 2 * ((B.splitBy (· == ·)).map fun g => (g.length + 254) / 255).sum

/-- R161, which the spec derives from R151, R158 and R159: the output does not depend on where the input is cut. -/
def Obligations.RleStreaming : Prop :=
  (∀ (s₁ s₂ s₃ s₄ : State) (B₁ B₂ : Bytes), s₁.rle = ⟨false, 0, 0⟩ → inputBytes s₁ = some B₁ →
    exec .rlePushbuf s₁ = .next s₂ → statusCode s₂.status = 0 →
    s₃.rle = s₂.rle → s₃.outLen = s₂.outLen → s₃.cfg = s₂.cfg → (∀ a, s₃.obuf.read a = s₂.obuf.read a) →
    inputBytes s₃ = some B₂ → exec .rleEncode s₃ = .next s₄ → statusCode s₄.status = 0 →
    s₁.Appends s₄ (rle (B₁ ++ B₂)) ∧ s₄.rle = ⟨false, 0, 0⟩) ∧
  (∀ (B : Bytes) (s t : State), s.rle = ⟨false, 0, 0⟩ →
    commandsOk (B.map .rlePush ++ [.rleFlush]) s = some t → s.Appends t (rle B) ∧ t.rle = ⟨false, 0, 0⟩)

/-- R163, which the spec derives from R151, R152 and R156 to R159: the bytes each command commits, and the room that
keeps RLE_ENCODE from OVERFLOW. -/
def Obligations.RleOutputSize : Prop :=
  (∀ (r : RleState) (b : Byte), (rleStep r b).2.length = 0 ∨ (rleStep r b).2.length = 2) ∧
  (∀ (r : RleState) (B : Bytes), (rleRun r B).2.length % 2 = 0 ∧ (rleRun r B).2.length ≤ 2 * B.length ∧
    (rleRunFlush r B).2.length = (rleRun r B).2.length + (if (rleRun r B).1.valid then 2 else 0)) ∧
  ∀ s : State, s.inputWritten → s.outLen.toNat + (2 * s.inLen.toNat + 2) ≤ s.cfg.obufSize →
    ∃ t, exec .rleEncode s = .next t ∧ statusCode t.status = 0

/-! ### UTF-8, the parser and the framer (43_framing.md) -/

/-- R181: valid means a concatenation of well-formed sequences, whose table the spec marks "from general knowledge,
not in source" (log 12). -/
def Obligations.Utf8ValidExactly : Prop :=
  ∀ B : Bytes, utf8Valid B = true ↔ ∃ qs : List Bytes, B = qs.flatten ∧ ∀ q ∈ qs, Utf8Sequence q

/-- R182, which the spec derives from R181 (log 12): the empty field is valid; C0, C1 and F5 to FF occur in no valid
text; a sequence cut by a boundary is invalid on both sides of it. -/
def Obligations.Utf8Consequences : Prop :=
  utf8Valid [] = true ∧
  (∀ B : Bytes, utf8Valid B = true → ∀ b ∈ B, b ≠ 0xC0 ∧ b ≠ 0xC1 ∧ b.toNat < 0xF5) ∧
  (∀ A x y C : Bytes, utf8Valid A = true → Utf8Sequence (x ++ y) → x ≠ [] → y ≠ [] →
    utf8Valid (A ++ x) = false ∧ utf8Valid (y ++ C) = false)

/-- R186, which the spec derives from R184 and R185: no prefixed field, and one prefixed field, where the layouts
coincide; a declared length of 0xFFFF_FFFF. -/
def Obligations.ParseSmallCases : Prop :=
  (∀ (B : Bytes) (layout : Layout), parse B 0 layout = .ok [] 0 B.length) ∧
  (∀ (B : Bytes) (layout : Layout), B.length < 4 → parse B 1 layout = .shortPrefix 0) ∧
  (∀ (b₀ b₁ b₂ b₃ : Byte) (R : Bytes) (layout : Layout) (l : Nat),
    l = b₀.toNat + 2 ^ 8 * b₁.toNat + 2 ^ 16 * b₂.toNat + 2 ^ 24 * b₃.toNat →
    (R.length < l → parse (b₀ :: b₁ :: b₂ :: b₃ :: R) 1 layout = .shortField 0) ∧
    (l ≤ R.length → parse (b₀ :: b₁ :: b₂ :: b₃ :: R) 1 layout = .ok [(4, l)] (4 + l) (R.length - l))) ∧
  (∀ (R : Bytes) (layout : Layout), R.length ≤ 2 ^ 30 → parse (0xFF :: 0xFF :: 0xFF :: 0xFF :: R) 1 layout = .shortField 0)

/-- R184: GROUPED reports ShortPrefix(i) exactly when prefix i is the first that does not fit, whatever the lengths
declare; and, when all prefixes fit, ShortField(i) exactly when field i is the first whose declared length does not fit
behind the fields before it, and otherwise the fields of those lengths. -/
def Obligations.GroupedParseShortOutcomes : Prop :=
  (∀ (B : Bytes) (k i : Nat), parse B k .grouped = .shortPrefix i ↔ i < k ∧ 4 * i ≤ B.length ∧ B.length < 4 * i + 4) ∧
  (∀ (B : Bytes) (k : Nat) (lens : List Nat), lens.length = k → (∀ i, i < k → prefixAt B (4 * i) = lens[i]?) →
    (∀ i, parse B k .grouped = .shortField i ↔
      i < k ∧ 4 * k + (lens.take i).sum ≤ B.length ∧ B.length < 4 * k + (lens.take (i + 1)).sum) ∧
    (4 * k + lens.sum ≤ B.length → ∃ fields,
      parse B k .grouped = .ok fields (4 * k + lens.sum) (B.length - (4 * k + lens.sum)) ∧ fields.map (·.2) = lens))

/-- R185: INTERLEAVED reports ShortPrefix(i) exactly when the i fields before fit and fewer than 4 bytes are left
behind them, ShortField(i) exactly when prefix i is there and declares more bytes than are left behind it, and the
fields when all k fit. -/
def Obligations.InterleavedParseOutcomes : Prop :=
  ∀ (B : Bytes) (k : Nat),
    (∀ i, parse B k .interleaved = .shortPrefix i ↔
      i < k ∧ ∃ lens, lens.length = i ∧ interleavedFits B lens ∧ B.length < interleavedStart lens + 4) ∧
    (∀ i, parse B k .interleaved = .shortField i ↔
      i < k ∧ ∃ lens len, lens.length = i ∧ interleavedFits B lens ∧ prefixAt B (interleavedStart lens) = some len ∧
        B.length < interleavedStart lens + 4 + len) ∧
    (∀ lens, lens.length = k → interleavedFits B lens → ∃ fields,
      parse B k .interleaved = .ok fields (interleavedStart lens) (B.length - interleavedStart lens) ∧
        fields.map (·.2) = lens)

/-- R188, which the spec derives from R184 and R185: a successful parse gives k fields inside the buffer, in
increasing order and disjoint, and the trailer to its end; prefixes, fields and trailer make up the whole length. -/
def Obligations.ParsedFieldsFit : Prop :=
  ∀ (B : Bytes) (k : Nat) (layout : Layout) (fields : List (Nat × Nat)) (toff tlen : Nat),
    parse B k layout = .ok fields toff tlen →
    fields.length = k ∧ (∀ f ∈ fields, f.1 + f.2 ≤ toff ∧ f.1 + f.2 ≤ B.length) ∧
    fields.Pairwise (fun f g => f.1 + f.2 ≤ g.1) ∧ toff + tlen = B.length ∧
    4 * k + (fields.map (·.2)).sum + tlen = B.length

/-- R191, which the spec derives from R184, R185, R188 and R190: parsing a framed buffer gives the fields back,
and framing what was parsed gives the buffer back. -/
def Obligations.ParseFrameRoundTrips : Prop :=
  (∀ (F : List Bytes) (T : Bytes) (layout : Layout), F.length ≤ 4 → (∀ f ∈ F, f.length ≤ 2 ^ 32 - 1) →
    ∃ fields toff tlen, parse (frame F T layout) F.length layout = .ok fields toff tlen ∧
      fields.map (·.2) = F.map List.length ∧ fields.map (fun f => slice (frame F T layout) f.1 f.2) = F ∧
      slice (frame F T layout) toff tlen = T) ∧
  (∀ (B : Bytes) (k : Nat) (layout : Layout) (fields : List (Nat × Nat)) (toff tlen : Nat), k ≤ 4 →
    parse B k layout = .ok fields toff tlen →
    frame (fields.map fun f => slice B f.1 f.2) (slice B toff tlen) layout = B)

/-- R193 to R196: FP_PARSE writes the four field pairs (0 beyond k), the trailer and the UTF-8 report, or raises
SHORT_PREFIX or SHORT_FIELD with the field's index and changes STATUS only; a word with OP 0x30 and K above 4, or a
nonzero IMM8 or RSV, is ILLEGAL and changes STATUS only. -/
def Obligations.FpParseResult : Prop :=
  (∀ (k : BitVec 3) (layout : Layout), (encode (.fpParse k layout)).toNat
    = 0x30 + k.toNat * 2 ^ 16 + (match layout with | .grouped => 0 | .interleaved => 1) * 2 ^ 19) ∧
  (∀ (w : Word) (s : State), opField w = 0x30 → 5 ≤ (kField w).toNat ∨ imm8Field w ≠ 0 ∨ rsvField w ≠ 0 →
    runCommand w s = .next { s with status := 0x30000001 }) ∧
  ∀ (k : BitVec 3) (layout : Layout) (s : State) (B : Bytes), k.toNat ≤ 4 →
    B.length = s.inLen.toNat → (∀ j, j < B.length → s.ibuf.read j = B[j]?) →
    (∀ fields toff tlen, parse B k.toNat layout = .ok fields toff tlen → ∃ t, exec (.fpParse k layout) s = .next t ∧
      [t.fieldOff.r0, t.fieldOff.r1, t.fieldOff.r2, t.fieldOff.r3].map BitVec.toNat
        = fields.map (·.1) ++ List.replicate (4 - k.toNat) 0 ∧
      [t.fieldLen.r0, t.fieldLen.r1, t.fieldLen.r2, t.fieldLen.r3].map BitVec.toNat
        = fields.map (·.2) ++ List.replicate (4 - k.toNat) 0 ∧
      t.trailOff.toNat = toff ∧ t.trailLen.toNat = tlen ∧
      statusCode t.status = 0 ∧ statusIdx t.status = 0 ∧ statusLastOp t.status = 0x30 ∧
      (∀ i, (statusUtf8Bad t.status).getLsbD i = true ↔
        ∃ f, fields[i]? = some f ∧ utf8Valid (slice B f.1 f.2) = false) ∧
      (statusUtf8BadTrail t.status = 1 ↔ utf8Valid (slice B toff tlen) = false) ∧ s.SameButParse t) ∧
    (∀ i, parse B k.toNat layout = .shortPrefix i →
      exec (.fpParse k layout) s = .next { s with status := BitVec.ofNat 32 (0x30000003 + i * 0x100) }) ∧
    (∀ i, parse B k.toNat layout = .shortField i →
      exec (.fpParse k layout) s = .next { s with status := BitVec.ofNat 32 (0x30000004 + i * 0x100) })

/-- R200, R201: FP_FRAME checks the regions i < k in order and then the trailer, reports the first out of range, and
otherwise appends the framed buffer of the regions' bytes, or raises OVERFLOW; a word with OP 0x31 and K above 4, or a
nonzero IMM8 or RSV, is ILLEGAL and changes STATUS only. -/
def Obligations.FpFrameResult : Prop :=
  (∀ (k : BitVec 3) (layout : Layout), (encode (.fpFrame k layout)).toNat
    = 0x31 + k.toNat * 2 ^ 16 + (match layout with | .grouped => 0 | .interleaved => 1) * 2 ^ 19) ∧
  (∀ (w : Word) (s : State), opField w = 0x31 → 5 ≤ (kField w).toNat ∨ imm8Field w ≠ 0 ∨ rsvField w ≠ 0 →
    runCommand w s = .next { s with status := 0x31000001 }) ∧
  ∀ (k : BitVec 3) (layout : Layout) (s : State), k.toNat ≤ 4 →
    (∀ i r, (fieldRegions k.toNat s)[i]? = some r → s.inLen.toNat < r.1 + r.2 →
      (∀ j q, j < i → (fieldRegions k.toNat s)[j]? = some q → q.1 + q.2 ≤ s.inLen.toNat) →
      exec (.fpFrame k layout) s = .next { s with status := BitVec.ofNat 32 (0x31000006 + i * 0x100) }) ∧
    ((∀ r ∈ fieldRegions k.toNat s, r.1 + r.2 ≤ s.inLen.toNat) →
      (s.inLen.toNat < s.trailOff.toNat + s.trailLen.toNat →
        exec (.fpFrame k layout) s = .next { s with status := 0x31000406 }) ∧
      (s.trailOff.toNat + s.trailLen.toNat ≤ s.inLen.toNat →
        ∀ (F : List Bytes) (T : Bytes),
          F.map some = (fieldRegions k.toNat s).map (fun r => s.ibuf.readBytes r.1 r.2) →
          some T = s.ibuf.readBytes s.trailOff.toNat s.trailLen.toNat →
          (s.fits (frame F T layout) → ∃ t, exec (.fpFrame k layout) s = .next t ∧ s.Appends t (frame F T layout) ∧
            t.status = 0x31000000 ∧ t.rle = s.rle ∧ s.SameButOutput t) ∧
          (¬ s.fits (frame F T layout) → exec (.fpFrame k layout) s = .next { s with status := 0x31000002 })))

/-- R202, which the spec derives from R191, R194 and R201: after a successful FP_PARSE, FP_FRAME with the
same operands appends the whole input again. -/
def Obligations.FrameAfterParseCopiesInput : Prop :=
  ∀ (k : BitVec 3) (layout : Layout) (s t : State) (B : Bytes), inputBytes s = some B →
    exec (.fpParse k layout) s = .next t → statusCode t.status = 0 → t.outLen.toNat + B.length ≤ t.cfg.obufSize →
    ∃ u, exec (.fpFrame k layout) t = .next u ∧ statusCode u.status = 0 ∧ t.Appends u B

/-- R215, R216: the match profile answers 0 or 1 in four bytes for every buffer: 0 on each of the five fallbacks, with
the parser outcome each stands for, and otherwise what the engine says. -/
def Obligations.MatchProfileFallbacks : Prop :=
  ∀ (e : RegexEngine) (B : Bytes),
    (matchOut e B = [0, 0, 0, 0] ∨ matchOut e B = [1, 0, 0, 0]) ∧
    (B.length < 4 → parse B 1 .grouped = .shortPrefix 0 ∧ matchOut e B = [0, 0, 0, 0]) ∧
    (∀ plen, prefixAt B 0 = some plen →
      (B.length < 4 + plen → parse B 1 .grouped = .shortField 0 ∧ matchOut e B = [0, 0, 0, 0]) ∧
      (4 + plen ≤ B.length →
        parse B 1 .grouped = .ok [(4, plen)] (4 + plen) (B.length - (4 + plen)) ∧
        (utf8Valid (slice B 4 plen) = false ∨ utf8Valid (B.drop (4 + plen)) = false ∨
            (e.compile (slice B 4 plen)).isNone = true →
          matchOut e B = [0, 0, 0, 0]) ∧
        (∀ re, utf8Valid (slice B 4 plen) = true → utf8Valid (B.drop (4 + plen)) = true →
          e.compile (slice B 4 plen) = some re →
          matchOut e B = if e.isMatch re (B.drop (4 + plen)) then [1, 0, 0, 0] else [0, 0, 0, 0])))

/-- R217 to R219: the replace profile, condition by condition, with the parser outcome each stands for (R218's sentence,
which the spec derives from R184). That the partial echo is empty is R219, which the spec derives too: log 13. -/
def Obligations.ReplaceProfileFallbacks : Prop :=
  ∀ (e : RegexEngine) (B : Bytes),
    (B.length < 8 → parse B 2 .grouped = .shortPrefix (B.length / 4) ∧ replaceOut e B = B) ∧
    (∀ plen rlen, prefixAt B 0 = some plen → prefixAt B 4 = some rlen →
      (B.length < 8 + plen + rlen →
        (parse B 2 .grouped = .shortField 0 ∨ parse B 2 .grouped = .shortField 1) ∧
        replaceOut e B = B.drop (min (8 + plen + rlen) B.length) ∧ replaceOut e B = []) ∧
      (8 + plen + rlen ≤ B.length →
        parse B 2 .grouped
          = .ok [(8, plen), (8 + plen, rlen)] (8 + plen + rlen) (B.length - (8 + plen + rlen)) ∧
        (utf8Valid (slice B 8 plen) = false ∨ utf8Valid (slice B (8 + plen) rlen) = false ∨
            utf8Valid (B.drop (8 + plen + rlen)) = false ∨ (e.compile (slice B 8 plen)).isNone = true →
          replaceOut e B = B.drop (8 + plen + rlen)) ∧
        (∀ re, utf8Valid (slice B 8 plen) = true → utf8Valid (slice B (8 + plen) rlen) = true →
          utf8Valid (B.drop (8 + plen + rlen)) = true → e.compile (slice B 8 plen) = some re →
          replaceOut e B = e.replaceAll re (slice B (8 + plen) rlen) (B.drop (8 + plen + rlen)))))

/-- R214: what the four facts of the source fix: its match, no-match, replace and bad-pattern examples. -/
def Obligations.SourceExamplesOfProfiles : Prop :=
  ∀ e : RegexEngine, e.MeetsExamples →
    matchOut e [0x02, 0, 0, 0, 0x61, 0x2B, 0x62, 0x61, 0x61, 0x61, 0x62] = [1, 0, 0, 0] ∧
    matchOut e [0x02, 0, 0, 0, 0x7A, 0x2B, 0x62, 0x61, 0x61, 0x61, 0x62] = [0, 0, 0, 0] ∧
    replaceOut e [1, 0, 0, 0, 1, 0, 0, 0, 0x61, 0x58, 0x62, 0x61, 0x6E, 0x61, 0x6E, 0x61]
      = [0x62, 0x58, 0x6E, 0x58, 0x6E, 0x58] ∧
    replaceOut e [1, 0, 0, 0, 0, 0, 0, 0, 0x28, 0x68, 0x65, 0x6C, 0x6C, 0x6F] = [0x68, 0x65, 0x6C, 0x6C, 0x6F]

/-- R221, which the spec derives from R194, R215 and R136: the host sequence FP_PARSE, regex step, LE32_ENC on the
block appends match_out of the input. -/
def Obligations.MatchSequenceOnBlock : Prop :=
  ∀ (e : RegexEngine) (s : State) (B : Bytes), inputBytes s = some B → s.outLen.toNat + 4 ≤ s.cfg.obufSize →
    ∃ t u, exec (.fpParse 1 .grouped) s = .next t ∧
      exec .le32Enc
        { t with
          data := matchSequenceValue e t.status (slice B t.fieldOff.r0.toNat t.fieldLen.r0.toNat)
            (slice B t.trailOff.toNat t.trailLen.toNat) } = .next u ∧
      statusCode u.status = 0 ∧ s.Appends u (matchOut e B)

/-! ### The host interface (10_state.md, 20_memory.md) -/

/-- R66, R67: which accesses are bus errors, and that one changes no state of the block. That the answer is recorded
in `responses` is the model's form of "records the bus error in the session's observation", and that the machine goes
on is its reading: log 6. -/
def Obligations.BusErrorsExactly : Prop :=
  ∀ (a : Access) (s : State), isBusError s.cfg a ↔
    serve a s = .next { s with responses := s.responses ++ [.busError] }

/-- R68: a read changes nothing but the answer it gives, and the same read again gives the same answer. -/
def Obligations.ReadsHaveNoSideEffects : Prop :=
  ∀ (addr : Word) (s t : State), ∀ a ∈ [Access.rd8 addr, .rd16 addr, .rd32 addr], serve a s = .next t →
    ∃ r, t = { s with responses := s.responses ++ [r] } ∧
      serve a t = .next { t with responses := t.responses ++ [r] }

/-- R22 to R24, R31, R32: what a host read of each register returns. -/
def Obligations.RegisterReads : Prop :=
  ∀ (s : State) (p : Word × Word),
    p ∈ [((0x00 : Word), s.cfg.idValue), (0x04, 0), (0x08, s.status), (0x0C, s.inLen), (0x10, s.outLen), (0x14, s.data),
        (0x18, s.offset), (0x1C, 0#15 ++ BitVec.ofBool s.rle.valid ++ s.rle.count ++ s.rle.value),
        (0x20, BitVec.ofNat 32 s.cfg.ibufSize), (0x24, BitVec.ofNat 32 s.cfg.obufSize),
        (0x28, s.trailOff), (0x2C, s.trailLen), (0x30, s.fieldOff.r0), (0x34, s.fieldOff.r1), (0x38, s.fieldOff.r2),
        (0x3C, s.fieldOff.r3), (0x40, s.fieldLen.r0), (0x44, s.fieldLen.r1), (0x48, s.fieldLen.r2),
        (0x4C, s.fieldLen.r3)] →
    serve (.rd32 p.1) s = .next { s with responses := s.responses ++ [.word p.2] }

/-- R36, R27: a RW register stores all 32 bits and reads them back, with every other register unchanged; IN_LEN alone is
clamped; the reserved bits of STATUS and RLE_STATE read 0. -/
def Obligations.RegisterWritesReadBack : Prop :=
  (∀ r ∈ [Reg.data, .offset, .trailOff, .trailLen, .fieldOff0, .fieldOff1, .fieldOff2, .fieldOff3, .fieldLen0,
      .fieldLen1, .fieldLen2, .fieldLen3], ∀ (s : State) (v : Word),
    ∃ t, serve (wrReg r v) s = .next t ∧ serve (rdReg r) t = .next { t with responses := t.responses ++ [.word v] } ∧
      (∀ q, q ≠ r → readReg t q = readReg s q) ∧ t.cfg = s.cfg ∧ t.rle = s.rle ∧
      (∀ a, t.ibuf.read a = s.ibuf.read a ∧ t.obuf.read a = s.obuf.read a) ∧ t.pending = s.pending ∧
      t.responses = s.responses ++ [.accepted]) ∧
  (∀ (s : State) (v : Word), ∃ t, serve (wrReg .inLen v) s = .next t ∧
      t = { s with inLen := t.inLen, responses := s.responses ++ [.accepted] } ∧
      t.inLen.toNat = min v.toNat s.cfg.ibufSize) ∧
  (∀ s : State, s.Legal → statusReserved (readReg s .status) = 0 ∧
      (readReg s .rleState).extractLsb' 17 15 = 0)

/-- R61, R62, R236: an 8-bit read of a buffer returns the byte last stored there, below OUT_LEN or not, and faults where
none was; an 8-bit write of IBUF stores that byte and nothing else. -/
def Obligations.HostByteAccess : Prop :=
  ∀ (s : State) (i : Nat),
    (i < s.cfg.ibufSize →
      (∀ b, s.ibuf.read i = some b → serve (.rd8 (BitVec.ofNat 32 (0x40000000 + i))) s
        = .next { s with responses := s.responses ++ [.byte b] }) ∧
      (s.ibuf.read i = none → serve (.rd8 (BitVec.ofNat 32 (0x40000000 + i))) s = .fault .unwrittenRead) ∧
      (∀ b, ∃ t, serve (.wr8 (BitVec.ofNat 32 (0x40000000 + i)) b) s = .next t ∧
        t = { s with ibuf := t.ibuf, responses := s.responses ++ [.accepted] } ∧
        t.ibuf.read i = some b ∧ ∀ a, a ≠ i → t.ibuf.read a = s.ibuf.read a)) ∧
    (i < s.cfg.obufSize →
      (∀ b, s.obuf.read i = some b → serve (.rd8 (BitVec.ofNat 32 (0x80000000 + i))) s
        = .next { s with responses := s.responses ++ [.byte b] }) ∧
      (s.obuf.read i = none → serve (.rd8 (BitVec.ofNat 32 (0x80000000 + i))) s = .fault .unwrittenRead))

/-- R65, R236: a 32-bit access moves four bytes as one little-endian word (numeric definition: log 11), and a read of a
word with an unwritten byte faults. -/
def Obligations.WordAccessLittleEndian : Prop :=
  ∀ (s : State) (i : Nat), i % 4 = 0 →
    (∀ b₀ b₁ b₂ b₃ : Byte,
      (i + 4 ≤ s.cfg.ibufSize → s.ibuf.readBytes i 4 = some [b₀, b₁, b₂, b₃] →
        serve (.rd32 (BitVec.ofNat 32 (0x40000000 + i))) s = .next
          { s with responses := s.responses ++
            [.word (BitVec.ofNat 32 (b₀.toNat + 2 ^ 8 * b₁.toNat + 2 ^ 16 * b₂.toNat + 2 ^ 24 * b₃.toNat))] }) ∧
      (i + 4 ≤ s.cfg.obufSize → s.obuf.readBytes i 4 = some [b₀, b₁, b₂, b₃] →
        serve (.rd32 (BitVec.ofNat 32 (0x80000000 + i))) s = .next
          { s with responses := s.responses ++
            [.word (BitVec.ofNat 32 (b₀.toNat + 2 ^ 8 * b₁.toNat + 2 ^ 16 * b₂.toNat + 2 ^ 24 * b₃.toNat))] })) ∧
    (i + 4 ≤ s.cfg.ibufSize → (∃ j, j < 4 ∧ s.ibuf.written (i + j) = false) →
      serve (.rd32 (BitVec.ofNat 32 (0x40000000 + i))) s = .fault .unwrittenRead) ∧
    (i + 4 ≤ s.cfg.obufSize → (∃ j, j < 4 ∧ s.obuf.written (i + j) = false) →
      serve (.rd32 (BitVec.ofNat 32 (0x80000000 + i))) s = .fault .unwrittenRead) ∧
    (∀ w : Word, i + 4 ≤ s.cfg.ibufSize → ∃ t, serve (.wr32 (BitVec.ofNat 32 (0x40000000 + i)) w) s = .next t ∧
      t = { s with ibuf := t.ibuf, responses := s.responses ++ [.accepted] } ∧
      t.ibuf.readBytes i 4
        = some [w.extractLsb' 0 8, w.extractLsb' 8 8, w.extractLsb' 16 8, w.extractLsb' 24 8] ∧
      ∀ a, a < i ∨ i + 4 ≤ a → t.ibuf.read a = s.ibuf.read a)

/-- R76, which the spec derives from R65: both widths act on the same stored bytes. -/
def Obligations.MixedWidthAccess : Prop :=
  (∀ (s t u : State) (j : Nat) (b : Byte) (w : Word), j < s.cfg.ibufSize →
    serve (.wr8 (BitVec.ofNat 32 (0x40000000 + j)) b) s = .next t →
    serve (.rd32 (BitVec.ofNat 32 (0x40000000 + 4 * (j / 4)))) t = .next u →
    u.responses = t.responses ++ [.word w] → w.extractLsb' (8 * (j % 4)) 8 = b) ∧
  (∀ (s t : State) (i m : Nat) (w : Word), i % 4 = 0 → i + 4 ≤ s.cfg.ibufSize → m < 4 →
    serve (.wr32 (BitVec.ofNat 32 (0x40000000 + i)) w) s = .next t →
    serve (.rd8 (BitVec.ofNat 32 (0x40000000 + (i + m)))) t = .next
      { t with responses := t.responses ++ [.byte (w.extractLsb' (8 * m) 8)] })

/-- R100, R254: the pseudo-instruction `load` makes its bytes the input, whatever the state, and touches nothing else.
-/
def Obligations.LoadMakesInput : Prop :=
  ∀ (s : State) (B : Bytes), s.pending = load B → B.length ≤ s.cfg.ibufSize →
    ∃ t : State, Sys2Proof.core.run (B.length + 1) s = .next t ∧ inputBytes t = some B ∧
      (∀ a, B.length ≤ a → t.ibuf.read a = s.ibuf.read a) ∧
      t = { s with
        ibuf := t.ibuf, inLen := BitVec.ofNat 32 B.length, pending := []
        responses := s.responses ++ List.replicate (B.length + 1) .accepted }

/-- R99, R260: whatever a host decides as it goes, its run is the run of the fixed sequence of accesses it issued. The
form of a host program is the model's: log 15. -/
def Obligations.AdaptiveHostRunsAreSessions : Prop :=
  ∀ (h : HostProgram) (n : Nat) (s t : State), s.pending = [] → runHostProgram h n s = .next t →
    ∃ as : List Access, as.length ≤ n ∧ Sys2Proof.core.run as.length (s.withPending as) = .next t

/-! ### Reset and invariants -/

/-- R250: power-on reset. -/
def Obligations.PowerOnResetValues : Prop :=
  ∀ c : Config,
    (∀ r ∈ [Reg.status, .inLen, .outLen, .data, .offset, .rleState, .trailOff, .trailLen, .fieldOff0, .fieldOff1,
        .fieldOff2, .fieldOff3, .fieldLen0, .fieldLen1, .fieldLen2, .fieldLen3],
      readReg (State.resetWith c) r = 0) ∧
    readReg (State.resetWith c) .id = c.idValue ∧
    (readReg (State.resetWith c) .ibufCap).toNat = c.ibufSize ∧
    (readReg (State.resetWith c) .obufCap).toNat = c.obufSize ∧
    ∀ i, (State.resetWith c).ibuf.written i = false ∧ (State.resetWith c).obuf.written i = false

/-- R237: a configuration with a size outside [1, 2^30] or K_MAX ≠ 4 is refused, and any other is the reset state with
those sizes. -/
def Obligations.BadConfigurationsRefused : Prop :=
  ∀ (isize osize kMax : Nat) (idValue : Word),
    (powerOn isize osize kMax idValue = .refused .badConfiguration ↔
      ¬ (1 ≤ isize ∧ isize ≤ 2 ^ 30 ∧ 1 ≤ osize ∧ osize ≤ 2 ^ 30 ∧ kMax = 4)) ∧
    (1 ≤ isize → isize ≤ 2 ^ 30 → 1 ≤ osize → osize ≤ 2 ^ 30 → kMax = 4 →
      ∃ c, powerOn isize osize kMax idValue = .next (State.resetWith c) ∧ c.ibufSize = isize ∧ c.obufSize = osize ∧
        c.idValue = idValue)

/-- R40: the power-on reset state is legal. -/
def Obligations.LegalAtReset : Prop :=
  ∀ c : Config, (State.resetWith c).Legal

/-- R40: every step from a legal state leaves a legal state. -/
def Obligations.LegalKeptByStep : Prop :=
  ∀ s t : State, s.Legal → step s = .next t → t.Legal

/-- R23, R32, R39, R247: no step changes ID, IBUF_CAP or OBUF_CAP, and none clears a written flag. -/
def Obligations.ConstantsAndWrittenFlagsKept : Prop :=
  ∀ s t : State, step s = .next t →
    (∀ r ∈ [Reg.id, .ibufCap, .obufCap], readReg t r = readReg s r) ∧
    ∀ i, (s.ibuf.written i = true → t.ibuf.written i = true) ∧ (s.obuf.written i = true → t.obuf.written i = true)
end

