-- ==== Sys2Proof/Laws/Memory.lean ====
section
/-! SUPPORT. The laws of the buffers: reading after writing, and that every operation keeps the canonical form. -/
namespace Sys2Proof.Machine

@[simp] theorem read_nil (i : Nat) : Memory.read [] i = none := rfl

@[simp] theorem written_nil (i : Nat) : Memory.written [] i = false := rfl

theorem written_iff (m : Memory) (i : Nat) : m.written i = true ↔ ∃ b, m.read i = some b := by
  simp [Memory.written, Option.isSome_iff_exists]

/-! ### One byte -/

@[simp] theorem read_write_same (m : Memory) (i : Nat) (b : Byte) : (m.write i b).read i = some b := by
  induction m with
  | nil => simp [Memory.write, Memory.read]
  | cons c m ih =>
    obtain ⟨j, v⟩ := c
    simp only [Memory.write]
    split
    · simp [Memory.read]
    · split
      · simp [Memory.read]
      · have hji : ¬ j = i := by omega
        simp [Memory.read, hji, ih]

theorem read_write_other (m : Memory) (i j : Nat) (b : Byte) (h : j ≠ i) : (m.write i b).read j = m.read j := by
  induction m with
  | nil => simp [Memory.write, Memory.read, Ne.symm h]
  | cons c m ih =>
    obtain ⟨x, v⟩ := c
    simp only [Memory.write]
    split
    · simp [Memory.read, Ne.symm h]
    · split
      · rename_i hx; subst hx; simp [Memory.read, Ne.symm h]
      · simp [Memory.read, ih]

/-- Reading after a write, both cases at once. -/
theorem read_write (m : Memory) (i j : Nat) (b : Byte) :
    (m.write i b).read j = if j = i then some b else m.read j := by
  split
  · rename_i h; subst h; simp
  · rename_i h; exact read_write_other m i j b h

/-- The indices listed after a write are those listed before, and the one written. -/
theorem mem_write_index (m : Memory) (i : Nat) (b : Byte) (c : Host.Cell) (h : c ∈ m.write i b) :
    c = (i, b) ∨ c ∈ m := by
  induction m with
  | nil => simpa [Memory.write] using h
  | cons d m ih =>
    obtain ⟨x, v⟩ := d
    simp only [Memory.write] at h
    split at h
    · simpa using h
    · split at h
      · rcases List.mem_cons.mp h with h | h <;> simp [h]
      · rcases List.mem_cons.mp h with h | h
        · simp [h]
        · rcases ih h with h | h <;> simp [h]

/-- A write keeps the canonical form. -/
theorem write_wf (m : Memory) (i : Nat) (b : Byte) (h : m.wf) : (m.write i b).wf := by
  induction m with
  | nil => simp [Memory.write, Memory.wf]
  | cons d m ih =>
    obtain ⟨x, v⟩ := d
    have hd := List.pairwise_cons.mp h
    simp only [Memory.write]
    split
    · rename_i hlt
      refine List.pairwise_cons.mpr ⟨?_, h⟩
      intro c hc
      rcases List.mem_cons.mp hc with rfl | hc
      · exact hlt
      · have := hd.1 c hc; simp only at this ⊢; omega
    · split
      · rename_i hx; subst hx
        exact List.pairwise_cons.mpr ⟨hd.1, hd.2⟩
      · refine List.pairwise_cons.mpr ⟨?_, ih hd.2⟩
        intro c hc
        rcases mem_write_index m i b c hc with rfl | hc
        · simp only; omega
        · exact hd.1 c hc

/-! ### Several bytes -/

@[simp] theorem writeBytes_nil (m : Memory) (i : Nat) : m.writeBytes i [] = m := rfl

/-- Writing bytes keeps the canonical form. -/
theorem writeBytes_wf (m : Memory) (i : Nat) (bs : Bytes) (h : m.wf) : (m.writeBytes i bs).wf := by
  induction bs generalizing m i with
  | nil => exact h
  | cons b bs ih => exact ih _ _ (write_wf m i b h)

/-- Every byte outside the stored ones reads as before. -/
theorem read_writeBytes_outside (m : Memory) (i : Nat) (bs : Bytes) (j : Nat) (h : j < i ∨ i + bs.length ≤ j) :
    (m.writeBytes i bs).read j = m.read j := by
  induction bs generalizing m i with
  | nil => rfl
  | cons b bs ih =>
    simp only [List.length_cons] at h
    rw [Memory.writeBytes, ih _ _ (by omega), read_write_other _ _ _ _ (by omega)]

/-- Every stored byte reads as stored. -/
theorem read_writeBytes_inside (m : Memory) (i : Nat) (bs : Bytes) (k : Nat) (h : k < bs.length) :
    (m.writeBytes i bs).read (i + k) = bs[k]? := by
  induction bs generalizing m i k with
  | nil => simp at h
  | cons b bs ih =>
    cases k with
    | zero => rw [Memory.writeBytes, read_writeBytes_outside _ _ _ _ (by omega)]; simp
    | succ k =>
      have := ih (m.write i b) (i + 1) k (by simpa using h)
      rw [Memory.writeBytes, show i + (k + 1) = i + 1 + k by omega, this]; simp

/-- A byte written stays written. -/
theorem written_write (m : Memory) (i j : Nat) (b : Byte) (h : m.written j = true) : (m.write i b).written j = true := by
  simp only [Memory.written, read_write] at h ⊢
  split <;> simp_all

theorem written_writeBytes (m : Memory) (i j : Nat) (bs : Bytes) (h : m.written j = true) :
    (m.writeBytes i bs).written j = true := by
  induction bs generalizing m i with
  | nil => exact h
  | cons b bs ih => exact ih _ _ (written_write m i j b h)

/-- Writing below a bound lists no index at or above it. -/
theorem writeBytes_bound (m : Memory) (i size : Nat) (bs : Bytes) (h : ∀ c ∈ m, c.1 < size)
    (hi : i + bs.length ≤ size) : ∀ c ∈ m.writeBytes i bs, c.1 < size := by
  induction bs generalizing m i with
  | nil => exact h
  | cons b bs ih =>
    simp only [List.length_cons] at hi
    refine ih (m.write i b) (i + 1) ?_ (by omega)
    intro c hc
    rcases mem_write_index m i b c hc with rfl | hc
    · simp only; omega
    · exact h c hc

@[simp] theorem readBytes_zero (m : Memory) (i : Nat) : m.readBytes i 0 = some [] := rfl

/-- What reading n bytes answers: exactly the n bytes read one by one. -/
theorem readBytes_eq_some_iff (m : Memory) (i n : Nat) (bs : Bytes) :
    m.readBytes i n = some bs ↔ bs.length = n ∧ ∀ j, j < n → m.read (i + j) = bs[j]? := by
  induction n generalizing i bs with
  | zero => simp only [Memory.readBytes, Option.some.injEq]; constructor
            · rintro rfl; simp
            · rintro ⟨h, -⟩; exact (List.eq_nil_of_length_eq_zero h).symm
  | succ n ih =>
    simp only [Memory.readBytes]
    constructor
    · intro h
      split at h
      · rename_i b bs' hb hbs
        obtain rfl : b :: bs' = bs := by simpa using h
        obtain ⟨hl, hr⟩ := (ih _ _).mp hbs
        refine ⟨by simp [hl], ?_⟩
        intro j hj
        cases j with
        | zero => simpa using hb
        | succ j => have := hr j (by omega); rw [show i + (j + 1) = i + 1 + j by omega]; simpa using this
      · simp at h
    · rintro ⟨hl, hr⟩
      cases bs with
      | nil => simp at hl
      | cons b bs' =>
        have hb : m.read i = some b := by simpa using hr 0 (by omega)
        have hbs : m.readBytes (i + 1) n = some bs' := by
          refine (ih _ _).mpr ⟨by simpa using hl, ?_⟩
          intro j hj
          have := hr (j + 1) (by omega)
          rw [show i + (j + 1) = i + 1 + j by omega] at this
          simpa using this
        simp [hb, hbs]

/-- Reading n bytes answers exactly when all of them are written. -/
theorem readBytes_isSome_iff (m : Memory) (i n : Nat) :
    (m.readBytes i n).isSome ↔ ∀ j, j < n → m.written (i + j) = true := by
  induction n generalizing i with
  | zero => simp [Memory.readBytes]
  | succ n ih =>
    have key : (m.readBytes i (n + 1)).isSome ↔ m.written i = true ∧ (m.readBytes (i + 1) n).isSome := by
      simp only [Memory.readBytes, Memory.written]
      cases m.read i <;> cases m.readBytes (i + 1) n <;> simp
    rw [key, ih]
    constructor
    · rintro ⟨h0, h⟩ j hj
      cases j with
      | zero => exact h0
      | succ j => rw [show i + (j + 1) = i + 1 + j by omega]; exact h j (by omega)
    · intro h
      refine ⟨h 0 (by omega), fun j hj => ?_⟩
      have := h (j + 1) (by omega)
      rwa [show i + (j + 1) = i + 1 + j by omega] at this

theorem readBytes_length (m : Memory) (i n : Nat) (bs : Bytes) (h : m.readBytes i n = some bs) : bs.length = n :=
  ((readBytes_eq_some_iff m i n bs).mp h).1

/-- Two buffers that read the same at n indices give the same n bytes. -/
theorem readBytes_congr (m m' : Memory) (i n : Nat) (h : ∀ j, j < n → m.read (i + j) = m'.read (i + j)) :
    m.readBytes i n = m'.readBytes i n := by
  induction n generalizing i with
  | zero => rfl
  | succ n ih =>
    have h0 := h 0 (by omega)
    have h1 := ih (i + 1) (fun j hj => by
      have := h (j + 1) (by omega); rwa [show i + (j + 1) = i + 1 + j by omega] at this)
    simp only [Nat.add_zero] at h0
    simp only [Memory.readBytes, h0, h1]

/-- The buffers right after reset have the canonical form. -/
theorem reset_memories_wf : State.reset.ibuf.wf ∧ State.reset.obuf.wf := by
  simp [State.reset, State.resetWith, Memory.wf]

end Sys2Proof.Machine
end

