-- ==== Sys2Proof/Laws/Status.lean ====
section
/-! SUPPORT. The fields of the word a command writes to STATUS (spec/40_control.md R114; spec/10_state.md R25). -/
namespace Sys2Proof.Machine

variable {m n : Nat}

/-- Side by side: the left part counts the right part's width up. -/
theorem append_toNat (x : BitVec m) (y : BitVec n) : (x ++ y).toNat = x.toNat * 2 ^ n + y.toNat := by
  rw [BitVec.toNat_append, ← Nat.shiftLeft_add_eq_or_of_lt y.isLt, Nat.shiftLeft_eq]

theorem Code.value_le (c : Code) : c.value ≤ 6 := by cases c <;> decide

theorem Code.value_injective (c d : Code) (h : c.value = d.value) : c = d := by
  cases c <;> cases d <;> first | rfl | (simp [Code.value] at h)

/-- The number R114's sum stands for: nothing is lost to the 32 bits. -/
theorem statusWord_toNat (c : Code) (idx : Nat) (u : BitVec 4) (t : Bool) (op : Byte) (h : idx < 8) :
    (statusWord c idx u t op).toNat
      = c.value + idx * 2 ^ 8 + u.toNat * 2 ^ 16 + t.toNat * 2 ^ 20 + op.toNat * 2 ^ 24 := by
  have hc := c.value_le
  have hu := u.isLt
  have hi : (BitVec.ofNat 3 idx).toNat = idx := by simp; omega
  have hv : c.field.toNat = c.value := by simp [Code.field]; omega
  have ht : t.toNat ≤ 1 := Bool.toNat_le t
  simp only [statusWord, append_toNat, hi, hv, BitVec.toNat_ofBool, BitVec.toNat_ofNat]
  omega

theorem statusCode_statusWord (c : Code) (idx : Nat) (u : BitVec 4) (t : Bool) (op : Byte) (h : idx < 8) :
    (statusCode (statusWord c idx u t op)).toNat = c.value := by
  have hc := c.value_le
  simp only [statusCode, BitVec.extractLsb'_toNat, statusWord_toNat c idx u t op h, Nat.shiftRight_eq_div_pow]
  omega

theorem statusIdx_statusWord (c : Code) (idx : Nat) (u : BitVec 4) (t : Bool) (op : Byte) (h : idx < 8) :
    (statusIdx (statusWord c idx u t op)).toNat = idx := by
  have hc := c.value_le
  simp only [statusIdx, BitVec.extractLsb'_toNat, statusWord_toNat c idx u t op h, Nat.shiftRight_eq_div_pow]
  omega

theorem statusUtf8Bad_statusWord (c : Code) (idx : Nat) (u : BitVec 4) (t : Bool) (op : Byte) (h : idx < 8) :
    statusUtf8Bad (statusWord c idx u t op) = u := by
  have hc := c.value_le
  have hu := u.isLt
  apply BitVec.eq_of_toNat_eq
  simp only [statusUtf8Bad, BitVec.extractLsb'_toNat, statusWord_toNat c idx u t op h, Nat.shiftRight_eq_div_pow]
  omega

theorem statusUtf8BadTrail_statusWord (c : Code) (idx : Nat) (u : BitVec 4) (t : Bool) (op : Byte) (h : idx < 8) :
    statusUtf8BadTrail (statusWord c idx u t op) = BitVec.ofBool t := by
  have hc := c.value_le
  have hu := u.isLt
  have ht : t.toNat ≤ 1 := Bool.toNat_le t
  apply BitVec.eq_of_toNat_eq
  simp only [statusUtf8BadTrail, BitVec.extractLsb'_toNat, statusWord_toNat c idx u t op h, Nat.shiftRight_eq_div_pow,
    BitVec.toNat_ofBool]
  omega

theorem statusLastOp_statusWord (c : Code) (idx : Nat) (u : BitVec 4) (t : Bool) (op : Byte) (h : idx < 8) :
    statusLastOp (statusWord c idx u t op) = op := by
  have hc := c.value_le
  have hu := u.isLt
  have ho := op.isLt
  have ht : t.toNat ≤ 1 := Bool.toNat_le t
  apply BitVec.eq_of_toNat_eq
  simp only [statusLastOp, BitVec.extractLsb'_toNat, statusWord_toNat c idx u t op h, Nat.shiftRight_eq_div_pow]
  omega

theorem statusReserved_statusWord (c : Code) (idx : Nat) (u : BitVec 4) (t : Bool) (op : Byte) (h : idx < 8) :
    statusReserved (statusWord c idx u t op) = 0 := by
  have hc := c.value_le
  have hu := u.isLt
  have ht : t.toNat ≤ 1 := Bool.toNat_le t
  have h1 : (statusWord c idx u t op).extractLsb' 21 3 = 0 := by
    apply BitVec.eq_of_toNat_eq
    simp only [BitVec.extractLsb'_toNat, statusWord_toNat c idx u t op h, Nat.shiftRight_eq_div_pow]
    simp; omega
  have h2 : (statusWord c idx u t op).extractLsb' 11 5 = 0 := by
    apply BitVec.eq_of_toNat_eq
    simp only [BitVec.extractLsb'_toNat, statusWord_toNat c idx u t op h, Nat.shiftRight_eq_div_pow]
    simp; omega
  have h3 : (statusWord c idx u t op).extractLsb' 4 4 = 0 := by
    apply BitVec.eq_of_toNat_eq
    simp only [BitVec.extractLsb'_toNat, statusWord_toNat c idx u t op h, Nat.shiftRight_eq_div_pow]
    simp; omega
  simp [statusReserved, h1, h2, h3]

end Sys2Proof.Machine
end

