-- ==== Sys2Proof/Laws/Codec.lean ====
section
/-! SUPPORT. The small lemmas of the specification functions: the codec's numbers, slices, and the input a command
reads (spec/41_le32_codec.md, spec/42_rle.md, spec/43_framing.md). -/
namespace Sys2Proof.Machine

/-- K is legal up to 4 (30_encoding.md R92). -/
theorem kLegal_iff (k : BitVec 3) : kLegal k = true ↔ k.toNat ≤ 4 := decide_eq_true_iff

/-- A region is in range when it ends inside the input (43_framing.md R200). -/
theorem inRange_iff (L : Nat) (r : Span) : inRange L r = true ↔ r.1 + r.2 ≤ L := decide_eq_true_iff

/-- A byte is in a range of the table (43_framing.md R181). -/
theorem inByteRange_iff (r : ByteRange) (b : Byte) : inByteRange r b = true ↔ r.1 ≤ b.toNat ∧ b.toNat ≤ r.2 := by
  simp [inByteRange]

@[simp] theorem enc32_length (v : Word) : (enc32 v).length = 4 := rfl

/-- R131's sum. -/
theorem dec32_toNat (b0 b1 b2 b3 : Byte) :
    (dec32 [b0, b1, b2, b3]).map BitVec.toNat
      = some (b0.toNat + 2 ^ 8 * b1.toNat + 2 ^ 16 * b2.toNat + 2 ^ 24 * b3.toNat) := by
  simp only [dec32, Option.map_some, append_toNat, Option.some.injEq]
  omega

/-- `dec32` is "defined only for |B| = 4" (R131). -/
theorem dec32_isSome_iff (B : Bytes) : (dec32 B).isSome ↔ B.length = 4 := by
  rcases B with _ | ⟨a, _ | ⟨b, _ | ⟨c, _ | ⟨d, _ | ⟨e, B⟩⟩⟩⟩⟩ <;> simp [dec32]

theorem slice_length (B : Bytes) (i n : Nat) : (slice B i n).length = min n (B.length - i) := by
  simp [slice]

theorem slice_length_of_le (B : Bytes) (i n : Nat) (h : i + n ≤ B.length) : (slice B i n).length = n := by
  simp [slice]; omega

@[simp] theorem slice_zero_length (B : Bytes) : slice B 0 B.length = B := by simp [slice]

/-- A prefix is there exactly when 4 bytes are (R184, R185). -/
theorem prefixAt_isSome_iff (B : Bytes) (p : Nat) : (prefixAt B p).isSome ↔ p + 4 ≤ B.length := by
  simp only [prefixAt, Option.isSome_map, dec32_isSome_iff, slice_length]
  omega

/-- A prefix is a u32. -/
theorem prefixAt_lt (B : Bytes) (p len : Nat) (h : prefixAt B p = some len) : len < 2 ^ 32 := by
  simp only [prefixAt, Option.map_eq_some_iff] at h
  obtain ⟨w, _, rfl⟩ := h
  exact w.isLt

/-! ### The input of a command -/

/-- The input is there exactly when all of it is written, and is then its bytes one by one (60_exceptions.md R236). -/
theorem inputBytes_eq_some_iff (s : State) (B : Bytes) :
    inputBytes s = some B ↔ B.length = s.inLen.toNat ∧ ∀ j, j < s.inLen.toNat → s.ibuf.read j = B[j]? := by
  simp only [inputBytes, readRegion, inputLength, readBytes_eq_some_iff, Nat.zero_add]

theorem inputBytes_isSome_iff (s : State) :
    (inputBytes s).isSome ↔ ∀ j, j < s.inLen.toNat → s.ibuf.written j = true := by
  simp [inputBytes, readRegion, inputLength, readBytes_isSome_iff]

/-- A region inside the input is a slice of it. -/
theorem readRegion_of_inputBytes (s : State) (B : Bytes) (r : Span) (h : inputBytes s = some B)
    (hr : r.1 + r.2 ≤ s.inLen.toNat) : readRegion s r = some (slice B r.1 r.2) := by
  obtain ⟨hl, hB⟩ := (inputBytes_eq_some_iff s B).mp h
  refine (readBytes_eq_some_iff _ _ _ _).mpr ⟨slice_length_of_le _ _ _ (by omega), fun j hj => ?_⟩
  rw [hB _ (by omega)]
  simp [slice, hj]

/-! ### The encoder -/

@[simp] theorem rleRun_nil (s : RleState) : rleRun s [] = (s, []) := rfl

@[simp] theorem rleRun_cons (s : RleState) (b : Byte) (bs : Bytes) :
    rleRun s (b :: bs) = ((rleRun (rleStep s b).1 bs).1, (rleStep s b).2 ++ (rleRun (rleStep s b).1 bs).2) := rfl

/-- What one step can do (R151): open a run, extend it, or emit a pair and open the next. -/
theorem rleStep_cases (s : RleState) (b : Byte) :
    (s.valid = false ∧ rleStep s b = (⟨true, b, 1⟩, [])) ∨
    (s.valid = true ∧ b = s.value ∧ s.count.toNat < 255 ∧ rleStep s b = (⟨true, s.value, s.count + 1⟩, [])) ∨
    (s.valid = true ∧ b = s.value ∧ s.count = 255 ∧ rleStep s b = (⟨true, b, 1⟩, [255, s.value])) ∨
    (s.valid = true ∧ b ≠ s.value ∧ rleStep s b = (⟨true, b, 1⟩, [s.count, s.value])) := by
  rcases hv : s.valid with _ | _
  · exact .inl ⟨rfl, by simp [rleStep, hv]⟩
  · right
    by_cases hb : b = s.value
    · by_cases hc : s.count.toNat < 255
      · exact .inl ⟨rfl, hb, hc, by simp [rleStep, hv, hb, hc]⟩
      · have h255 : s.count = 255 := by
          apply BitVec.eq_of_toNat_eq
          have := s.count.isLt
          show s.count.toNat = 255
          omega
        exact .inr (.inl ⟨rfl, hb, h255, by simp [rleStep, hv, hb, h255]⟩)
    · exact .inr (.inr ⟨rfl, hb, by simp [rleStep, hv, hb]⟩)

@[simp] theorem rleFlush_idle : rleFlush RleState.idle = (RleState.idle, []) := rfl

/-- A flush always leaves the encoder idle (R152). -/
@[simp] theorem rleFlush_fst (s : RleState) : (rleFlush s).1 = RleState.idle := by
  unfold rleFlush; split <;> rfl

end Sys2Proof.Machine
end

