-- ==== Sys2Proof/Laws/State.lean ====
section
/-! SUPPORT. One lemma per field per update of the state, each true by rfl, so that no later proof unfolds an update. -/
namespace Sys2Proof.Machine

/-! ### Writing STATUS -/

@[simp] theorem withStatus_cfg (s : State) (w : Word) : (s.withStatus w).cfg = s.cfg := rfl
@[simp] theorem withStatus_status (s : State) (w : Word) : (s.withStatus w).status = w := rfl
@[simp] theorem withStatus_inLen (s : State) (w : Word) : (s.withStatus w).inLen = s.inLen := rfl
@[simp] theorem withStatus_outLen (s : State) (w : Word) : (s.withStatus w).outLen = s.outLen := rfl
@[simp] theorem withStatus_data (s : State) (w : Word) : (s.withStatus w).data = s.data := rfl
@[simp] theorem withStatus_offset (s : State) (w : Word) : (s.withStatus w).offset = s.offset := rfl
@[simp] theorem withStatus_rle (s : State) (w : Word) : (s.withStatus w).rle = s.rle := rfl
@[simp] theorem withStatus_trailOff (s : State) (w : Word) : (s.withStatus w).trailOff = s.trailOff := rfl
@[simp] theorem withStatus_trailLen (s : State) (w : Word) : (s.withStatus w).trailLen = s.trailLen := rfl
@[simp] theorem withStatus_fieldOff (s : State) (w : Word) : (s.withStatus w).fieldOff = s.fieldOff := rfl
@[simp] theorem withStatus_fieldLen (s : State) (w : Word) : (s.withStatus w).fieldLen = s.fieldLen := rfl
@[simp] theorem withStatus_ibuf (s : State) (w : Word) : (s.withStatus w).ibuf = s.ibuf := rfl
@[simp] theorem withStatus_obuf (s : State) (w : Word) : (s.withStatus w).obuf = s.obuf := rfl
@[simp] theorem withStatus_pending (s : State) (w : Word) : (s.withStatus w).pending = s.pending := rfl
@[simp] theorem withStatus_responses (s : State) (w : Word) : (s.withStatus w).responses = s.responses := rfl

/-! ### Answering the host -/

@[simp] theorem respond_cfg (s : State) (r : Response) : (s.respond r).cfg = s.cfg := rfl
@[simp] theorem respond_status (s : State) (r : Response) : (s.respond r).status = s.status := rfl
@[simp] theorem respond_inLen (s : State) (r : Response) : (s.respond r).inLen = s.inLen := rfl
@[simp] theorem respond_outLen (s : State) (r : Response) : (s.respond r).outLen = s.outLen := rfl
@[simp] theorem respond_data (s : State) (r : Response) : (s.respond r).data = s.data := rfl
@[simp] theorem respond_offset (s : State) (r : Response) : (s.respond r).offset = s.offset := rfl
@[simp] theorem respond_rle (s : State) (r : Response) : (s.respond r).rle = s.rle := rfl
@[simp] theorem respond_trailOff (s : State) (r : Response) : (s.respond r).trailOff = s.trailOff := rfl
@[simp] theorem respond_trailLen (s : State) (r : Response) : (s.respond r).trailLen = s.trailLen := rfl
@[simp] theorem respond_fieldOff (s : State) (r : Response) : (s.respond r).fieldOff = s.fieldOff := rfl
@[simp] theorem respond_fieldLen (s : State) (r : Response) : (s.respond r).fieldLen = s.fieldLen := rfl
@[simp] theorem respond_ibuf (s : State) (r : Response) : (s.respond r).ibuf = s.ibuf := rfl
@[simp] theorem respond_obuf (s : State) (r : Response) : (s.respond r).obuf = s.obuf := rfl
@[simp] theorem respond_pending (s : State) (r : Response) : (s.respond r).pending = s.pending := rfl
@[simp] theorem respond_responses (s : State) (r : Response) : (s.respond r).responses = s.responses ++ [r] := rfl

/-! ### Setting the pending accesses -/

@[simp] theorem withPending_cfg (s : State) (as : List Access) : (s.withPending as).cfg = s.cfg := rfl
@[simp] theorem withPending_status (s : State) (as : List Access) : (s.withPending as).status = s.status := rfl
@[simp] theorem withPending_inLen (s : State) (as : List Access) : (s.withPending as).inLen = s.inLen := rfl
@[simp] theorem withPending_outLen (s : State) (as : List Access) : (s.withPending as).outLen = s.outLen := rfl
@[simp] theorem withPending_data (s : State) (as : List Access) : (s.withPending as).data = s.data := rfl
@[simp] theorem withPending_offset (s : State) (as : List Access) : (s.withPending as).offset = s.offset := rfl
@[simp] theorem withPending_rle (s : State) (as : List Access) : (s.withPending as).rle = s.rle := rfl
@[simp] theorem withPending_trailOff (s : State) (as : List Access) : (s.withPending as).trailOff = s.trailOff := rfl
@[simp] theorem withPending_trailLen (s : State) (as : List Access) : (s.withPending as).trailLen = s.trailLen := rfl
@[simp] theorem withPending_fieldOff (s : State) (as : List Access) : (s.withPending as).fieldOff = s.fieldOff := rfl
@[simp] theorem withPending_fieldLen (s : State) (as : List Access) : (s.withPending as).fieldLen = s.fieldLen := rfl
@[simp] theorem withPending_ibuf (s : State) (as : List Access) : (s.withPending as).ibuf = s.ibuf := rfl
@[simp] theorem withPending_obuf (s : State) (as : List Access) : (s.withPending as).obuf = s.obuf := rfl
@[simp] theorem withPending_pending (s : State) (as : List Access) : (s.withPending as).pending = as := rfl
@[simp] theorem withPending_responses (s : State) (as : List Access) : (s.withPending as).responses = s.responses := rfl

/-! ### Setting IBUF's bytes -/

@[simp] theorem withIbuf_cfg (s : State) (m : Memory) : (s.withIbuf m).cfg = s.cfg := rfl
@[simp] theorem withIbuf_status (s : State) (m : Memory) : (s.withIbuf m).status = s.status := rfl
@[simp] theorem withIbuf_inLen (s : State) (m : Memory) : (s.withIbuf m).inLen = s.inLen := rfl
@[simp] theorem withIbuf_outLen (s : State) (m : Memory) : (s.withIbuf m).outLen = s.outLen := rfl
@[simp] theorem withIbuf_data (s : State) (m : Memory) : (s.withIbuf m).data = s.data := rfl
@[simp] theorem withIbuf_offset (s : State) (m : Memory) : (s.withIbuf m).offset = s.offset := rfl
@[simp] theorem withIbuf_rle (s : State) (m : Memory) : (s.withIbuf m).rle = s.rle := rfl
@[simp] theorem withIbuf_trailOff (s : State) (m : Memory) : (s.withIbuf m).trailOff = s.trailOff := rfl
@[simp] theorem withIbuf_trailLen (s : State) (m : Memory) : (s.withIbuf m).trailLen = s.trailLen := rfl
@[simp] theorem withIbuf_fieldOff (s : State) (m : Memory) : (s.withIbuf m).fieldOff = s.fieldOff := rfl
@[simp] theorem withIbuf_fieldLen (s : State) (m : Memory) : (s.withIbuf m).fieldLen = s.fieldLen := rfl
@[simp] theorem withIbuf_ibuf (s : State) (m : Memory) : (s.withIbuf m).ibuf = m := rfl
@[simp] theorem withIbuf_obuf (s : State) (m : Memory) : (s.withIbuf m).obuf = s.obuf := rfl
@[simp] theorem withIbuf_pending (s : State) (m : Memory) : (s.withIbuf m).pending = s.pending := rfl
@[simp] theorem withIbuf_responses (s : State) (m : Memory) : (s.withIbuf m).responses = s.responses := rfl

/-! ### Raising a status -/

@[simp] theorem raiseStatus_cfg (code : Code) (idx : Nat) (lastOp : Byte) (s : State) : (raiseStatus code idx lastOp s).cfg = s.cfg := rfl
@[simp] theorem raiseStatus_status (code : Code) (idx : Nat) (lastOp : Byte) (s : State) : (raiseStatus code idx lastOp s).status = statusWord code idx 0 false lastOp := rfl
@[simp] theorem raiseStatus_inLen (code : Code) (idx : Nat) (lastOp : Byte) (s : State) : (raiseStatus code idx lastOp s).inLen = s.inLen := rfl
@[simp] theorem raiseStatus_outLen (code : Code) (idx : Nat) (lastOp : Byte) (s : State) : (raiseStatus code idx lastOp s).outLen = s.outLen := rfl
@[simp] theorem raiseStatus_data (code : Code) (idx : Nat) (lastOp : Byte) (s : State) : (raiseStatus code idx lastOp s).data = s.data := rfl
@[simp] theorem raiseStatus_offset (code : Code) (idx : Nat) (lastOp : Byte) (s : State) : (raiseStatus code idx lastOp s).offset = s.offset := rfl
@[simp] theorem raiseStatus_rle (code : Code) (idx : Nat) (lastOp : Byte) (s : State) : (raiseStatus code idx lastOp s).rle = s.rle := rfl
@[simp] theorem raiseStatus_trailOff (code : Code) (idx : Nat) (lastOp : Byte) (s : State) : (raiseStatus code idx lastOp s).trailOff = s.trailOff := rfl
@[simp] theorem raiseStatus_trailLen (code : Code) (idx : Nat) (lastOp : Byte) (s : State) : (raiseStatus code idx lastOp s).trailLen = s.trailLen := rfl
@[simp] theorem raiseStatus_fieldOff (code : Code) (idx : Nat) (lastOp : Byte) (s : State) : (raiseStatus code idx lastOp s).fieldOff = s.fieldOff := rfl
@[simp] theorem raiseStatus_fieldLen (code : Code) (idx : Nat) (lastOp : Byte) (s : State) : (raiseStatus code idx lastOp s).fieldLen = s.fieldLen := rfl
@[simp] theorem raiseStatus_ibuf (code : Code) (idx : Nat) (lastOp : Byte) (s : State) : (raiseStatus code idx lastOp s).ibuf = s.ibuf := rfl
@[simp] theorem raiseStatus_obuf (code : Code) (idx : Nat) (lastOp : Byte) (s : State) : (raiseStatus code idx lastOp s).obuf = s.obuf := rfl
@[simp] theorem raiseStatus_pending (code : Code) (idx : Nat) (lastOp : Byte) (s : State) : (raiseStatus code idx lastOp s).pending = s.pending := rfl
@[simp] theorem raiseStatus_responses (code : Code) (idx : Nat) (lastOp : Byte) (s : State) : (raiseStatus code idx lastOp s).responses = s.responses := rfl

/-! ### Appending output -/

@[simp] theorem appendOutput_cfg (s : State) (out : Bytes) : (s.appendOutput out).cfg = s.cfg := rfl
@[simp] theorem appendOutput_status (s : State) (out : Bytes) : (s.appendOutput out).status = s.status := rfl
@[simp] theorem appendOutput_inLen (s : State) (out : Bytes) : (s.appendOutput out).inLen = s.inLen := rfl
@[simp] theorem appendOutput_outLen (s : State) (out : Bytes) : (s.appendOutput out).outLen = BitVec.ofNat 32 (s.outLen.toNat + out.length) := rfl
@[simp] theorem appendOutput_data (s : State) (out : Bytes) : (s.appendOutput out).data = s.data := rfl
@[simp] theorem appendOutput_offset (s : State) (out : Bytes) : (s.appendOutput out).offset = s.offset := rfl
@[simp] theorem appendOutput_rle (s : State) (out : Bytes) : (s.appendOutput out).rle = s.rle := rfl
@[simp] theorem appendOutput_trailOff (s : State) (out : Bytes) : (s.appendOutput out).trailOff = s.trailOff := rfl
@[simp] theorem appendOutput_trailLen (s : State) (out : Bytes) : (s.appendOutput out).trailLen = s.trailLen := rfl
@[simp] theorem appendOutput_fieldOff (s : State) (out : Bytes) : (s.appendOutput out).fieldOff = s.fieldOff := rfl
@[simp] theorem appendOutput_fieldLen (s : State) (out : Bytes) : (s.appendOutput out).fieldLen = s.fieldLen := rfl
@[simp] theorem appendOutput_ibuf (s : State) (out : Bytes) : (s.appendOutput out).ibuf = s.ibuf := rfl
@[simp] theorem appendOutput_obuf (s : State) (out : Bytes) : (s.appendOutput out).obuf = s.obuf.writeBytes s.outLen.toNat out := rfl
@[simp] theorem appendOutput_pending (s : State) (out : Bytes) : (s.appendOutput out).pending = s.pending := rfl
@[simp] theorem appendOutput_responses (s : State) (out : Bytes) : (s.appendOutput out).responses = s.responses := rfl

/-! ### Performing the staged register writes -/

@[simp] theorem perform_cfg (st : Staged) (s : State) : (st.perform s).cfg = s.cfg := rfl
@[simp] theorem perform_status (st : Staged) (s : State) : (st.perform s).status = s.status := rfl
@[simp] theorem perform_inLen (st : Staged) (s : State) : (st.perform s).inLen = st.inLen.getD s.inLen := rfl
@[simp] theorem perform_outLen (st : Staged) (s : State) : (st.perform s).outLen = st.outLen.getD s.outLen := rfl
@[simp] theorem perform_data (st : Staged) (s : State) : (st.perform s).data = st.data.getD s.data := rfl
@[simp] theorem perform_offset (st : Staged) (s : State) : (st.perform s).offset = st.offset.getD s.offset := rfl
@[simp] theorem perform_rle (st : Staged) (s : State) : (st.perform s).rle = st.rle.getD s.rle := rfl
@[simp] theorem perform_trailOff (st : Staged) (s : State) : (st.perform s).trailOff = st.trailOff.getD s.trailOff := rfl
@[simp] theorem perform_trailLen (st : Staged) (s : State) : (st.perform s).trailLen = st.trailLen.getD s.trailLen := rfl
@[simp] theorem perform_fieldOff (st : Staged) (s : State) : (st.perform s).fieldOff = st.fieldOff.getD s.fieldOff := rfl
@[simp] theorem perform_fieldLen (st : Staged) (s : State) : (st.perform s).fieldLen = st.fieldLen.getD s.fieldLen := rfl
@[simp] theorem perform_ibuf (st : Staged) (s : State) : (st.perform s).ibuf = s.ibuf := rfl
@[simp] theorem perform_obuf (st : Staged) (s : State) : (st.perform s).obuf = s.obuf := rfl
@[simp] theorem perform_pending (st : Staged) (s : State) : (st.perform s).pending = s.pending := rfl
@[simp] theorem perform_responses (st : Staged) (s : State) : (st.perform s).responses = s.responses := rfl

/-! ### Power-on reset -/

@[simp] theorem resetWith_cfg (c : Config) : (State.resetWith c).cfg = c := rfl
@[simp] theorem resetWith_status (c : Config) : (State.resetWith c).status = 0 := rfl
@[simp] theorem resetWith_inLen (c : Config) : (State.resetWith c).inLen = 0 := rfl
@[simp] theorem resetWith_outLen (c : Config) : (State.resetWith c).outLen = 0 := rfl
@[simp] theorem resetWith_data (c : Config) : (State.resetWith c).data = 0 := rfl
@[simp] theorem resetWith_offset (c : Config) : (State.resetWith c).offset = 0 := rfl
@[simp] theorem resetWith_rle (c : Config) : (State.resetWith c).rle = RleState.idle := rfl
@[simp] theorem resetWith_trailOff (c : Config) : (State.resetWith c).trailOff = 0 := rfl
@[simp] theorem resetWith_trailLen (c : Config) : (State.resetWith c).trailLen = 0 := rfl
@[simp] theorem resetWith_fieldOff (c : Config) : (State.resetWith c).fieldOff = FieldBank.zero := rfl
@[simp] theorem resetWith_fieldLen (c : Config) : (State.resetWith c).fieldLen = FieldBank.zero := rfl
@[simp] theorem resetWith_ibuf (c : Config) : (State.resetWith c).ibuf = [] := rfl
@[simp] theorem resetWith_obuf (c : Config) : (State.resetWith c).obuf = [] := rfl
@[simp] theorem resetWith_pending (c : Config) : (State.resetWith c).pending = [] := rfl
@[simp] theorem resetWith_responses (c : Config) : (State.resetWith c).responses = [] := rfl

end Sys2Proof.Machine
end

