-- ==== Sys2Proof/Laws/Ops.lean ====
section
/-! SUPPORT. What a commit can do, said once (spec/40_control.md R113): both outcomes, and every field after each. -/
namespace Sys2Proof.Machine

/-- An empty output never overflows. -/
@[simp] theorem overflows_nil (s : State) : overflows s [] = false := rfl

theorem overflows_iff (s : State) (out : Bytes) :
    overflows s out = true ↔ out ≠ [] ∧ s.cfg.obufSize < s.outLen.toNat + out.length := by
  cases out <;> simp [overflows]

theorem overflows_eq_false_iff (s : State) (out : Bytes) :
    overflows s out = false ↔ out = [] ∨ s.outLen.toNat + out.length ≤ s.cfg.obufSize := by
  cases out <;> simp [overflows]

/-- A commit whose output does not fit is the status OVERFLOW and nothing else. -/
theorem commit_of_overflows (lastOp : Byte) (st : Staged) (s : State) (h : overflows s st.output = true) :
    commit lastOp st s = raiseStatus .overflow 0 lastOp s := by
  simp [commit, h]

/-- A commit whose output fits. -/
theorem commit_of_fits (lastOp : Byte) (st : Staged) (s : State) (h : overflows s st.output = false) :
    commit lastOp st s =
      (st.perform (s.appendOutput st.output)).withStatus (statusWord .ok 0 st.utf8Bad st.utf8BadTrail lastOp) := by
  simp [commit, h]

/-- The two outcomes of a commit. -/
theorem commit_cases (lastOp : Byte) (st : Staged) (s : State) :
    (overflows s st.output = true ∧ commit lastOp st s = raiseStatus .overflow 0 lastOp s) ∨
    (overflows s st.output = false ∧ commit lastOp st s =
      (st.perform (s.appendOutput st.output)).withStatus (statusWord .ok 0 st.utf8Bad st.utf8BadTrail lastOp)) := by
  cases h : overflows s st.output
  · exact .inr ⟨rfl, commit_of_fits lastOp st s h⟩
  · exact .inl ⟨rfl, commit_of_overflows lastOp st s h⟩

/-! ### What no commit touches -/

@[simp] theorem commit_cfg (lastOp : Byte) (st : Staged) (s : State) : (commit lastOp st s).cfg = s.cfg := by
  rcases commit_cases lastOp st s with ⟨_, h⟩ | ⟨_, h⟩ <;> simp [h]

@[simp] theorem commit_ibuf (lastOp : Byte) (st : Staged) (s : State) : (commit lastOp st s).ibuf = s.ibuf := by
  rcases commit_cases lastOp st s with ⟨_, h⟩ | ⟨_, h⟩ <;> simp [h]

@[simp] theorem commit_pending (lastOp : Byte) (st : Staged) (s : State) : (commit lastOp st s).pending = s.pending := by
  rcases commit_cases lastOp st s with ⟨_, h⟩ | ⟨_, h⟩ <;> simp [h]

@[simp] theorem commit_responses (lastOp : Byte) (st : Staged) (s : State) :
    (commit lastOp st s).responses = s.responses := by
  rcases commit_cases lastOp st s with ⟨_, h⟩ | ⟨_, h⟩ <;> simp [h]

/-- OUT_LEN after output that fits: no wrap, as a buffer is at most 2^30 bytes long. -/
theorem appendOutput_outLen_toNat (s : State) (out : Bytes) (h : overflows s out = false) :
    (s.appendOutput out).outLen.toNat = s.outLen.toNat + out.length := by
  have hb := s.outLen.isLt
  have hs : s.cfg.obufSize ≤ 2 ^ 30 := s.cfg.obufLast.isLt
  rcases (overflows_eq_false_iff s out).mp h with rfl | h
  · simp
  · simp only [appendOutput_outLen, BitVec.toNat_ofNat]
    exact Nat.mod_eq_of_lt (by omega)

/-- The buffer sizes lie in [1, 2^30] (spec/00_scope.md R6). -/
theorem ibufSize_bounds (c : Config) : 1 ≤ c.ibufSize ∧ c.ibufSize ≤ 2 ^ 30 :=
  ⟨Nat.le_add_left 1 _, c.ibufLast.isLt⟩

theorem obufSize_bounds (c : Config) : 1 ≤ c.obufSize ∧ c.obufSize ≤ 2 ^ 30 :=
  ⟨Nat.le_add_left 1 _, c.obufLast.isLt⟩

end Sys2Proof.Machine
end

