-- ==== Sys2Proof/Laws/Exec.lean ====
section
/-! SUPPORT. What a command can do, said once: it commits, raises a status, or reads an unwritten byte
(spec/40_control.md R110 to R114; spec/60_exceptions.md R230). -/
namespace Sys2Proof.Machine

/-- A 32-bit access is aligned at the multiples of 4 (20_memory.md R64). -/
theorem aligned_iff (addr : Word) : aligned addr = true ↔ addr.toNat % 4 = 0 := decide_eq_true_iff

/-- The three ends of a command. -/
theorem exec_cases (i : Instr) (s : State) :
    (∃ st, exec i s = .next (commit i.opcode st s)) ∨
    (∃ code idx, exec i s = .next (raiseStatus code idx i.opcode s)) ∨
    exec i s = .fault .unwrittenRead := by
  cases i with
  | nop => exact .inl ⟨_, rfl⟩
  | outClear => exact .inl ⟨_, rfl⟩
  | softReset => exact .inl ⟨_, rfl⟩
  | rleInit => exact .inl ⟨_, rfl⟩
  | rlePush b => exact .inl ⟨_, rfl⟩
  | rleFlush => exact .inl ⟨_, rfl⟩
  | rlePushbuf =>
    simp only [exec, execRlePushbuf]
    split
    · exact .inr (.inr rfl)
    · exact .inl ⟨_, rfl⟩
  | rleEncode =>
    simp only [exec, execRleEncode]
    split
    · exact .inr (.inr rfl)
    · exact .inl ⟨_, rfl⟩
  | le32Enc => exact .inl ⟨_, rfl⟩
  | le32Dec =>
    simp only [exec, execLe32Dec]
    split
    · exact .inr (.inl ⟨_, _, rfl⟩)
    · split
      · exact .inr (.inr rfl)
      · exact .inl ⟨_, rfl⟩
  | fpParse k layout =>
    simp only [exec, execFpParse]
    split
    · exact .inr (.inl ⟨_, _, rfl⟩)
    · split
      · exact .inr (.inr rfl)
      · split
        · exact .inr (.inl ⟨_, _, rfl⟩)
        · exact .inr (.inl ⟨_, _, rfl⟩)
        · exact .inl ⟨_, rfl⟩
  | fpFrame k layout =>
    simp only [exec, execFpFrame]
    split
    · exact .inr (.inl ⟨_, _, rfl⟩)
    · split
      · exact .inr (.inl ⟨_, _, rfl⟩)
      · split
        · exact .inr (.inl ⟨_, _, rfl⟩)
        · split
          · exact .inl ⟨_, rfl⟩
          · exact .inr (.inr rfl)

/-- No command is refused. -/
theorem exec_not_refused (i : Instr) (s : State) (r : Refusal) : exec i s ≠ .refused r := by
  rcases exec_cases i s with ⟨st, h⟩ | ⟨c, n, h⟩ | h <;> simp [h]

/-- What no command touches: the configuration, IBUF and the session. -/
theorem exec_keeps (i : Instr) (s t : State) (h : exec i s = .next t) :
    t.cfg = s.cfg ∧ t.ibuf = s.ibuf ∧ t.pending = s.pending ∧ t.responses = s.responses := by
  rcases exec_cases i s with ⟨st, h'⟩ | ⟨c, n, h'⟩ | h' <;> rw [h'] at h
  · cases h; simp
  · cases h; simp
  · cases h

/-- A word written to CMD: the command it decodes to, or the status ILLEGAL. -/
theorem runCommand_of_ok (w : Word) (i : Instr) (s : State) (h : decode w = .ok i) : runCommand w s = exec i s := by
  simp [runCommand, h]

theorem runCommand_of_error (w : Word) (e : Illegal) (s : State) (h : decode w = .error e) :
    runCommand w s = .next (raiseStatus .illegal 0 (opField w) s) := by
  simp [runCommand, h]

theorem runCommand_keeps (w : Word) (s t : State) (h : runCommand w s = .next t) :
    t.cfg = s.cfg ∧ t.ibuf = s.ibuf ∧ t.pending = s.pending ∧ t.responses = s.responses := by
  rcases hd : decode w with e | i
  · rw [runCommand_of_error w e s hd] at h; cases h; simp
  · rw [runCommand_of_ok w i s hd] at h; exact exec_keeps i s t h

/-- What one access can do when it does not fault (spec/20_memory.md R66 to R69): answer a value and change nothing; be
a bus error and change nothing; store bytes in IBUF; store a register; or run a command. -/
theorem serve_cases (a : Access) (s t : State) (h : serve a s = .next t) :
    (∃ r, t = s.respond r) ∨
    (∃ m, t = (s.withIbuf m).respond .accepted) ∨
    (∃ r w u, writeReg s w r = some u ∧ t = u.respond .accepted) ∨
    (∃ w u, runCommand w s = .next u ∧ t = u.respond .accepted) := by
  have hbus : ∀ t, busError s = .next t → ∃ r, t = s.respond r := by
    intro t h; cases h; exact ⟨_, rfl⟩
  have hbyte : ∀ o t, answerByte s o = .next t → ∃ r, t = s.respond r := by
    intro o t h; cases o <;> cases h; exact ⟨_, rfl⟩
  have hbytes : ∀ o t, answerBytes s o = .next t → ∃ r, t = s.respond r := by
    intro o t h
    unfold answerBytes at h
    split at h <;> cases h
    exact ⟨_, rfl⟩
  cases a with
  | rd8 addr =>
    simp only [serve, serveRead8] at h
    split at h
    · exact .inl (hbus _ h)
    · exact .inl (hbyte _ _ h)
    · exact .inl (hbyte _ _ h)
    · exact .inl (hbus _ h)
  | rd16 addr => exact .inl (hbus _ h)
  | rd32 addr =>
    simp only [serve, serveRead32] at h
    split at h
    · exact .inl (hbus _ h)
    · split at h
      · split at h
        · cases h; exact .inl ⟨_, rfl⟩
        · exact .inl (hbus _ h)
      · split at h
        · exact .inl (hbytes _ _ h)
        · exact .inl (hbus _ h)
      · split at h
        · exact .inl (hbytes _ _ h)
        · exact .inl (hbus _ h)
      · exact .inl (hbus _ h)
  | wr8 addr b =>
    simp only [serve, serveWrite8] at h
    split at h
    · exact .inl (hbus _ h)
    · cases h; exact .inr (.inl ⟨_, rfl⟩)
    · exact .inl (hbus _ h)
    · exact .inl (hbus _ h)
  | wr16 addr v => exact .inl (hbus _ h)
  | wr32 addr w =>
    simp only [serve, serveWrite32] at h
    split at h
    · exact .inl (hbus _ h)
    · split at h
      · split at h
        · rename_i r _
          simp only [serveWriteReg] at h
          split at h
          · rcases hc : runCommand w s with u | u | u <;> rw [hc] at h <;> cases h
            exact .inr (.inr (.inr ⟨w, u, hc, rfl⟩))
          · split at h
            · rename_i u hu
              cases h
              exact .inr (.inr (.inl ⟨_, _, _, hu, rfl⟩))
            · exact .inl (hbus _ h)
        · exact .inl (hbus _ h)
      · split at h
        · cases h; exact .inr (.inl ⟨_, rfl⟩)
        · exact .inl (hbus _ h)
      · exact .inl (hbus _ h)
      · exact .inl (hbus _ h)

/-- No step is refused. -/
theorem runCommand_not_refused (w : Word) (s : State) (r : Refusal) : runCommand w s ≠ .refused r := by
  rcases hd : decode w with e | i
  · rw [runCommand_of_error w e s hd]; simp
  · rw [runCommand_of_ok w i s hd]; exact exec_not_refused i s r

end Sys2Proof.Machine
end

