-- ==== Sys2Proof/Laws/PerInstr.lean ====
section
/-! SUPPORT. Per-command facts about the encoding: the OP byte of the encoded word (spec/30_encoding.md R90, R93). -/

/-- Bits [7:0] of a command's word are its opcode. -/
def Sys2Proof.Laws.OpcodeByte.Statement (i : Sys2Proof.Instr) : Prop :=
  Sys2Proof.opField (Sys2Proof.encode i) = i.opcode

namespace Sys2Proof.Laws.OpcodeByte

theorem nop : Statement .nop := by unfold Statement; decide
theorem outClear : Statement .outClear := by unfold Statement; decide
theorem softReset : Statement .softReset := by unfold Statement; decide
theorem rleInit : Statement .rleInit := by unfold Statement; decide
theorem rlePush (b : Byte) : Statement (.rlePush b) := by revert b; unfold Statement; decide
theorem rleFlush : Statement .rleFlush := by unfold Statement; decide
theorem rlePushbuf : Statement .rlePushbuf := by unfold Statement; decide
theorem rleEncode : Statement .rleEncode := by unfold Statement; decide
theorem le32Enc : Statement .le32Enc := by unfold Statement; decide
theorem le32Dec : Statement .le32Dec := by unfold Statement; decide
theorem fpParse (k : BitVec 3) (layout : Layout) : Statement (.fpParse k layout) := by
  cases layout <;> revert k <;> unfold Statement <;> decide
theorem fpFrame (k : BitVec 3) (layout : Layout) : Statement (.fpFrame k layout) := by
  cases layout <;> revert k <;> unfold Statement <;> decide

end Sys2Proof.Laws.OpcodeByte
end

