-- ==== Sys2Proof/Tests/Slice0.lean ====
section
/-! SUPPORT. Tests on fixed values, their expected results from spec/95_test_vectors.md (V-*) and
spec/30_encoding.md R93, and, for each obligation with hypotheses, a witness that something meets them. -/
open Sys2Proof Sys2Proof.Machine
namespace Sys2Proof.Tests

/-! ### Small states -/

/-- A chip with 32 input bytes and 16 output bytes. -/
def chip : Config := { idValue := 0x58303752, ibufLast := 31, obufLast := 15 }

/-- That chip after power-on reset and a `load` of B. -/
def loaded (B : Bytes) : State :=
  { State.resetWith chip with ibuf := Memory.writeBytes [] 0 B, inLen := BitVec.ofNat 32 B.length }

/-- The next state, if there is one. -/
def next? : StepResult → Option State
  | .next t => some t
  | .fault _ => none
  | .refused _ => none

/-- STATUS, RLE_STATE, OUT_LEN and the first bytes of OBUF after a result. -/
def outputs (n : Nat) (r : StepResult) : Option (Word × Word × Word × Option Bytes) :=
  (next? r).map fun t => (t.status, rleStateWord t.rle, t.outLen, t.obuf.readBytes 0 n)

/-- STATUS and the fields and the trailer after a parse, as numbers. -/
def fieldsAfter (r : StepResult) : Option (Word × List (Word × Word) × Word × Word) :=
  (next? r).map fun t =>
    (t.status, [(t.fieldOff.r0, t.fieldLen.r0), (t.fieldOff.r1, t.fieldLen.r1), (t.fieldOff.r2, t.fieldLen.r2),
      (t.fieldOff.r3, t.fieldLen.r3)], t.trailOff, t.trailLen)

/-- The last answer after a result. -/
def answer (r : StepResult) : Option Response := (next? r).bind fun t => t.responses.getLast?

/-! ### WellFormed: the one check, K ≤ K_MAX (R92) -/

theorem test_wellFormed_refuses_k5 : (Instr.fpParse 5 .grouped).wellFormed = false := by decide
theorem test_wellFormed_refuses_k7 : (Instr.fpFrame 7 .interleaved).wellFormed = false := by decide
theorem test_wellFormed_takes_k4 : (Instr.fpParse 4 .interleaved).wellFormed = true := by decide

/-! ### Decode: words written out from R90's figure, bits 31 to 0: RSV, LAYOUT, K, IMM8, OP -/

theorem test_decode_nop :
    decodeTableWord 32 0b000000000000_0_000_00000000_00000000 = some .nop := by decide
theorem test_decode_outClear :
    decodeTableWord 32 0b000000000000_0_000_00000000_00000001 = some .outClear := by decide
theorem test_decode_softReset :
    decodeTableWord 32 0b000000000000_0_000_00000000_00000010 = some .softReset := by decide
theorem test_decode_rleInit :
    decodeTableWord 32 0b000000000000_0_000_00000000_00010000 = some .rleInit := by decide
theorem test_decode_rlePush :
    decodeTableWord 32 0b000000000000_0_000_01100010_00010001 = some (.rlePush 0x62) := by decide
theorem test_decode_rleFlush :
    decodeTableWord 32 0b000000000000_0_000_00000000_00010010 = some .rleFlush := by decide
theorem test_decode_rlePushbuf :
    decodeTableWord 32 0b000000000000_0_000_00000000_00010011 = some .rlePushbuf := by decide
theorem test_decode_rleEncode :
    decodeTableWord 32 0b000000000000_0_000_00000000_00010100 = some .rleEncode := by decide
theorem test_decode_le32Enc :
    decodeTableWord 32 0b000000000000_0_000_00000000_00100000 = some .le32Enc := by decide
theorem test_decode_le32Dec :
    decodeTableWord 32 0b000000000000_0_000_00000000_00100001 = some .le32Dec := by decide
theorem test_decode_fpParse :
    decodeTableWord 32 0b000000000000_1_010_00000000_00110000 = some (.fpParse 2 .interleaved) := by decide
theorem test_decode_fpFrame :
    decodeTableWord 32 0b000000000000_0_001_00000000_00110001 = some (.fpFrame 1 .grouped) := by decide
/-- V-IL-9, V-IL-10. -/
theorem test_decode_legal_bounds :
    decodeTableWord 32 0x0000FF11 = some (.rlePush 0xFF) ∧
    decodeTableWord 32 0x000C0031 = some (.fpFrame 4 .interleaved) := by decide
/-- V-IL-1 to V-IL-8: ILLEGAL words. -/
theorem test_decode_illegal :
    [0x00000003, 0x00100000, 0x00050030, 0x00000110, 0x00080011, 0x00000130, 0xFFFFFFFF, 0x00070031].map
      (decodeTableWord 32) = List.replicate 8 none := by decide
/-- V-IL-8's STATUS, on an open run. -/
theorem test_illegal_status :
    outputs 0 (runCommand 0x00070031 { loaded [] with rle := ⟨true, 0x61, 3⟩ })
      = some (0x31000001, 0x00010361, 0, some []) := by decide

/-! ### Control commands -/

/-- V-CT-1, V-CT-4. -/
theorem test_nop :
    outputs 0 (exec .nop { loaded [] with status := 0x30000003, outLen := 16 }) = some (0, 0, 16, some []) := by decide
/-- V-CT-2. -/
theorem test_outClear :
    outputs 4 (exec .outClear { loaded [] with obuf := Memory.writeBytes [] 0 [3, 0x61, 1, 0x62], outLen := 4 })
      = some (0x01000000, 0, 0, some [3, 0x61, 1, 0x62]) := by decide
/-- V-CT-3. -/
theorem test_softReset :
    next? (exec .softReset { loaded [1, 2, 3, 4, 5] with rle := ⟨true, 0x61, 3⟩, outLen := 6, data := 9 })
      = some { loaded [1, 2, 3, 4, 5] with inLen := 0, status := 0x02000000 } := by decide

/-! ### The scalar codec -/

/-- V-LE-3, V-LE-6's appending. -/
theorem test_le32Enc_appends :
    outputs 8 (exec .le32Enc
        { loaded [] with data := 0x12345678, outLen := 4, obuf := Memory.writeBytes [] 0 [0, 0, 0, 0] })
      = some (0x20000000, 0, 8, some [0, 0, 0, 0, 0x78, 0x56, 0x34, 0x12]) := by decide
/-- V-LE-7. -/
theorem test_le32Enc_overflow :
    outputs 0 (exec .le32Enc { loaded [] with data := 1, outLen := 13 }) = some (0x20000002, 0, 13, some []) := by decide
/-- V-LE-9, V-LE-13, V-LE-14. -/
theorem test_le32Dec :
    (next? (exec .le32Dec { loaded [0xAA, 1, 0, 0, 0, 0xBB] with offset := 2, outLen := 16 })).map
      (fun t => (t.data, t.status)) = some (0xBB000000, 0x21000000) := by decide
/-- V-LE-10, V-LE-12. -/
theorem test_le32Dec_short :
    [3, 0xFFFFFFFE].map (fun o =>
        (next? (exec .le32Dec { loaded [0xAA, 1, 0, 0, 0, 0xBB] with offset := o, data := 0x55 })).map
          fun t => (t.data, t.status))
      = [some (0x55, 0x21000005), some (0x55, 0x21000005)] := by decide

/-! ### The run-length encoder -/

/-- V-RLE-1 to V-RLE-3, V-RLE-8, V-RLE-10. -/
theorem test_rle :
    [[], [0x61], [0x61, 0x61, 0x61, 0x62], [0x61, 0x62, 0x61, 0x62], [0, 0, 1]].map rle
      = [[], [1, 0x61], [3, 0x61, 1, 0x62], [1, 0x61, 1, 0x62, 1, 0x61, 1, 0x62], [2, 0, 1, 1]] := by decide
/-- V-L1-10. -/
theorem test_rleDecode : rleDecode [3, 0x61, 1, 0x62] = some [0x61, 0x61, 0x61, 0x62] := by decide
/-- V-RLE-28. -/
theorem test_rleInit :
    outputs 0 (exec .rleInit { loaded [] with rle := ⟨true, 0x61, 5⟩ }) = some (0x10000000, 0, 0, some []) := by decide
/-- V-RLE-22: the 256th equal byte closes a full run. -/
theorem test_rlePush_full_run :
    outputs 2 (exec (.rlePush 0x41) { loaded [] with rle := ⟨true, 0x41, 0xFF⟩ })
      = some (0x11000000, 0x00010141, 2, some [0xFF, 0x41]) := by decide
/-- V-RLE-24. -/
theorem test_rlePush_overflow :
    outputs 0 (exec (.rlePush 0x62) { loaded [] with rle := ⟨true, 0x61, 3⟩, outLen := 15 })
      = some (0x11000002, 0x00010361, 15, some []) := by decide
/-- V-RLE-27. -/
theorem test_rleFlush :
    outputs 2 (exec .rleFlush { loaded [] with rle := ⟨true, 0x62, 1⟩ }) = some (0x12000000, 0, 2, some [1, 0x62]) := by
  decide
/-- V-RLE-29. -/
theorem test_rlePushbuf :
    outputs 2 (exec .rlePushbuf { loaded [0x61, 0x62] with rle := ⟨true, 0x61, 2⟩ })
      = some (0x13000000, 0x00010162, 2, some [3, 0x61]) := by decide
/-- V-RLE-30. -/
theorem test_rleEncode_flushes :
    outputs 2 (exec .rleEncode { loaded [] with rle := ⟨true, 0x61, 2⟩ }) = some (0x14000000, 0, 2, some [2, 0x61]) := by
  decide
/-- V-RLE-31. -/
theorem test_rleEncode_overflow :
    outputs 0 (exec .rleEncode { loaded [0x61, 0x62, 0x63] with cfg := { chip with obufLast := 3 } })
      = some (0x14000002, 0, 0, some []) := by decide

/-! ### UTF-8, parse and frame -/

/-- V-U8-1 to V-U8-10. -/
theorem test_utf8_valid :
    [[], [0x61], [0xC3, 0xA9], [0xE2, 0x82, 0xAC], [0xF0, 0x9F, 0x98, 0x80], [0xE0, 0xA0, 0x80], [0xED, 0x9F, 0xBF],
      [0xEF, 0xBF, 0xBF], [0xF4, 0x8F, 0xBF, 0xBF], [0x61, 0xE2, 0x82, 0xAC, 0x62]].all utf8Valid = true := by decide
/-- V-U8-11 to V-U8-21. -/
theorem test_utf8_invalid :
    [[0xC0, 0x80], [0xC1, 0xBF], [0xE0, 0x80, 0x80], [0xF0, 0x80, 0x80, 0x80], [0xED, 0xA0, 0x80],
      [0xF4, 0x90, 0x80, 0x80], [0xF5, 0x80, 0x80, 0x80], [0xE2, 0x82], [0xC3], [0xFF], [0x80]].any utf8Valid
      = false := by decide
/-- V-PA-9, V-PA-11, V-PA-12: which field is short, and why. -/
theorem test_parse_short :
    parse [1, 0, 0, 0, 2, 0, 0, 0, 0x61, 0x62, 0x63, 0x64] 2 .interleaved = .shortField 1 ∧
    parse [9, 0, 0, 0, 0, 0] 2 .grouped = .shortPrefix 1 ∧
    parse [1, 0, 0, 0, 0x61, 0, 0] 2 .interleaved = .shortPrefix 1 := by decide
/-- V-PA-15: the UTF-8 report. -/
theorem test_fpParse_utf8 :
    fieldsAfter (exec (.fpParse 2 .grouped) (loaded [2, 0, 0, 0, 1, 0, 0, 0, 0xC3, 0xA9, 0xFF, 0x80]))
      = some (0x30120000, [(8, 2), (10, 1), (0, 0), (0, 0)], 11, 1) := by decide
/-- V-PA-13: four empty interleaved fields. -/
theorem test_fpParse_four :
    fieldsAfter (exec (.fpParse 4 .interleaved)
        (loaded [0, 0, 0, 0, 0, 0, 0, 0, 0, 0, 0, 0, 0, 0, 0, 0, 0x7A]))
      = some (0x30000000, [(4, 0), (8, 0), (12, 0), (16, 0)], 16, 1) := by decide

/-- The state of V-FR-1: IBUF "aXbanana", fields (0, 1) and (1, 1), trailer (2, 6). -/
def framing : State :=
  { loaded [0x61, 0x58, 0x62, 0x61, 0x6E, 0x61, 0x6E, 0x61] with
    fieldLen := ⟨1, 1, 0, 0⟩, fieldOff := ⟨0, 1, 0, 0⟩, trailOff := 2, trailLen := 6 }

/-- V-FR-2. -/
theorem test_fpFrame_interleaved :
    outputs 16 (exec (.fpFrame 2 .interleaved) framing) = some (0x31000000, 0, 16,
      some [1, 0, 0, 0, 0x61, 1, 0, 0, 0, 0x58, 0x62, 0x61, 0x6E, 0x61, 0x6E, 0x61]) := by decide
/-- V-FR-7, V-FR-6, V-FR-9: a field out of range before the trailer, the trailer, and no room. -/
theorem test_fpFrame_raises :
    outputs 0 (exec (.fpFrame 1 .grouped) { framing with fieldOff := ⟨0xFFFFFFFF, 1, 0, 0⟩, trailOff := 9, trailLen := 0 })
      = some (0x31000006, 0, 0, some []) ∧
    outputs 0 (exec (.fpFrame 2 .grouped) { framing with trailOff := 8, trailLen := 1 })
      = some (0x31000406, 0, 0, some []) ∧
    outputs 0 (exec (.fpFrame 2 .grouped) { framing with outLen := 1 }) = some (0x31000002, 0, 1, some []) :=
  ⟨by decide, by decide, by decide⟩

/-! ### The host interface -/

/-- V-HI-1 (the clamp), V-HI-2, V-HI-8 (little-endian), V-HI-9 (mixed widths), as single accesses. -/
theorem test_host_answers :
    (next? (serve (.wr32 0x0C 0xFFFFFFFF) (loaded []))).map (·.inLen) = some 32 ∧
    answer (serve (.rd32 0x04) (loaded [])) = some (.word 0) ∧
    answer (serve (.rd32 0x40000000) (loaded [0x78, 0x56, 0x34, 0x12])) = some (.word 0x12345678) ∧
    answer (serve (.rd8 0x40000001) (loaded [0xDD, 0xCC, 0xBB, 0xAA])) = some (.byte 0xCC) := by decide
/-- V-HI-3 to V-HI-7: the bus errors. -/
theorem test_host_bus_errors :
    [Access.rd32 0x50, .rd8 0x08, .rd32 0x40000001, .wr8 0x80000000 0, .wr32 0x08 0].map
      (fun a => next? (serve a (loaded []))) = List.replicate 5 (some { loaded [] with responses := [.busError] }) := by
  decide
/-- V-HI-10. -/
theorem test_host_unwritten : serve (.rd8 0x40000000) (loaded []) = .fault .unwrittenRead := rfl
/-- The first command after reset, whatever the configuration: V-LE-2 and R118. -/
theorem test_first_command :
    (next? (step (State.reset.withFetchWord 32 0x00000020))).map (·.status) ≠ none ∧
    (next? (step (State.reset.withFetchWord 32 0x00000002))).map (·.status) = some 0x02000000 := by decide

/-! ### The consumer profiles -/

/-- A regex engine that knows the four examples of §8 and no more: a pattern is its bytes. -/
def engine : RegexEngine where
  Regex := Bytes
  compile p := if p = [0x28] then none else some p
  isMatch re s := decide (re = [0x61, 0x2B] ∧ s = [0x62, 0x61, 0x61, 0x61, 0x62])
  replaceAll re r s := if re = [0x61] ∧ r = [0x58] ∧ s = [0x62, 0x61, 0x6E, 0x61, 0x6E, 0x61]
    then [0x62, 0x58, 0x6E, 0x58, 0x6E, 0x58] else s

/-- V-RP-1 to V-RP-8. -/
theorem test_replaceOut :
    [[0x61, 0x62], [1, 0, 0, 0, 0x61], [5, 0, 0, 0, 5, 0, 0, 0, 0x61, 0x62], [2, 0, 0, 0, 2, 0, 0, 0, 0x61, 0x62, 0x63],
      [1, 0, 0, 0, 0xFF, 0xFF, 0xFF, 0xFF, 0x61], [1, 0, 0, 0, 1, 0, 0, 0, 0xFF, 0x58, 0x61, 0x62],
      [1, 0, 0, 0, 1, 0, 0, 0, 0x61, 0xFF, 0x61, 0x62], [1, 0, 0, 0, 1, 0, 0, 0, 0x61, 0x58, 0xFF]].map
      (replaceOut engine)
      = [[0x61, 0x62], [1, 0, 0, 0, 0x61], [], [], [], [0x61, 0x62], [0x61, 0x62], [0xFF]] := by decide
/-- V-MA-1 to V-MA-7. -/
theorem test_matchOut :
    [[], [5, 0, 0, 0, 0x61], [1, 0, 0, 0, 0xFF, 0x61], [1, 0, 0, 0, 0x61, 0xFF], [1, 0, 0, 0, 0x28, 0x61],
      [2, 0, 0, 0, 0x61, 0x2B, 0x62, 0x61, 0x61, 0x61, 0x62], [2, 0, 0, 0, 0x7A, 0x2B, 0x62, 0x61, 0x61, 0x61, 0x62]].map
      (matchOut engine)
      = [[0, 0, 0, 0], [0, 0, 0, 0], [0, 0, 0, 0], [0, 0, 0, 0], [0, 0, 0, 0], [1, 0, 0, 0], [0, 0, 0, 0]] := by decide

/-! ### Witnesses: the hypotheses of each obligation are met, at the bounds of their ranges -/

theorem witness_DecodeOfEncode : (Instr.fpFrame 4 .interleaved).wellFormed = true := by decide

theorem witness_EncodeOfDecode : decode 0x000C0031 = .ok (.fpFrame 4 .interleaved) := rfl

theorem witness_IllegalWordsExactly :
    decode 0x00000003 = .error .unknownOpcode ∧ decode 0x80000000 = .error .reservedBits ∧
    decode 0x00000110 = .error .unusedField ∧ decode 0x00080011 = .error .unusedField ∧
    decode 0x00050030 = .error .kOutOfRange := ⟨rfl, rfl, rfl, rfl, rfl⟩

/-- A state with two accesses to come: a command and the read of its status. -/
def waiting (w : Word) : State := (loaded [0x61]).withPending [.wr32 0x04 w, .rd32 0x08]

theorem witness_StepRunsDecodedCommand :
    ((waiting 0x14).pending = .wr32 0x04 0x14 :: [.rd32 0x08] ∧ decode 0x14 = .ok .rleEncode ∧
      (∃ t, exec .rleEncode { waiting 0x14 with pending := [.rd32 0x08] } = .next t)) ∧
    (exec .rleEncode { waiting 0x14 with inLen := 2, pending := [.rd32 0x08] } = .fault .unwrittenRead) ∧
    ((waiting 0x03).pending = .wr32 0x04 0x03 :: [.rd32 0x08] ∧ decode 0x03 = .error .unknownOpcode) ∧
    (loaded []).pending = [] := ⟨⟨rfl, rfl, _, rfl⟩, rfl, ⟨rfl, rfl⟩, rfl⟩

theorem witness_NopResult : opField 0x00000100 = 0x00 ∧ (0x00000100 : Word) ≠ 0 := by decide

theorem witness_RaisedStatusChangesOnlyStatus :
    ∃ t, runCommand 0x20 { loaded [] with outLen := 13 } = .next t ∧ statusCode t.status ≠ 0 :=
  ⟨_, rfl, by decide⟩

/-- One word of each kind of ending: OK with a UTF-8 report, and a code with an index. -/
theorem witness_StatusWrittenWhole :
    (∃ t, runCommand 0x00010030 (loaded [1, 0, 0, 0, 0xFF]) = .next t ∧ statusUtf8Bad t.status = 1) ∧
    ∃ t, runCommand 0x00020031 { framing with trailOff := 8 } = .next t ∧ statusIdx t.status = 4 :=
  ⟨⟨_, rfl, by decide⟩, ⟨_, rfl, by decide⟩⟩

/-- A next state for a command of each code list, at K = 4 and K = 5. -/
theorem witness_CodesOfEachCommand :
    (∃ t, exec .nop (loaded []) = .next t) ∧ (∃ t, exec (.rlePush 0) (loaded []) = .next t) ∧
    (∃ t, exec .le32Dec (loaded []) = .next t) ∧ (∃ t, exec (.fpParse 4 .grouped) (loaded []) = .next t) ∧
    (∃ t, exec (.fpParse 5 .grouped) (loaded []) = .next t) ∧ (∃ t, exec (.fpFrame 4 .grouped) framing = .next t) ∧
    ∃ t, exec (.fpFrame 5 .grouped) framing = .next t :=
  ⟨⟨_, rfl⟩, ⟨_, rfl⟩, ⟨_, rfl⟩, ⟨_, rfl⟩, ⟨_, rfl⟩, ⟨_, rfl⟩, ⟨_, rfl⟩⟩

theorem inputWritten_loaded : (loaded [0x61, 0x61, 0x62]).inputWritten := by
  show ∀ i, i < (3 : Nat) → _
  decide

theorem witness_EveryWordEndsWithStatus :
    (loaded [0x61, 0x61, 0x62]).inputWritten ∧ (loaded [0x61, 0x61, 0x62]).inLen = 3 := ⟨inputWritten_loaded, rfl⟩

theorem witness_UnwrittenReadExactly :
    exec .rlePushbuf { loaded [0x61] with inLen := 2 } = .fault .unwrittenRead ∧
    readsUnwritten .rlePushbuf { loaded [0x61] with inLen := 2 } := ⟨rfl, 1, by decide, rfl⟩

theorem witness_FrameOfEveryCommand :
    (∃ t, exec .softReset framing = .next t) ∧ (∃ t, exec .le32Enc framing = .next t) ∧
    ∃ t, exec (.fpParse 0 .grouped) framing = .next t := ⟨⟨_, rfl⟩, ⟨_, rfl⟩, ⟨_, rfl⟩⟩

/-- Two states that differ in STATUS, OBUF, an input byte at IN_LEN and the session, and in no operand. -/
theorem witness_OutcomeDependsOnOperandsOnly :
    (loaded [0x61, 0x61]).SameOperands
        { loaded [0x61, 0x61, 0x7A] with inLen := 2, status := 0x10000000, obuf := [(3, 9)], responses := [.accepted] } ∧
      ∃ t, exec .rleEncode (loaded [0x61, 0x61]) = .next t := by
  refine ⟨⟨rfl, rfl, ?_, rfl, rfl, rfl, rfl, rfl, rfl, rfl, rfl⟩, _, rfl⟩
  show ∀ a, a < (2 : Nat) → _
  decide

theorem witness_ScalarRoundTrips : ([0xFF, 0, 0, 0x80] : Bytes).length = 4 := by decide

/-- The last OUT_LEN with room for 4 bytes, and the first without. -/
theorem witness_Le32EncResult :
    (12#32).toNat + 4 ≤ chip.obufSize ∧ chip.obufSize < (13#32).toNat + 4 := by decide

theorem witness_Le32DecResult :
    (2#32).toNat + 4 ≤ (loaded [0xAA, 1, 0, 0, 0, 0xBB]).inLen.toNat ∧
    (loaded [0xAA, 1, 0, 0, 0, 0xBB]).ibuf.readBytes 2 4 = some [0, 0, 0, 0xBB] ∧
    (loaded [0xAA, 1, 0, 0, 0, 0xBB]).inLen.toNat < (3#32).toNat + 4 := by decide

/-- Counts 254 and 255, and a byte other than the run's. -/
theorem witness_RleStepAndFlush : (254#8).toNat < 255 ∧ (0x62 : Byte) ≠ 0x61 := by decide

/-- An open run of three at the last OUT_LEN with room for a pair, and at the first without; and with nothing to emit. -/
theorem witness_RlePushResult :
    { loaded [] with rle := ⟨true, 0x61, 3⟩, outLen := 14 : State }.fits (rleStep ⟨true, 0x61, 3⟩ 0x62).2 ∧
    ¬ { loaded [] with rle := ⟨true, 0x61, 3⟩, outLen := 15 : State }.fits (rleStep ⟨true, 0x61, 3⟩ 0x62).2 ∧
    { loaded [] with rle := ⟨true, 0x61, 3⟩, outLen := 16 : State }.fits (rleStep ⟨true, 0x61, 3⟩ 0x61).2 := by
  refine ⟨?_, ?_, ?_⟩ <;> unfold State.fits <;> decide

theorem witness_RleFlushResult :
    (⟨true, 0x61, 3⟩ : RleState).valid = true ∧ (14#32).toNat + 2 ≤ chip.obufSize ∧
    chip.obufSize < (15#32).toNat + 2 ∧ RleState.idle.valid = false := by decide

/-- A written input of three bytes, with just enough room for what each command emits, and with one byte less. -/
theorem witness_RlePushbufResult_RleEncodeResult :
    ([0x61, 0x61, 0x62] : Bytes).length = (loaded [0x61, 0x61, 0x62]).inLen.toNat ∧
    (∀ j, j < 3 → (loaded [0x61, 0x61, 0x62]).ibuf.read j = ([0x61, 0x61, 0x62] : Bytes)[j]?) ∧
    ({ loaded [0x61, 0x61, 0x62] with outLen := 14 : State }.fits (rleRun RleState.idle [0x61, 0x61, 0x62]).2 ∧
      ¬ { loaded [0x61, 0x61, 0x62] with outLen := 15 : State }.fits (rleRun RleState.idle [0x61, 0x61, 0x62]).2) ∧
    { loaded [0x61, 0x61, 0x62] with outLen := 12 : State }.fits (rleRunFlush RleState.idle [0x61, 0x61, 0x62]).2 ∧
    ¬ { loaded [0x61, 0x61, 0x62] with outLen := 13 : State }.fits (rleRunFlush RleState.idle [0x61, 0x61, 0x62]).2 := by
  unfold State.fits
  decide

/-- One full run exactly: n = 255. -/
theorem witness_RleOfRepeatedByte : 1 ≤ 255 ∧ 255 % 255 = 0 := by decide

/-- R161's two ways on V-RLE-32's bytes: "aa" pushed, then "ab" encoded; and "aab" pushed byte by byte. -/
theorem witness_RleStreaming :
    (∃ s₂ s₄, exec .rlePushbuf (loaded [0x61, 0x61]) = .next s₂ ∧ statusCode s₂.status = 0 ∧
      inputBytes (loaded [0x61, 0x61]) = some [0x61, 0x61] ∧
      inputBytes { s₂ with ibuf := Memory.writeBytes [] 0 [0x61, 0x62] } = some [0x61, 0x62] ∧
      exec .rleEncode { s₂ with ibuf := Memory.writeBytes [] 0 [0x61, 0x62] } = .next s₄ ∧ statusCode s₄.status = 0) ∧
    (commandsOk (([0x61, 0x61, 0x62] : Bytes).map .rlePush ++ [.rleFlush]) (loaded [])).isSome :=
  ⟨⟨_, _, rfl, by decide, rfl, rfl, rfl, by decide⟩, by decide⟩

/-- Three input bytes and room for exactly 2 * 3 + 2 more. -/
theorem witness_RleOutputSize :
    { loaded [0x61, 0x61, 0x62] with outLen := 8 : State }.inputWritten ∧
    (8#32).toNat + (2 * 3 + 2) ≤ chip.obufSize := ⟨inputWritten_loaded, by decide⟩

/-- U+00E9 after "a", cut in its middle. -/
theorem witness_Utf8Consequences :
    utf8Valid [0x61] = true ∧ Utf8Sequence ([0xC3] ++ [0xA9]) ∧ ([0xC3] : Bytes) ≠ [] ∧ ([0xA9] : Bytes) ≠ [] :=
  ⟨by decide, .two _ _ (by unfold byteIn; decide) (by unfold byteIn; decide), by decide, by decide⟩

/-- Three bytes; a field of 2 with 1 and with 2 bytes behind its prefix. -/
theorem witness_ParseSmallCases :
    ([1, 2, 3] : Bytes).length < 4 ∧ 2 = (2#8).toNat + 2 ^ 8 * (0#8).toNat + 2 ^ 16 * (0#8).toNat + 2 ^ 24 * (0#8).toNat ∧
    ([0x61] : Bytes).length < 2 ∧ 2 ≤ ([0x61, 0x62] : Bytes).length ∧ ([0x61] : Bytes).length ≤ 2 ^ 30 := by decide

/-- Two prefixes that declare 1 and 2, on a buffer they fill; and that declare 1 and 3 there, so that field 1 is the first
short by one byte. -/
theorem witness_GroupedParseShortOutcomes :
    (([1, 2] : List Nat).length = 2 ∧
      (∀ i, i < 2 → prefixAt [1, 0, 0, 0, 2, 0, 0, 0, 0x61, 0x62, 0x63] (4 * i) = ([1, 2] : List Nat)[i]?) ∧
      4 * 2 + ([1, 2] : List Nat).sum ≤ ([1, 0, 0, 0, 2, 0, 0, 0, 0x61, 0x62, 0x63] : Bytes).length) ∧
    (∀ i, i < 2 → prefixAt [1, 0, 0, 0, 3, 0, 0, 0, 0x61, 0x62, 0x63] (4 * i) = ([1, 3] : List Nat)[i]?) ∧
    4 * 2 + (([1, 3] : List Nat).take 1).sum ≤ 11 ∧ 11 < 4 * 2 + (([1, 3] : List Nat).take 2).sum := by decide

/-- V-PA-12's shape (prefix 1 one byte short), V-PA-9's shape (field 1 one byte short) and an exact fit of two fields. -/
theorem witness_InterleavedParseOutcomes :
    (interleavedFits [1, 0, 0, 0, 0x61, 0, 0, 0] [1] ∧ 8 < interleavedStart [1] + 4) ∧
    (interleavedFits [1, 0, 0, 0, 0x61, 2, 0, 0, 0, 0x62] [1] ∧
      prefixAt [1, 0, 0, 0, 0x61, 2, 0, 0, 0, 0x62] (interleavedStart [1]) = some 2 ∧
      10 < interleavedStart [1] + 4 + 2) ∧
    ([1, 1] : List Nat).length = 2 ∧ interleavedFits [1, 0, 0, 0, 0x61, 1, 0, 0, 0, 0x62] [1, 1] := by
  refine ⟨⟨fun i len h => ?_, by decide⟩, ⟨fun i len h => ?_, by decide, by decide⟩, rfl, fun i len h => ?_⟩
  · match i, h with
    | 0, h => cases h; decide
  · match i, h with
    | 0, h => cases h; decide
  · match i, h with
    | 0, h => cases h; decide
    | 1, h => cases h; decide

/-- Which field is short, by hand from R184 and R185: field 0 and field 1 under GROUPED, field 1 under INTERLEAVED. -/
theorem test_parse_short_index :
    parse [4, 0, 0, 0, 0, 0, 0, 0, 0x61, 0x62, 0x63] 2 .grouped = .shortField 0 ∧
    parse [1, 0, 0, 0, 3, 0, 0, 0, 0x61, 0x62, 0x63] 2 .grouped = .shortField 1 ∧
    parse [1, 0, 0, 0, 0x61, 2, 0, 0, 0, 0x62] 2 .interleaved = .shortField 1 := by decide

theorem witness_ParsedFieldsFit :
    parse [1, 0, 0, 0, 2, 0, 0, 0, 0x61, 0x62, 0x63] 2 .grouped = .ok [(8, 1), (9, 2)] 11 0 := by decide

/-- Four fields, one of them empty; and a buffer that four fields fill exactly. -/
theorem witness_ParseFrameRoundTrips :
    (([[0x61], [], [0x62, 0x63], [0xFF]] : List Bytes).length ≤ 4 ∧
      ∀ f ∈ ([[0x61], [], [0x62, 0x63], [0xFF]] : List Bytes), f.length ≤ 2 ^ 32 - 1) ∧
    parse [0, 0, 0, 0, 0, 0, 0, 0, 0, 0, 0, 0, 0, 0, 0, 0] 4 .interleaved
      = .ok [(4, 0), (8, 0), (12, 0), (16, 0)] 16 0 := by decide

/-- K = 4 on a buffer it fills, and a buffer too short at the second prefix and at the first field. -/
theorem witness_FpParseResult :
    (4#3).toNat ≤ 4 ∧ ([1, 0, 0, 0, 0x61, 0] : Bytes).length = (loaded [1, 0, 0, 0, 0x61, 0]).inLen.toNat ∧
    (∀ j, j < 6 → (loaded [1, 0, 0, 0, 0x61, 0]).ibuf.read j = ([1, 0, 0, 0, 0x61, 0] : Bytes)[j]?) ∧
    parse [1, 0, 0, 0, 0x61, 0] 1 .grouped = .ok [(4, 1)] 5 1 ∧
    parse [1, 0, 0, 0, 0x61, 0] 4 .interleaved = .shortPrefix 1 ∧
    parse [1, 0, 0, 0] 1 .interleaved = .shortField 0 := by decide

/-- Words of FP_PARSE and FP_FRAME with K = 5, the least illegal value, and with one bit of IMM8 or of RSV. -/
theorem witness_FpParseResult_FpFrameResult_words :
    (opField 0x00050030 = 0x30 ∧ 5 ≤ (kField 0x00050030).toNat) ∧
    (opField 0x00000131 = 0x31 ∧ imm8Field 0x00000131 ≠ 0) ∧
    (opField 0x00100031 = 0x31 ∧ rsvField 0x00100031 ≠ 0) := by decide

/-- V-FR-5: field 1 ends one byte past the input. V-FR-6: the trailer does. V-FR-1: both end inside it. -/
theorem witness_FpFrameResult :
    (2#3).toNat ≤ 4 ∧
    ((fieldRegions 2 { framing with fieldOff := ⟨0, 7, 0, 0⟩, fieldLen := ⟨1, 2, 0, 0⟩ })[1]? = some (7, 2) ∧
      framing.inLen.toNat < 7 + 2 ∧ 0 + 1 ≤ framing.inLen.toNat) ∧
    ((∀ r ∈ fieldRegions 2 framing, r.1 + r.2 ≤ framing.inLen.toNat) ∧ framing.inLen.toNat < (8#32).toNat + (1#32).toNat) ∧
    framing.trailOff.toNat + framing.trailLen.toNat ≤ framing.inLen.toNat ∧
    ([[0x61], [0x58]] : List Bytes).map some = (fieldRegions 2 framing).map (fun r => framing.ibuf.readBytes r.1 r.2) ∧
    some [0x62, 0x61, 0x6E, 0x61, 0x6E, 0x61] = framing.ibuf.readBytes framing.trailOff.toNat framing.trailLen.toNat := by
  decide

/-- The 16 framed bytes of V-FR-1 fill the 16 bytes of OBUF exactly, and do not fit after one byte. -/
theorem witness_FpFrameResult_room :
    framing.fits (frame [[0x61], [0x58]] [0x62, 0x61, 0x6E, 0x61, 0x6E, 0x61] .grouped) ∧
    ¬ { framing with outLen := 1 : State }.fits
      (frame [[0x61], [0x58]] [0x62, 0x61, 0x6E, 0x61, 0x6E, 0x61] .grouped) := by
  unfold State.fits
  decide

/-- A parse that succeeds on 6 bytes, with room for exactly those 6. -/
theorem witness_FrameAfterParseCopiesInput :
    inputBytes (loaded [1, 0, 0, 0, 0x61, 0]) = some [1, 0, 0, 0, 0x61, 0] ∧
    ∃ t, exec (.fpParse 1 .grouped) { loaded [1, 0, 0, 0, 0x61, 0] with outLen := 10 } = .next t ∧
      statusCode t.status = 0 ∧ t.outLen.toNat + 6 ≤ t.cfg.obufSize := ⟨rfl, _, rfl, by decide, by decide⟩

/-- Three bytes; a pattern one byte short; and the three other fallbacks, on buffers that parse. -/
theorem witness_MatchProfileFallbacks :
    ([0, 0, 0] : Bytes).length < 4 ∧ prefixAt [2, 0, 0, 0, 0x61] 0 = some 2 ∧
    ([2, 0, 0, 0, 0x61] : Bytes).length < 4 + 2 ∧ prefixAt [1, 0, 0, 0, 0xFF] 0 = some 1 ∧
    4 + 1 ≤ ([1, 0, 0, 0, 0xFF] : Bytes).length ∧ utf8Valid (slice [1, 0, 0, 0, 0xFF] 4 1) = false ∧
    utf8Valid (([1, 0, 0, 0, 0x61, 0xFF] : Bytes).drop (4 + 1)) = false ∧
    (engine.compile (slice [1, 0, 0, 0, 0x28, 0x61] 4 1)).isNone = true ∧
    (engine.compile (slice [1, 0, 0, 0, 0x61] 4 1)).isSome = true := by decide

/-- V-RP-2, V-RP-4, V-RP-6 and V-L1-6's buffers. -/
theorem witness_ReplaceProfileFallbacks :
    ([1, 0, 0, 0, 0x61] : Bytes).length < 8 ∧
    (prefixAt [2, 0, 0, 0, 2, 0, 0, 0, 0x61, 0x62, 0x63] 0 = some 2 ∧
      prefixAt [2, 0, 0, 0, 2, 0, 0, 0, 0x61, 0x62, 0x63] 4 = some 2 ∧
      ([2, 0, 0, 0, 2, 0, 0, 0, 0x61, 0x62, 0x63] : Bytes).length < 8 + 2 + 2) ∧
    utf8Valid (slice [1, 0, 0, 0, 1, 0, 0, 0, 0xFF, 0x58, 0x61, 0x62] 8 1) = false ∧
    (utf8Valid (slice [1, 0, 0, 0, 1, 0, 0, 0, 0x61, 0x58] 8 1) = true ∧
      utf8Valid (slice [1, 0, 0, 0, 1, 0, 0, 0, 0x61, 0x58] (8 + 1) 1) = true ∧
      utf8Valid (([1, 0, 0, 0, 1, 0, 0, 0, 0x61, 0x58] : Bytes).drop (8 + 1 + 1)) = true ∧
      (engine.compile (slice [1, 0, 0, 0, 1, 0, 0, 0, 0x61, 0x58] 8 1)).isSome = true) := by decide

theorem witness_SourceExamplesOfProfiles : engine.MeetsExamples := ⟨by decide, by decide, by decide, by decide⟩

/-- V-L1-2's input, with the last OUT_LEN that leaves room for 4 bytes. -/
theorem witness_MatchSequenceOnBlock :
    inputBytes { loaded [2, 0, 0, 0, 0x61, 0x2B, 0x62, 0x61, 0x61, 0x61, 0x62] with outLen := 12 }
      = some [2, 0, 0, 0, 0x61, 0x2B, 0x62, 0x61, 0x61, 0x61, 0x62] ∧ (12#32).toNat + 4 ≤ chip.obufSize := by decide

theorem witness_BusErrorsExactly :
    isBusError chip (.rd32 0x50) ∧ isBusError chip (.rd32 0x40000020) ∧ isBusError chip (.wr32 0x40000001 0) ∧
    ¬ isBusError chip (.rd32 0x4000001C) ∧ ¬ isBusError chip (.wr32 0x4C 0) := by
  simp only [isBusError, unmappedAddress, misplaced, readOnlyOffset, inIbufWindow, inObufWindow]
  exact ⟨by decide, by decide, by decide, by decide, by decide⟩

theorem witness_ReadsHaveNoSideEffects :
    (∃ t, serve (.rd32 0x4C) (loaded [7]) = .next t) ∧ (∃ t, serve (.rd16 0x0C) (loaded [7]) = .next t) ∧
    ∃ t, serve (.rd8 0x40000000) (loaded [7]) = .next t := ⟨⟨_, rfl⟩, ⟨_, rfl⟩, ⟨_, rfl⟩⟩

/-- A state with two committed output bytes and an open run is legal. -/
theorem legal_running :
    { loaded [0x61, 0x62] with
      rle := ⟨true, 0x62, 255⟩, outLen := 2, obuf := [(0, 1), (1, 0x61)], status := 0x30120000 : State }.Legal := by
  refine ⟨by decide, by decide, ⟨by decide, by decide⟩, ⟨by decide, by decide, by decide, by decide⟩,
    ⟨by decide, by decide⟩, ⟨by decide, by decide⟩, ?_⟩
  show ∀ i, i < (2 : Nat) → _
  decide

theorem witness_RegisterReads_RegisterWritesReadBack :
    Reg.fieldLen3 ∈ [Reg.data, .offset, .trailOff, .trailLen, .fieldOff0, .fieldOff1, .fieldOff2, .fieldOff3, .fieldLen0,
      .fieldLen1, .fieldLen2, .fieldLen3] ∧
    ∃ s : State, s.Legal ∧ rleStateWord s.rle = 0x0001FF62 := ⟨by decide, _, legal_running, by decide⟩

/-- The first and last byte of each buffer, stored and not. -/
theorem witness_HostByteAccess :
    0 < chip.ibufSize ∧ 31 < chip.ibufSize ∧ 15 < chip.obufSize ∧ (loaded [7]).ibuf.read 0 = some 7 ∧
    (loaded [7]).ibuf.read 31 = none ∧ (loaded [7]).obuf.read 15 = none ∧
    { loaded [] with obuf := [(15, 9)] : State }.obuf.read 15 = some 9 := by decide

/-- The last aligned word of each buffer, and words whose last and first byte no store has reached. -/
theorem witness_WordAccessLittleEndian :
    28 % 4 = 0 ∧ 28 + 4 ≤ chip.ibufSize ∧ 12 + 4 ≤ chip.obufSize ∧
    Memory.readBytes (Memory.writeBytes [] 28 [1, 2, 3, 4]) 28 4 = some [1, 2, 3, 4] ∧
    (loaded [1, 2, 3]).ibuf.written (0 + 3) = false ∧ (loaded []).obuf.written (12 + 0) = false := by decide

/-- IBUF's last word holds 1, 2, 3 and b. -/
def lastWord (b : Byte) (rs : List Response) : State :=
  { loaded [] with ibuf := [(28, 1), (29, 2), (30, 3), (31, b)], responses := rs }

/-- The last byte of a written word of IBUF, changed alone and read within its word; and a word, then its last byte. -/
theorem witness_MixedWidthAccess :
    (31 < chip.ibufSize ∧ next? (serve (.wr8 0x4000001F 9) (lastWord 4 [])) = some (lastWord 9 [.accepted]) ∧
      next? (serve (.rd32 0x4000001C) (lastWord 9 [.accepted]))
        = some (lastWord 9 ([.accepted] ++ [.word 0x09030201]))) ∧
    (28 % 4 = 0 ∧ 28 + 4 ≤ chip.ibufSize ∧ 3 < 4 ∧
      next? (serve (.wr32 0x4000001C 0x04030201) (loaded [])) = some (lastWord 4 [.accepted])) :=
  ⟨⟨by decide, by decide +kernel, by decide⟩, by decide, by decide, by decide, by decide +kernel⟩

/-- A load that fills IBUF. -/
theorem witness_LoadMakesInput :
    { State.resetWith { chip with ibufLast := 1 } with pending := load [7, 8] : State }.pending = load [7, 8] ∧
    ([7, 8] : Bytes).length ≤ { chip with ibufLast := 1 : Config }.ibufSize := by decide

/-- A host that reads STATUS, and, if it is not 0, sends a NOP. -/
def readThenNop : HostProgram
  | [] => some (rdReg .status)
  | [.word w] => if w = 0 then none else some (command .nop)
  | _ => none

theorem witness_AdaptiveHostRunsAreSessions :
    (loaded []).pending = [] ∧ ∃ t, runHostProgram readThenNop 5 { loaded [] with status := 1 } = .next t ∧
      t.status = 0 ∧ t.responses = [.word 1, .accepted] := ⟨rfl, _, rfl, by decide, by decide⟩

/-- The least and the greatest sizes, and each bound overstepped. -/
theorem witness_BadConfigurationsRefused :
    (1 ≤ 1 ∧ 1 ≤ 2 ^ 30 ∧ 1 ≤ 2 ^ 30 ∧ 2 ^ 30 ≤ 2 ^ 30) ∧
    ¬ (1 ≤ 0 ∧ 0 ≤ 2 ^ 30) ∧ ¬ (1 ≤ 2 ^ 30 + 1 ∧ 2 ^ 30 + 1 ≤ 2 ^ 30) := by omega

theorem witness_LegalKeptByStep_ConstantsAndWrittenFlagsKept :
    ∃ s t : State, s.Legal ∧ step s = .next t ∧ s.ibuf.written 1 = true ∧ s.obuf.written 1 = true := by
  refine ⟨_, _, ⟨legal_running.inLen_le, legal_running.outLen_le, legal_running.rle_legal, legal_running.status_legal,
    legal_running.ibuf_legal, legal_running.obuf_legal, legal_running.output_written⟩, rfl, rfl, rfl⟩

end Sys2Proof.Tests
end

section
/-! PROOFS. The state family (spec/10_state.md): what a command stages or raises, what one access and one step do to the
state, and the invariant of every legal state; then the obligations on registers, sessions of writes, and reset. -/
namespace Sys2Proof.Machine

/-! ### The register map, by the register's name -/

theorem locate_address (c : Config) (r : Reg) : locate c r.address = .window r.address.toNat := by
  have hlt : r.address.toNat < 0x100 := by cases r <;> decide
  simp [locate, hlt]

theorem registerAt_address (r : Reg) : registerAt r.address.toNat = some r := by cases r <;> rfl

theorem aligned_address (r : Reg) : aligned r.address = true := by cases r <;> rfl

/-- A 32-bit read of a register answers its value and changes nothing (R22). -/
theorem serve_rdReg (r : Reg) (s : State) : serve (rdReg r) s = .next (s.respond (.word (readReg s r))) := by
  simp [rdReg, serve, serveRead32, aligned_address, locate_address, registerAt_address]

theorem serve_wrReg (r : Reg) (w : Word) (s : State) : serve (wrReg r w) s = serveWriteReg r w s := by
  simp [wrReg, serve, serveWrite32, aligned_address, locate_address, registerAt_address]

/-- A 32-bit write of CMD runs the command (R24). -/
theorem serve_wrReg_cmd (w : Word) (s : State) : serve (wrReg .cmd w) s = accept (runCommand w s) := by
  simp [serve_wrReg, serveWriteReg]

/-- A 32-bit write of a register that holds what it is given is accepted. -/
theorem serve_wrReg_of_writeReg (r : Reg) (w : Word) (s u : State) (h : writeReg s w r = some u) :
    serve (wrReg r w) s = .next (u.respond .accepted) := by
  have hcmd : r ≠ .cmd := by rintro rfl; cases h
  simp [serve_wrReg, serveWriteReg, hcmd, h, accept]

/-- IN_LEN is clamped to the size of IBUF (R27), which a word can hold. -/
theorem clampInLen_toNat (s : State) (w : Word) : (clampInLen s w).toNat = min w.toNat s.cfg.ibufSize := by
  have hw := w.isLt
  simp only [clampInLen, BitVec.toNat_ofNat]
  exact Nat.mod_eq_of_lt (by omega)

@[simp] theorem readReg_respond (s : State) (a : Response) (q : Reg) : readReg (s.respond a) q = readReg s q := by
  cases q <;> rfl

/-- What a host write of a register leaves alone: all but IN_LEN, DATA, OFFSET, TRAIL and the FIELD registers; and IN_LEN
is never written but by its clamp. -/
theorem writeReg_keeps (s u : State) (w : Word) (r : Reg) (h : writeReg s w r = some u) :
    u.cfg = s.cfg ∧ u.status = s.status ∧ u.outLen = s.outLen ∧ u.rle = s.rle ∧ u.ibuf = s.ibuf ∧ u.obuf = s.obuf ∧
    u.pending = s.pending ∧ u.responses = s.responses ∧ (u.inLen = s.inLen ∨ u.inLen = clampInLen s w) := by
  cases r <;> cases h <;> simp

/-- A host write of one register changes no other register. -/
theorem readReg_writeReg_other (s u : State) (w : Word) (r q : Reg) (h : writeReg s w r = some u) (hq : q ≠ r) :
    readReg u q = readReg s q := by
  revert hq
  cases r <;> cases h <;> cases q <;> simp [readReg]

/-! ### The index a raised status reports -/

/-- The field a parse stopped at, if it did (43_framing.md R183). -/
def ParseResult.shortIndex : ParseResult → Option Nat
  | .ok _ _ _ => none
  | .shortPrefix i => some i
  | .shortField i => some i

theorem groupedLengths_error_lt (B : Bytes) (i n j : Nat) (h : groupedLengths B i n = .error j) : j < i + n := by
  induction n generalizing i with
  | zero => cases h
  | succ n ih =>
    simp only [groupedLengths] at h
    split at h
    · cases h; omega
    · split at h
      · next j' hj =>
        cases h
        have := ih (i + 1) hj
        omega
      · cases h

theorem groupedLengths_ok_length (B : Bytes) (i n : Nat) (lens : List Nat) (h : groupedLengths B i n = .ok lens) :
    lens.length = n := by
  induction n generalizing i lens with
  | zero => cases h; rfl
  | succ n ih =>
    simp only [groupedLengths] at h
    split at h
    · cases h
    · split at h
      · cases h
      · next lens' hl => cases h; simp [ih (i + 1) lens' hl]

theorem placeFields_shortIndex_lt (L i p j : Nat) (lens : List Nat)
    (h : (placeFields L i p lens).shortIndex = some j) : j < i + lens.length := by
  induction lens generalizing i p with
  | nil => cases h
  | cons len lens ih =>
    have hrest := ih (i + 1) (p + len)
    simp only [placeFields, List.length_cons] at h ⊢
    split at h
    · cases h; omega
    · split at h
      · cases h
      · have := hrest h; omega

theorem parseInterleavedFrom_shortIndex_lt (B : Bytes) (n i p j : Nat)
    (h : (parseInterleavedFrom B n i p).shortIndex = some j) : j < i + n := by
  induction n generalizing i p with
  | zero => cases h
  | succ n ih =>
    simp only [parseInterleavedFrom] at h
    split at h
    · cases h; omega
    · next len _ =>
      have hrest := ih (i + 1) (p + 4 + len)
      split at h
      · cases h; omega
      · split at h
        · cases h
        · have := hrest h; omega

/-- A parse of k fields that stops does so at one of them. -/
theorem parse_shortIndex_lt (B : Bytes) (k j : Nat) (layout : Layout) (h : (parse B k layout).shortIndex = some j) :
    j < k := by
  cases layout with
  | grouped =>
    simp only [parse, parseGrouped] at h
    split at h
    · next i hi =>
      cases h
      simpa using groupedLengths_error_lt B 0 k j hi
    · next lens hl =>
      simpa [groupedLengths_ok_length B 0 k lens hl] using placeFields_shortIndex_lt _ _ _ _ _ h
  | interleaved => simpa using parseInterleavedFrom_shortIndex_lt B k 0 0 j h

theorem firstOutOfRange_lt (L i j : Nat) (rs : List Span) (h : firstOutOfRange L i rs = some j) : j < i + rs.length := by
  induction rs generalizing i with
  | nil => cases h
  | cons r rs ih =>
    simp only [firstOutOfRange, List.length_cons] at h ⊢
    split at h
    · have := ih (i + 1) h; omega
    · cases h; omega

theorem fieldRegions_length_le (k : Nat) (s : State) : (fieldRegions k s).length ≤ 4 := by
  simp [fieldRegions]

/-! ### What a command stages, and what it raises -/

/-- `Stages s i st`: in state s, command i gets to its commit with `st` staged (40_control.md R111). -/
inductive Stages (s : State) : Instr → Staged → Prop where
  | nop : Stages s .nop {}
  | outClear : Stages s .outClear { outLen := some 0 }
  | softReset : Stages s .softReset
      { inLen := some 0, outLen := some 0, data := some 0, offset := some 0, rle := some RleState.idle,
        trailOff := some 0, trailLen := some 0, fieldOff := some FieldBank.zero, fieldLen := some FieldBank.zero }
  | rleInit : Stages s .rleInit { rle := some RleState.idle }
  | rlePush (b : Byte) : Stages s (.rlePush b) { output := (rleStep s.rle b).2, rle := some (rleStep s.rle b).1 }
  | rleFlush : Stages s .rleFlush { output := (rleFlush s.rle).2, rle := some (rleFlush s.rle).1 }
  | rlePushbuf (B : Bytes) (hB : inputBytes s = some B) :
      Stages s .rlePushbuf { output := (rleRun s.rle B).2, rle := some (rleRun s.rle B).1 }
  | rleEncode (B : Bytes) (hB : inputBytes s = some B) :
      Stages s .rleEncode { output := (rleRunFlush s.rle B).2, rle := some (rleRunFlush s.rle B).1 }
  | le32Enc : Stages s .le32Enc { output := enc32 s.data }
  | le32Dec (B : Bytes) (hfit : s.offset.toNat + 4 ≤ inputLength s) (hB : readRegion s (s.offset.toNat, 4) = some B) :
      Stages s .le32Dec { data := dec32 B }
  | fpParse (k : BitVec 3) (layout : Layout) (B : Bytes) (fields : List Span) (toff tlen : Nat) (hk : kLegal k = true)
      (hB : inputBytes s = some B) (hparse : parse B k.toNat layout = .ok fields toff tlen) :
      Stages s (.fpParse k layout) (stagedParse B fields toff tlen)
  | fpFrame (k : BitVec 3) (layout : Layout) (F : List Bytes) (T : Bytes) (hk : kLegal k = true)
      (hfields : firstOutOfRange (inputLength s) 0 (fieldRegions k.toNat s) = none)
      (htrail : inRange (inputLength s) (trailRegion s) = true)
      (hF : readRegions s (fieldRegions k.toNat s) = some F) (hT : readRegion s (trailRegion s) = some T) :
      Stages s (.fpFrame k layout) { output := frame F T layout }

/-- `Raises s i code idx`: in state s, command i ends with that code and index before it gets to a commit
(40_control.md R112). -/
inductive Raises (s : State) : Instr → Code → Nat → Prop where
  | shortData (hshort : inputLength s < s.offset.toNat + 4) : Raises s .le32Dec .shortData 0
  | parseIllegal (k : BitVec 3) (layout : Layout) (hk : kLegal k = false) : Raises s (.fpParse k layout) .illegal 0
  | shortPrefix (k : BitVec 3) (layout : Layout) (B : Bytes) (i : Nat) (hk : kLegal k = true)
      (hB : inputBytes s = some B) (hparse : parse B k.toNat layout = .shortPrefix i) :
      Raises s (.fpParse k layout) .shortPrefix i
  | shortField (k : BitVec 3) (layout : Layout) (B : Bytes) (i : Nat) (hk : kLegal k = true)
      (hB : inputBytes s = some B) (hparse : parse B k.toNat layout = .shortField i) :
      Raises s (.fpParse k layout) .shortField i
  | frameIllegal (k : BitVec 3) (layout : Layout) (hk : kLegal k = false) : Raises s (.fpFrame k layout) .illegal 0
  | fieldRange (k : BitVec 3) (layout : Layout) (i : Nat) (hk : kLegal k = true)
      (hfield : firstOutOfRange (inputLength s) 0 (fieldRegions k.toNat s) = some i) :
      Raises s (.fpFrame k layout) .range i
  | trailRange (k : BitVec 3) (layout : Layout) (hk : kLegal k = true)
      (hfields : firstOutOfRange (inputLength s) 0 (fieldRegions k.toNat s) = none)
      (htrail : inRange (inputLength s) (trailRegion s) = false) :
      Raises s (.fpFrame k layout) .range trailerIndex

/-- The two ends of a command that gives a next state, with what led to each: `exec_cases` without its fault, and with
the staged writes and the raised status named. -/
theorem exec_next_cases (i : Instr) (s t : State) (h : exec i s = .next t) :
    (∃ st, Stages s i st ∧ t = commit i.opcode st s) ∨
    (∃ code idx, Raises s i code idx ∧ t = raiseStatus code idx i.opcode s) := by
  cases i with
  | nop => cases h; exact .inl ⟨_, .nop, rfl⟩
  | outClear => cases h; exact .inl ⟨_, .outClear, rfl⟩
  | softReset => cases h; exact .inl ⟨_, .softReset, rfl⟩
  | rleInit => cases h; exact .inl ⟨_, .rleInit, rfl⟩
  | rlePush b => cases h; exact .inl ⟨_, .rlePush b, rfl⟩
  | rleFlush => cases h; exact .inl ⟨_, .rleFlush, rfl⟩
  | rlePushbuf =>
    simp only [exec, execRlePushbuf] at h
    split at h
    · cases h
    · next B hB => cases h; exact .inl ⟨_, .rlePushbuf B hB, rfl⟩
  | rleEncode =>
    simp only [exec, execRleEncode] at h
    split at h
    · cases h
    · next B hB => cases h; exact .inl ⟨_, .rleEncode B hB, rfl⟩
  | le32Enc => cases h; exact .inl ⟨_, .le32Enc, rfl⟩
  | le32Dec =>
    simp only [exec, execLe32Dec] at h
    split at h
    · next hshort => cases h; exact .inr ⟨_, _, .shortData hshort, rfl⟩
    · next hfit =>
      split at h
      · cases h
      · next B hB => cases h; exact .inl ⟨_, .le32Dec B (Nat.le_of_not_lt hfit) hB, rfl⟩
  | fpParse k layout =>
    simp only [exec, execFpParse] at h
    split at h
    · next hk => cases h; exact .inr ⟨_, _, .parseIllegal k layout (by simpa using hk), rfl⟩
    · next hk =>
      have hk : kLegal k = true := by simpa using hk
      split at h
      · cases h
      · next B hB =>
        split at h
        · next i hi => cases h; exact .inr ⟨_, _, .shortPrefix k layout B i hk hB hi, rfl⟩
        · next i hi => cases h; exact .inr ⟨_, _, .shortField k layout B i hk hB hi, rfl⟩
        · next fields toff tlen hp => cases h; exact .inl ⟨_, .fpParse k layout B fields toff tlen hk hB hp, rfl⟩
  | fpFrame k layout =>
    simp only [exec, execFpFrame] at h
    split at h
    · next hk => cases h; exact .inr ⟨_, _, .frameIllegal k layout (by simpa using hk), rfl⟩
    · next hk =>
      have hk : kLegal k = true := by simpa using hk
      split at h
      · next i hi => cases h; exact .inr ⟨_, _, .fieldRange k layout i hk hi, rfl⟩
      · next hfields =>
        split at h
        · next htrail => cases h; exact .inr ⟨_, _, .trailRange k layout hk hfields (by simpa using htrail), rfl⟩
        · next htrail =>
          split at h
          · next F T hF hT =>
            cases h
            exact .inl ⟨_, .fpFrame k layout F T hk hfields (by simpa using htrail) hF hT, rfl⟩
          · cases h

/-- No status is raised with the code OK. -/
theorem Raises.code_ne_ok {s : State} {i : Instr} {code : Code} {idx : Nat} (h : Raises s i code idx) : code ≠ .ok := by
  cases h <;> decide

/-- The index raised is that of a field, or the trailer's: at most 4 (R26). -/
theorem Raises.idx_le {s : State} {i : Instr} {code : Code} {idx : Nat} (h : Raises s i code idx) : idx ≤ 4 := by
  have hparse : ∀ (k : BitVec 3) (layout : Layout) (B : Bytes), kLegal k = true →
      (parse B k.toNat layout).shortIndex = some idx → idx ≤ 4 := by
    intro k layout B hk hi
    have := (kLegal_iff k).mp hk
    have := parse_shortIndex_lt B k.toNat idx layout hi
    omega
  cases h with
  | shortData | parseIllegal | frameIllegal => omega
  | shortPrefix k layout B _ hk _ hp => exact hparse k layout B hk (by rw [hp]; rfl)
  | shortField k layout B _ hk _ hp => exact hparse k layout B hk (by rw [hp]; rfl)
  | fieldRange k _ _ _ hi =>
    have := firstOutOfRange_lt _ _ _ _ hi
    have := fieldRegions_length_le k.toNat s
    omega
  | trailRange => exact Nat.le_refl 4

/-- Only FP_PARSE stages a UTF-8 report (R25). -/
theorem Stages.utf8_eq_zero {s : State} {i : Instr} {st : Staged} (h : Stages s i st) (hop : i.opcode ≠ 0x30) :
    st.utf8Bad = 0 ∧ st.utf8BadTrail = false := by
  cases h with
  | fpParse => exact absurd rfl hop
  | _ => exact ⟨rfl, rfl⟩

/-! ### The STATUS word of a command (40_control.md R114) -/

/-- `w` is a word that a command with OP byte `op` writes to STATUS: some code and index, the index 0 where the code is
OK, and a UTF-8 report only of an FP_PARSE that committed. -/
def StatusOf (op : Byte) (w : Word) : Prop :=
  ∃ (code : Code) (idx : Nat) (bad : BitVec 4) (trail : Bool), w = statusWord code idx bad trail op ∧ idx ≤ 4 ∧
    (code = .ok → idx = 0) ∧ (op ≠ 0x30 ∨ code ≠ .ok → bad = 0 ∧ trail = false)

/-- A raised status that is not OK. -/
theorem statusOf_raised (code : Code) (idx : Nat) (op : Byte) (hcode : code ≠ .ok) (hidx : idx ≤ 4) :
    StatusOf op (statusWord code idx 0 false op) :=
  ⟨code, idx, 0, false, rfl, hidx, fun h => absurd h hcode, fun _ => ⟨rfl, rfl⟩⟩

theorem exec_statusOf (i : Instr) (s t : State) (h : exec i s = .next t) : StatusOf i.opcode t.status := by
  rcases exec_next_cases i s t h with ⟨st, hst, rfl⟩ | ⟨code, idx, hr, rfl⟩
  · rcases commit_cases i.opcode st s with ⟨-, hc⟩ | ⟨-, hc⟩
    · rw [hc]; exact statusOf_raised .overflow 0 i.opcode (by decide) (by omega)
    · rw [hc]
      refine ⟨.ok, 0, st.utf8Bad, st.utf8BadTrail, rfl, by omega, fun _ => rfl, ?_⟩
      rintro (hop | hok)
      · exact hst.utf8_eq_zero hop
      · exact absurd rfl hok
  · exact statusOf_raised code idx i.opcode hr.code_ne_ok hr.idx_le

/-- Every row of R93's table fixes the whole OP byte, to the opcode of its command. -/
theorem opcodeRows_opcode : ∀ r ∈ opcodeRows, opField r.mask = 0xFF ∧
    ∀ b k layout, (r.command b k layout).opcode = opField r.pattern := by
  simp only [opcodeRows, List.forall_mem_cons, List.not_mem_nil, false_implies, implies_true, and_true]
  refine ⟨?_, ?_, ?_, ?_, ?_, ?_, ?_, ?_, ?_, ?_, ?_, ?_⟩ <;> exact ⟨rfl, fun _ _ _ => rfl⟩

theorem opField_and (v w : Word) : opField (v &&& w) = opField v &&& opField w :=
  BitVec.extractLsb'_and

/-- The command a word decodes to has the word's own OP byte (R93). -/
theorem opcode_of_decode (w : Word) (i : Instr) (h : decode w = .ok i) : i.opcode = opField w := by
  simp only [decode] at h
  split at h
  · next r hr =>
    cases h
    obtain ⟨hmask, hcmd⟩ := opcodeRows_opcode r (List.mem_of_find?_eq_some hr)
    have hsel : w &&& r.mask = r.pattern := by
      have := List.find?_some hr
      simp only [rowSelects, Bool.and_eq_true, decide_eq_true_eq] at this
      exact this.1
    calc _ = opField r.pattern := hcmd _ _ _
      _ = opField w &&& opField r.mask := by rw [← hsel, opField_and]
      _ = opField w := by rw [hmask]; exact BitVec.and_allOnes
  · cases h

theorem runCommand_statusOf (w : Word) (s t : State) (h : runCommand w s = .next t) : StatusOf (opField w) t.status := by
  rcases hd : decode w with e | i
  · rw [runCommand_of_error w e s hd] at h
    cases h
    exact statusOf_raised .illegal 0 (opField w) (by decide) (by omega)
  · rw [runCommand_of_ok w i s hd] at h
    rw [← opcode_of_decode w i hd]
    exact exec_statusOf i s t h

/-- What a command writes to STATUS is what R25, R26 and R40 allow there. -/
theorem StatusOf.legal {op : Byte} {w : Word} (h : StatusOf op w) : statusLegal w := by
  obtain ⟨code, idx, bad, trail, rfl, hidx, -, hutf8⟩ := h
  have hlt : idx < 8 := by omega
  have hcode := statusCode_statusWord code idx bad trail op hlt
  refine ⟨?_, ?_, statusReserved_statusWord code idx bad trail op hlt, ?_⟩
  · rw [hcode]; exact code.value_le
  · rw [statusIdx_statusWord code idx bad trail op hlt]; exact hidx
  · intro hnot
    have hcond : op ≠ 0x30 ∨ code ≠ .ok := by
      by_contra hboth
      obtain ⟨hop, hok⟩ := not_or.mp hboth
      refine hnot ⟨?_, BitVec.eq_of_toNat_eq ?_⟩
      · rw [statusLastOp_statusWord code idx bad trail op hlt]; exact not_not.mp hop
      · rw [hcode, not_not.mp hok]; rfl
    obtain ⟨rfl, rfl⟩ := hutf8 hcond
    exact ⟨statusUtf8Bad_statusWord code idx 0 false op hlt, statusUtf8BadTrail_statusWord code idx 0 false op hlt⟩

/-! ### The encoder's run state stays legal (R31) -/

theorem rleState_idle_legal : RleState.idle.legal := ⟨fun _ => ⟨rfl, rfl⟩, nofun⟩

/-- A step leaves an open run of at least one byte, whatever it started from. -/
theorem rleStep_legal (s : RleState) (b : Byte) : (rleStep s b).1.legal := by
  have hopen : ∀ v : Byte, RleState.legal ⟨true, v, 1⟩ := fun _ =>
    ⟨nofun, fun _ => (by decide : 1 ≤ (1 : Byte).toNat ∧ (1 : Byte).toNat ≤ 255)⟩
  rcases rleStep_cases s b with ⟨-, hs⟩ | ⟨hv, -, hc, hs⟩ | ⟨-, -, -, hs⟩ | ⟨-, -, hs⟩ <;> rw [hs]
  · exact hopen b
  · refine ⟨nofun, fun _ => ?_⟩
    have hsucc : (s.count + 1).toNat = s.count.toNat + 1 := by
      rw [BitVec.toNat_add]; exact Nat.mod_eq_of_lt (by simp; omega)
    simp only [hsucc]
    omega
  · exact hopen b
  · exact hopen b

theorem rleRun_legal (s : RleState) (B : Bytes) (h : s.legal) : (rleRun s B).1.legal := by
  induction B generalizing s with
  | nil => exact h
  | cons b B ih => exact ih _ (rleStep_legal s b)

/-! ### The invariant through each update of the state -/

theorem bufferLegal_writeBytes {size : Nat} {m : Memory} (i : Nat) (bs : Bytes) (h : bufferLegal size m)
    (hfit : i + bs.length ≤ size) : bufferLegal size (m.writeBytes i bs) :=
  ⟨writeBytes_wf m i bs h.1, writeBytes_bound m i size bs h.2 hfit⟩

theorem written_writeBytes_inside (m : Memory) (i k : Nat) (bs : Bytes) (hk : k < bs.length) :
    (m.writeBytes i bs).written (i + k) = true := by
  simp [Memory.written, read_writeBytes_inside m i bs k hk, hk]

theorem State.Legal.withStatus {s : State} {w : Word} (h : s.Legal) (hw : statusLegal w) : (s.withStatus w).Legal :=
  { h with status_legal := hw }

theorem State.Legal.respond {s : State} (h : s.Legal) (r : Response) : (s.respond r).Legal := { h with }

theorem State.Legal.withPending {s : State} (h : s.Legal) (as : List Access) : (s.withPending as).Legal := { h with }

theorem State.Legal.withIbuf {s : State} {m : Memory} (h : s.Legal) (hm : bufferLegal s.cfg.ibufSize m) :
    (s.withIbuf m).Legal :=
  { h with ibuf_legal := hm }

theorem State.Legal.appendOutput {s : State} {out : Bytes} (h : s.Legal) (hfit : overflows s out = false) :
    (s.appendOutput out).Legal := by
  have hlen := appendOutput_outLen_toNat s out hfit
  have hroom : s.outLen.toNat + out.length ≤ s.cfg.obufSize := by
    rcases (overflows_eq_false_iff s out).mp hfit with rfl | hle
    · exact h.outLen_le
    · exact hle
  refine { h with outLen_le := ?_, obuf_legal := ?_, output_written := ?_ }
  · rw [hlen]; exact hroom
  · exact bufferLegal_writeBytes _ out h.obuf_legal hroom
  · intro i hi
    rw [hlen] at hi
    rw [appendOutput_obuf]
    by_cases hold : i < s.outLen.toNat
    · exact written_writeBytes _ _ _ _ (h.output_written i hold)
    · obtain ⟨k, rfl⟩ := Nat.exists_eq_add_of_le (Nat.le_of_not_lt hold)
      exact written_writeBytes_inside _ _ _ _ (by omega)

/-- Staged writes that keep the invariant: a length register is only ever cleared, and the run state is legal. -/
structure Staged.Sound (st : Staged) : Prop where
  inLen : ∀ w ∈ st.inLen, w = 0
  outLen : ∀ w ∈ st.outLen, w = 0
  rle : ∀ r ∈ st.rle, r.legal

theorem Stages.sound {s : State} {i : Instr} {st : Staged} (h : Stages s i st) (hrle : s.rle.legal) : st.Sound := by
  cases h with
  | nop | le32Enc | le32Dec | fpParse | fpFrame => exact ⟨nofun, nofun, nofun⟩
  | outClear => exact ⟨nofun, by simp, nofun⟩
  | softReset => exact ⟨by simp, by simp, by simp [rleState_idle_legal]⟩
  | rleInit => exact ⟨nofun, nofun, by simp [rleState_idle_legal]⟩
  | rlePush b => exact ⟨nofun, nofun, by simpa using rleStep_legal s.rle b⟩
  | rleFlush => exact ⟨nofun, nofun, by simp [rleState_idle_legal]⟩
  | rlePushbuf B => exact ⟨nofun, nofun, by simpa using rleRun_legal s.rle B hrle⟩
  | rleEncode B => exact ⟨nofun, nofun, by simp [rleRunFlush, rleState_idle_legal]⟩

theorem State.Legal.perform {s : State} {st : Staged} (h : s.Legal) (hst : st.Sound) : (st.perform s).Legal where
  inLen_le := by
    rw [perform_inLen]
    cases hw : st.inLen with
    | none => exact h.inLen_le
    | some w => simp [hst.inLen w hw]
  outLen_le := by
    rw [perform_outLen]
    cases hw : st.outLen with
    | none => exact h.outLen_le
    | some w => simp [hst.outLen w hw]
  rle_legal := by
    rw [perform_rle]
    cases hr : st.rle with
    | none => exact h.rle_legal
    | some r => exact hst.rle r hr
  status_legal := h.status_legal
  ibuf_legal := h.ibuf_legal
  obuf_legal := h.obuf_legal
  output_written := by
    rw [perform_outLen]
    cases hw : st.outLen with
    | none => exact h.output_written
    | some w => simp [hst.outLen w hw]

/-- A command leaves a legal state, its STATUS by `exec_statusOf`, the rest by what it stages. -/
theorem State.Legal.exec {s t : State} {i : Instr} (h : s.Legal) (ht : exec i s = .next t) : t.Legal := by
  have hstatus := (exec_statusOf i s t ht).legal
  rcases exec_next_cases i s t ht with ⟨st, hst, rfl⟩ | ⟨code, idx, -, rfl⟩
  · rcases commit_cases i.opcode st s with ⟨-, hc⟩ | ⟨hfit, hc⟩ <;> rw [hc] at hstatus ⊢
    · exact h.withStatus hstatus
    · exact ((h.appendOutput hfit).perform (hst.sound h.rle_legal)).withStatus hstatus
  · exact h.withStatus hstatus

theorem State.Legal.runCommand {s t : State} {w : Word} (h : s.Legal) (ht : runCommand w s = .next t) : t.Legal := by
  rcases hd : decode w with e | i
  · have hstatus := (runCommand_statusOf w s t ht).legal
    rw [runCommand_of_error w e s hd] at ht
    cases ht
    exact h.withStatus hstatus
  · rw [runCommand_of_ok w i s hd] at ht
    exact h.exec ht

theorem State.Legal.writeReg {s u : State} {w : Word} {r : Reg} (h : s.Legal) (hu : writeReg s w r = some u) :
    u.Legal := by
  obtain ⟨hcfg, hstatus, hout, hrle, hibuf, hobuf, -, -, hin⟩ := writeReg_keeps s u w r hu
  refine ⟨?_, ?_, ?_, ?_, ?_, ?_, ?_⟩
  · rw [hcfg]
    rcases hin with hin | hin <;> rw [hin]
    · exact h.inLen_le
    · rw [clampInLen_toNat]; exact Nat.min_le_right _ _
  · rw [hcfg, hout]; exact h.outLen_le
  · rw [hrle]; exact h.rle_legal
  · rw [hstatus]; exact h.status_legal
  · rw [hcfg, hibuf]; exact h.ibuf_legal
  · rw [hcfg, hobuf]; exact h.obuf_legal
  · rw [hout, hobuf]; exact h.output_written

/-! ### What an access does to IBUF -/

theorem locate_ibuf_lt (c : Config) (addr : Word) (i : Nat) (h : locate c addr = .ibuf i) : i < c.ibufSize := by
  simp only [locate] at h
  split at h
  · cases h
  · split at h
    · next hwin =>
      have hi : addr.toNat - ibufBase = i := Location.ibuf.inj h
      omega
    · split at h <;> cases h

/-- Some bytes, perhaps none, were stored in IBUF from s to t, all of them inside it. -/
def State.IbufStored (s t : State) : Prop :=
  ∃ i bs, i + bs.length ≤ s.cfg.ibufSize ∧ t.ibuf = s.ibuf.writeBytes i bs

theorem State.IbufStored.of_eq {s t : State} (h : t.ibuf = s.ibuf) : s.IbufStored t := ⟨0, [], Nat.zero_le _, h⟩

theorem busError_ibuf {s t : State} (h : busError s = .next t) : t.ibuf = s.ibuf := by cases h; rfl

theorem answerByte_ibuf {s t : State} {o : Option Byte} (h : answerByte s o = .next t) : t.ibuf = s.ibuf := by
  cases o <;> cases h
  rfl

theorem answerBytes_ibuf {s t : State} {o : Option Bytes} (h : answerBytes s o = .next t) : t.ibuf = s.ibuf := by
  simp only [answerBytes] at h
  split at h <;> cases h
  rfl

theorem serveRead8_ibuf {s t : State} {addr : Word} (h : serveRead8 addr s = .next t) : t.ibuf = s.ibuf := by
  simp only [serveRead8] at h
  split at h
  · exact busError_ibuf h
  · exact answerByte_ibuf h
  · exact answerByte_ibuf h
  · exact busError_ibuf h

theorem serveRead32_ibuf {s t : State} {addr : Word} (h : serveRead32 addr s = .next t) : t.ibuf = s.ibuf := by
  simp only [serveRead32] at h
  split at h
  · exact busError_ibuf h
  · split at h
    · split at h
      · cases h; rfl
      · exact busError_ibuf h
    · split at h
      · exact answerBytes_ibuf h
      · exact busError_ibuf h
    · split at h
      · exact answerBytes_ibuf h
      · exact busError_ibuf h
    · exact busError_ibuf h

theorem serveWriteReg_ibuf {s t : State} {r : Reg} {w : Word} (h : serveWriteReg r w s = .next t) :
    t.ibuf = s.ibuf := by
  simp only [serveWriteReg] at h
  split at h
  · rcases hc : runCommand w s with u | u | u <;> rw [hc] at h <;> cases h
    obtain ⟨-, hibuf, -, -⟩ := runCommand_keeps w s u hc
    exact hibuf
  · split at h
    · next u hu =>
      cases h
      obtain ⟨-, -, -, -, hibuf, -⟩ := writeReg_keeps s u w r hu
      exact hibuf
    · exact busError_ibuf h

theorem serveWrite8_ibufStored {s t : State} {addr : Word} {b : Byte} (h : serveWrite8 addr b s = .next t) :
    s.IbufStored t := by
  simp only [serveWrite8] at h
  split at h
  · exact .of_eq (busError_ibuf h)
  · next i hi => cases h; exact ⟨i, [b], locate_ibuf_lt _ _ _ hi, rfl⟩
  · exact .of_eq (busError_ibuf h)
  · exact .of_eq (busError_ibuf h)

theorem serveWrite32_ibufStored {s t : State} {addr w : Word} (h : serveWrite32 addr w s = .next t) :
    s.IbufStored t := by
  simp only [serveWrite32] at h
  split at h
  · exact .of_eq (busError_ibuf h)
  · split at h
    · split at h
      · exact .of_eq (serveWriteReg_ibuf h)
      · exact .of_eq (busError_ibuf h)
    · next i _ =>
      split at h
      · next hfit => cases h; exact ⟨i, enc32 w, hfit, rfl⟩
      · exact .of_eq (busError_ibuf h)
    · exact .of_eq (busError_ibuf h)
    · exact .of_eq (busError_ibuf h)

/-- What `serve_cases` leaves open: an access that stores in IBUF stores inside it (20_memory.md R66 item 3). -/
theorem serve_ibufStored (a : Access) (s t : State) (h : serve a s = .next t) : s.IbufStored t := by
  cases a with
  | rd8 => exact .of_eq (serveRead8_ibuf h)
  | rd16 => exact .of_eq (busError_ibuf h)
  | rd32 => exact .of_eq (serveRead32_ibuf h)
  | wr8 => exact serveWrite8_ibufStored h
  | wr16 => exact .of_eq (busError_ibuf h)
  | wr32 => exact serveWrite32_ibufStored h

/-! ### One step -/

theorem step_of_no_access (s : State) (h : s.pending = []) : step s = .next s := by
  simp [step, h]

theorem step_of_access (s : State) (a : Access) (rest : List Access) (h : s.pending = a :: rest) :
    step s = serve a (s.withPending rest) := by
  simp [step, h]

/-- A step waits, or serves the first pending access. -/
theorem step_cases (s t : State) (h : step s = .next t) :
    t = s ∨ ∃ a rest, s.pending = a :: rest ∧ serve a (s.withPending rest) = .next t := by
  cases hp : s.pending with
  | nil => rw [step_of_no_access s hp] at h; cases h; exact .inl rfl
  | cons a rest => rw [step_of_access s a rest hp] at h; exact .inr ⟨a, rest, rfl, h⟩

/-- Every access leaves a legal state, by what `serve_cases` says it can do. -/
theorem State.Legal.serve {s t : State} {a : Access} (h : s.Legal) (ht : serve a s = .next t) : t.Legal := by
  obtain ⟨i, bs, hfit, hibuf⟩ := serve_ibufStored a s t ht
  rcases serve_cases a s t ht with ⟨r, rfl⟩ | ⟨m, rfl⟩ | ⟨r, w, u, hu, rfl⟩ | ⟨w, u, hu, rfl⟩
  · exact h.respond r
  · have hm : m = s.ibuf.writeBytes i bs := hibuf
    rw [hm]
    exact (h.withIbuf (bufferLegal_writeBytes i bs h.ibuf_legal hfit)).respond _
  · exact (h.writeReg hu).respond _
  · exact (h.runCommand hu).respond _

/-- Settles O58: each of the things an access can do keeps the invariant. -/
theorem legalKeptByStep : Obligations.LegalKeptByStep := by
  intro s t hs hstep
  rcases step_cases s t hstep with rfl | ⟨a, rest, -, hserve⟩
  · exact hs
  · exact (hs.withPending rest).serve hserve

/-- Settles O57. -/
theorem legalAtReset : Obligations.LegalAtReset := fun c =>
  { inLen_le := Nat.zero_le _
    outLen_le := Nat.zero_le _
    rle_legal := rleState_idle_legal
    status_legal := by rw [resetWith_status]; unfold statusLegal; decide
    ibuf_legal := ⟨List.Pairwise.nil, nofun⟩
    obuf_legal := ⟨List.Pairwise.nil, nofun⟩
    output_written := fun i hi => absurd hi (Nat.not_lt_zero i) }

/-! ### STATUS, and the frame of a command -/

/-- Settles O11: the word is a `StatusOf` its own OP byte, whose number is R114's sum. -/
theorem statusWrittenWhole : Obligations.StatusWrittenWhole := by
  intro w s t h
  obtain ⟨code, idx, bad, trail, hw, hidx, hok, hutf8⟩ := runCommand_statusOf w s t h
  have hcode : code.value = 0 ↔ code = .ok := ⟨fun hv => Code.value_injective code .ok hv, fun hc => by rw [hc]; rfl⟩
  refine ⟨code.value, idx, bad.toNat, trail.toNat, code.value_le, hidx, bad.isLt, trail.toNat_lt, ?_, ?_, ?_⟩
  · rw [hw, statusWord_toNat code idx bad trail (opField w) (by omega)]
  · exact fun hv => hok (hcode.mp hv)
  · intro hcond
    obtain ⟨rfl, rfl⟩ := hutf8 (hcond.imp_right fun hne hc => hne (hcode.mpr hc))
    exact ⟨rfl, rfl⟩

/-- The registers each command leaves out of what it stages, and the commands that stage no output. -/
structure Staged.FrameOf (i : Instr) (st : Staged) : Prop where
  inLen_offset : i ≠ .softReset → st.inLen = none ∧ st.offset = none
  data : i ≠ .softReset → i ≠ .le32Dec → st.data = none
  fields : i ≠ .softReset → (∀ k l, i ≠ .fpParse k l) →
    st.trailOff = none ∧ st.trailLen = none ∧ st.fieldOff = none ∧ st.fieldLen = none
  rle : i ∉ [Instr.softReset, .rleInit, .rleFlush, .rlePushbuf, .rleEncode] → (∀ b, i ≠ .rlePush b) → st.rle = none
  outLen : i ∈ [Instr.nop, .rleInit, .le32Dec] ∨ (∃ k l, i = .fpParse k l) → st.output = [] ∧ st.outLen = none
  cleared : st.outLen = none ∨ st.output = []

theorem Stages.frameOf {s : State} {i : Instr} {st : Staged} (h : Stages s i st) : st.FrameOf i := by
  cases h with
  | nop | outClear | softReset | rleInit | rlePush | rleFlush | rlePushbuf | rleEncode | le32Enc | le32Dec | fpParse
  | fpFrame => constructor <;> simp [stagedParse]

/-- A command either writes STATUS alone, or commits what it staged, which fits. -/
theorem exec_raised_or_committed (i : Instr) (s t : State) (h : exec i s = .next t) :
    (∃ w, t = s.withStatus w) ∨
    ∃ st w, Stages s i st ∧ overflows s st.output = false ∧ t = (st.perform (s.appendOutput st.output)).withStatus w := by
  rcases exec_next_cases i s t h with ⟨st, hst, rfl⟩ | ⟨code, idx, -, rfl⟩
  · rcases commit_cases i.opcode st s with ⟨-, hc⟩ | ⟨hfit, hc⟩
    · exact .inl ⟨_, hc⟩
    · exact .inr ⟨st, _, hst, hfit, hc⟩
  · exact .inl ⟨_, rfl⟩

/-- A commit stores nothing in OBUF outside [old OUT_LEN, new OUT_LEN): the output ends at the new OUT_LEN, and a command
that sets OUT_LEN itself has none. -/
theorem read_obuf_of_committed {s : State} {st : Staged} {a : Nat} (hclear : st.outLen = none ∨ st.output = [])
    (hfit : overflows s st.output = false)
    (ha : a < s.outLen.toNat ∨ (st.perform (s.appendOutput st.output)).outLen.toNat ≤ a) :
    (s.appendOutput st.output).obuf.read a = s.obuf.read a := by
  rw [appendOutput_obuf]
  rcases hclear with hnone | hnil
  · rw [perform_outLen, hnone, Option.getD_none, appendOutput_outLen_toNat s _ hfit] at ha
    exact read_writeBytes_outside _ _ _ _ ha
  · rw [hnil, writeBytes_nil]

/-- Settles O15: a raised status touches STATUS alone, and a commit performs only what its command stages. -/
theorem frameOfEveryCommand : Obligations.FrameOfEveryCommand := by
  intro i s t h
  obtain ⟨hcfg, hibuf, hpend, hresp⟩ := exec_keeps i s t h
  refine ⟨hcfg, fun a => by rw [hibuf], hpend, hresp, ?_⟩
  rcases exec_raised_or_committed i s t h with ⟨w, rfl⟩ | ⟨st, w, hst, hfit, rfl⟩
  · simp
  · have hframe := hst.frameOf
    refine ⟨fun h1 => ?_, fun h1 h2 => ?_, fun h1 h2 => ?_, fun h1 h2 => ?_, fun h1 => ?_, fun a ha => ?_⟩
    · obtain ⟨hin, hoff⟩ := hframe.inLen_offset h1
      simp [hin, hoff]
    · simp [hframe.data h1 h2]
    · obtain ⟨hto, htl, hfo, hfl⟩ := hframe.fields h1 h2
      simp [hto, htl, hfo, hfl]
    · simp [hframe.rle h1 h2]
    · obtain ⟨hnil, hnone⟩ := hframe.outLen h1
      simp [hnil, hnone]
    · exact read_obuf_of_committed hframe.cleared hfit ha

/-! ### Constants and written flags -/

/-- From s to t, ID and the sizes are the same and no written flag was cleared. -/
structure State.KeepsWritten (s t : State) : Prop where
  cfg : t.cfg = s.cfg
  ibuf : ∀ i, s.ibuf.written i = true → t.ibuf.written i = true
  obuf : ∀ i, s.obuf.written i = true → t.obuf.written i = true

theorem exec_obuf_written (i : Instr) (s t : State) (a : Nat) (h : exec i s = .next t) (ha : s.obuf.written a = true) :
    t.obuf.written a = true := by
  rcases exec_raised_or_committed i s t h with ⟨w, rfl⟩ | ⟨st, w, -, -, rfl⟩
  · exact ha
  · exact written_writeBytes _ _ _ _ ha

theorem runCommand_obuf_written (w : Word) (s t : State) (a : Nat) (h : runCommand w s = .next t)
    (ha : s.obuf.written a = true) : t.obuf.written a = true := by
  rcases hd : decode w with e | i
  · rw [runCommand_of_error w e s hd] at h; cases h; exact ha
  · rw [runCommand_of_ok w i s hd] at h; exact exec_obuf_written i s t a h ha

theorem serve_keepsWritten (a : Access) (s t : State) (h : serve a s = .next t) : s.KeepsWritten t := by
  obtain ⟨i, bs, -, hibuf⟩ := serve_ibufStored a s t h
  have hwritten : ∀ j, s.ibuf.written j = true → t.ibuf.written j = true := fun j hj => by
    rw [hibuf]; exact written_writeBytes _ _ _ _ hj
  rcases serve_cases a s t h with ⟨r, rfl⟩ | ⟨m, rfl⟩ | ⟨r, w, u, hu, rfl⟩ | ⟨w, u, hu, rfl⟩
  · exact ⟨rfl, hwritten, fun _ => id⟩
  · exact ⟨rfl, hwritten, fun _ => id⟩
  · obtain ⟨hcfg, -, -, -, -, hobuf, -⟩ := writeReg_keeps s u w r hu
    exact ⟨hcfg, hwritten, fun j hj => by rw [respond_obuf, hobuf]; exact hj⟩
  · obtain ⟨hcfg, -⟩ := runCommand_keeps w s u hu
    exact ⟨hcfg, hwritten, fun j hj => runCommand_obuf_written w s u j hu hj⟩

/-- Settles O59. -/
theorem constantsAndWrittenFlagsKept : Obligations.ConstantsAndWrittenFlagsKept := by
  intro s t hstep
  have hkeep : s.KeepsWritten t := by
    rcases step_cases s t hstep with rfl | ⟨a, rest, -, hserve⟩
    · exact ⟨rfl, fun _ => id, fun _ => id⟩
    · obtain ⟨hcfg, hibuf, hobuf⟩ := serve_keepsWritten a _ t hserve
      exact ⟨hcfg, hibuf, hobuf⟩
  refine ⟨?_, fun i => ⟨hkeep.ibuf i, hkeep.obuf i⟩⟩
  simp [readReg, hkeep.cfg]

/-! ### Reads and writes of registers -/

/-- Settles O48: each offset is a register's address. -/
theorem registerReads : Obligations.RegisterReads := by
  intro s p hp
  have hmap : p ∈ registerMap.map fun r => (r.address, readReg s r) := hp
  obtain ⟨r, -, rfl⟩ := List.mem_map.mp hmap
  exact serve_rdReg r s

/-- A plain read-write register holds all 32 bits it is given (R36). -/
theorem writeReg_plain (r : Reg) (s : State) (v : Word)
    (hr : r ∈ [Reg.data, .offset, .trailOff, .trailLen, .fieldOff0, .fieldOff1, .fieldOff2, .fieldOff3, .fieldLen0,
      .fieldLen1, .fieldLen2, .fieldLen3]) : ∃ u, writeReg s v r = some u ∧ readReg u r = v := by
  simp only [List.mem_cons, List.not_mem_nil, or_false] at hr
  rcases hr with rfl | rfl | rfl | rfl | rfl | rfl | rfl | rfl | rfl | rfl | rfl | rfl <;> exact ⟨_, rfl, rfl⟩

/-- Bits [31:17] of RLE_STATE read 0 (R31). -/
theorem rleStateWord_reserved (r : RleState) : (rleStateWord r).extractLsb' 17 15 = 0 := by
  have hv : (BitVec.ofBool r.valid).toNat < 2 := (BitVec.ofBool r.valid).isLt
  have hc := r.count.isLt
  have hb := r.value.isLt
  apply BitVec.eq_of_toNat_eq
  simp only [rleStateWord, BitVec.extractLsb'_toNat, append_toNat, Nat.shiftRight_eq_div_pow, BitVec.ofNat_eq_ofNat,
    BitVec.toNat_ofNat]
  omega

/-- Settles O49. -/
theorem registerWritesReadBack : Obligations.RegisterWritesReadBack := by
  refine ⟨fun r hr s v => ?_, fun s v => ?_, fun s hs => ?_⟩
  · obtain ⟨u, hu, hread⟩ := writeReg_plain r s v hr
    obtain ⟨hcfg, -, -, hrle, hibuf, hobuf, hpend, hresp, -⟩ := writeReg_keeps s u v r hu
    refine ⟨u.respond .accepted, serve_wrReg_of_writeReg r v s u hu, ?_, fun q hq => ?_, hcfg, hrle, fun a => ?_,
      hpend, ?_⟩
    · rw [serve_rdReg, readReg_respond, hread]; rfl
    · rw [readReg_respond, readReg_writeReg_other s u v r q hu hq]
    · simp [hibuf, hobuf]
    · simp [hresp]
  · exact ⟨_, serve_wrReg_of_writeReg .inLen v s _ rfl, rfl, clampInLen_toNat s v⟩
  · obtain ⟨-, -, hreserved, -⟩ := hs.status_legal
    exact ⟨hreserved, rleStateWord_reserved s.rle⟩

/-! ### Steps that write CMD -/

/-- Settles O6: the access is `wr32` at the address of CMD. -/
theorem stepRunsDecodedCommand : Obligations.StepRunsDecodedCommand := by
  have hcmd : ∀ (s : State) (w : Word) (rest : List Access), s.pending = .wr32 0x04 w :: rest →
      step s = accept (runCommand w (s.withPending rest)) := by
    intro s w rest hp
    rw [step_of_access s _ rest hp]
    exact serve_wrReg_cmd w _
  refine ⟨fun s w i rest hp hd => ⟨fun t ht => ?_, fun r hr => ?_⟩, fun s w e rest hp hd => ?_,
    fun s hp => step_of_no_access s hp, fun s w i hd => ?_⟩
  · rw [hcmd s w rest hp, runCommand_of_ok w i _ hd, State.withPending, ht]; rfl
  · rw [hcmd s w rest hp, runCommand_of_ok w i _ hd, State.withPending, hr]; rfl
  · rw [hcmd s w rest hp, runCommand_of_error w e _ hd]
    exact ⟨_, rfl⟩
  · have hw : BitVec.ofNat 32 (w.toNat % 2 ^ 32) = w := by
      rw [Nat.mod_eq_of_lt w.isLt, BitVec.ofNat_toNat, BitVec.setWidth_eq]
    have hp : (s.withFetchWord 32 w.toNat).pending = .wr32 0x04 w :: s.pending := by
      rw [State.withFetchWord, hw]; rfl
    rw [hcmd _ w s.pending hp, runCommand_of_ok w i _ hd]
    rfl

/-! ### The pseudo-instruction load -/

/-- An 8-bit write inside IBUF stores the byte (20_memory.md R61). -/
theorem serve_wr8Ibuf (i : Nat) (b : Byte) (s : State) (h : i < s.cfg.ibufSize) :
    serve (wr8Ibuf i b) s = .next ((s.withIbuf (s.ibuf.write i b)).respond .accepted) := by
  have hsize := (ibufSize_bounds s.cfg).2
  have haddr : (BitVec.ofNat 32 (ibufBase + i)).toNat = ibufBase + i := by
    simp only [BitVec.toNat_ofNat, ibufBase]
    exact Nat.mod_eq_of_lt (by omega)
  have hloc : locate s.cfg (BitVec.ofNat 32 (ibufBase + i)) = .ibuf i := by
    have hwin : ¬ ibufBase + i < 0x100 := by simp only [ibufBase]; omega
    simp [locate, haddr, hwin, h]
  simp [wr8Ibuf, serve, serveWrite8, hloc, accept]

/-- s after the host stored `bs` in IBUF from index i, byte by byte, with `rest` still to come. -/
def State.afterLoadBytes (s : State) (i : Nat) (bs : Bytes) (rest : List Access) : State :=
  { s with
    ibuf := s.ibuf.writeBytes i bs, pending := rest
    responses := s.responses ++ List.replicate bs.length .accepted }

/-- n steps of the machine, over the model's own state type. -/
def runSteps (n : Nat) (s : State) : StepResult := Sys2Proof.core.run n s

theorem runSteps_zero (s : State) : runSteps 0 s = .next s := rfl

theorem core_run_succ (M : Host.Core) (n : Nat) (s t : M.State) (h : M.step s = .next t) :
    M.run (n + 1) s = M.run n t := by
  simp only [Host.Core.run, h]

theorem runSteps_succ (n : Nat) (s t : State) (h : step s = .next t) : runSteps (n + 1) s = runSteps n t :=
  core_run_succ Sys2Proof.core n s t h

/-- The run of `loadBytes`, one access per byte. -/
theorem runSteps_loadBytes (i n : Nat) (bs : Bytes) (rest : List Access) (s : State)
    (hp : s.pending = loadBytes i bs ++ rest) (hfit : i + bs.length ≤ s.cfg.ibufSize) :
    runSteps (bs.length + n) s = runSteps n (s.afterLoadBytes i bs rest) := by
  induction bs generalizing i s with
  | nil =>
    have hs : s.afterLoadBytes i [] rest = s := by
      have hrest : rest = s.pending := hp.symm
      simp [State.afterLoadBytes, hrest]
    rw [hs, List.length_nil, Nat.zero_add]
  | cons b bs ih =>
    rw [List.length_cons] at hfit
    have hstep := (step_of_access s (wr8Ibuf i b) (loadBytes (i + 1) bs ++ rest) hp).trans
      (serve_wr8Ibuf i b _ (by rw [withPending_cfg]; omega))
    have hlen : (b :: bs).length + n = bs.length + n + 1 := by rw [List.length_cons]; omega
    rw [hlen, runSteps_succ _ _ _ hstep,
      ih (i + 1) _ rfl (by simp only [respond_cfg, withIbuf_cfg, withPending_cfg]; omega)]
    simp [State.afterLoadBytes, State.respond, State.withIbuf, State.withPending, Memory.writeBytes,
      List.replicate_succ]

/-- A load that IBUF has room for is not clamped. -/
theorem clampInLen_of_le (s : State) (n : Nat) (h : n ≤ s.cfg.ibufSize) :
    clampInLen s (BitVec.ofNat 32 n) = BitVec.ofNat 32 n := by
  have hsize := (ibufSize_bounds s.cfg).2
  apply BitVec.eq_of_toNat_eq
  rw [clampInLen_toNat, BitVec.toNat_ofNat, Nat.mod_eq_of_lt (by omega), Nat.min_eq_left h]

/-- s after the whole of `load B`. -/
def State.afterLoad (s : State) (B : Bytes) : State :=
  { s with
    ibuf := s.ibuf.writeBytes 0 B, inLen := BitVec.ofNat 32 B.length, pending := []
    responses := s.responses ++ List.replicate (B.length + 1) .accepted }

theorem runSteps_load (s : State) (B : Bytes) (hp : s.pending = load B) (hfit : B.length ≤ s.cfg.ibufSize) :
    runSteps (B.length + 1) s = .next (s.afterLoad B) := by
  have hin : ∀ u : State, u.cfg = s.cfg → serve (wrReg .inLen (BitVec.ofNat 32 B.length)) u
      = .next ({ u with inLen := BitVec.ofNat 32 B.length }.respond .accepted) := by
    intro u hu
    have hclamp := clampInLen_of_le u B.length (by rw [hu]; exact hfit)
    exact serve_wrReg_of_writeReg .inLen _ u _ (by rw [writeReg, hclamp])
  have hlast := (step_of_access (s.afterLoadBytes 0 B [wrReg .inLen (BitVec.ofNat 32 B.length)]) _ [] rfl).trans
    (hin _ rfl)
  calc runSteps (B.length + 1) s
      = runSteps 1 (s.afterLoadBytes 0 B [wrReg .inLen (BitVec.ofNat 32 B.length)]) :=
        runSteps_loadBytes 0 1 B _ s hp (by omega)
    _ = runSteps 0 _ := runSteps_succ 0 _ _ hlast
    _ = .next (s.afterLoad B) := by
        rw [runSteps_zero]
        simp [State.afterLoadBytes, State.afterLoad, State.respond, State.withPending, List.replicate_succ']

theorem inputBytes_afterLoad (s : State) (B : Bytes) (hfit : B.length ≤ s.cfg.ibufSize) :
    inputBytes (s.afterLoad B) = some B := by
  have hsize := (ibufSize_bounds s.cfg).2
  have hlen : (s.afterLoad B).inLen.toNat = B.length := by
    simp only [State.afterLoad, BitVec.toNat_ofNat]
    exact Nat.mod_eq_of_lt (by omega)
  refine (inputBytes_eq_some_iff _ B).mpr ⟨hlen.symm, fun j hj => ?_⟩
  simpa [State.afterLoad] using read_writeBytes_inside s.ibuf 0 B j (hlen ▸ hj)

/-- Settles O53, by the run of its bytes and then of its write of IN_LEN. -/
theorem loadMakesInput : Obligations.LoadMakesInput := by
  intro s B hp hfit
  refine ⟨s.afterLoad B, runSteps_load s B hp hfit, inputBytes_afterLoad s B hfit, fun a ha => ?_, rfl⟩
  exact read_writeBytes_outside _ _ _ _ (.inr (by omega))

end Sys2Proof.Machine
end

section
/-! PROOFS. The memory family (spec/20_memory.md): where an address lies, which accesses are bus errors, and how 8-bit and
32-bit accesses read and write the bytes of the buffers; then the obligations on bus errors, reads and both widths. -/
namespace Sys2Proof.Machine

/-! ### The address map (20_memory.md R60) -/

/-- What each location says of an address, in numbers. -/
inductive Located (c : Config) (addr : Word) : Location → Prop
  | window (hwin : addr.toNat < 0x100) : Located c addr (.window addr.toNat)
  | ibuf (i : Nat) (hi : i < c.ibufSize) (haddr : addr.toNat = 0x40000000 + i) : Located c addr (.ibuf i)
  | obuf (i : Nat) (hi : i < c.obufSize) (haddr : addr.toNat = 0x80000000 + i) : Located c addr (.obuf i)
  | unmapped (hwin : ¬ addr.toNat < 0x100)
      (hin : ¬ (0x40000000 ≤ addr.toNat ∧ addr.toNat < 0x40000000 + c.ibufSize))
      (hout : ¬ (0x80000000 ≤ addr.toNat ∧ addr.toNat < 0x80000000 + c.obufSize)) : Located c addr .unmapped

theorem located_locate (c : Config) (addr : Word) : Located c addr (locate c addr) := by
  have hibuf : ibufBase = 0x40000000 := rfl
  have hobuf : obufBase = 0x80000000 := rfl
  simp only [locate]
  split
  · next hwin => exact .window hwin
  · next hwin =>
    split
    · exact .ibuf _ (by omega) (by omega)
    · next hin =>
      split
      · exact .obuf _ (by omega) (by omega)
      · next hout => exact .unmapped hwin hin hout

theorem ibufAddress_toNat (c : Config) (i : Nat) (h : i < c.ibufSize) :
    (BitVec.ofNat 32 (ibufBase + i)).toNat = ibufBase + i := by
  have hsize := (ibufSize_bounds c).2
  simp only [BitVec.toNat_ofNat, ibufBase]
  omega

theorem obufAddress_toNat (c : Config) (i : Nat) (h : i < c.obufSize) :
    (BitVec.ofNat 32 (obufBase + i)).toNat = obufBase + i := by
  have hsize := (obufSize_bounds c).2
  simp only [BitVec.toNat_ofNat, obufBase]
  omega

theorem locate_ibufAddress (c : Config) (i : Nat) (h : i < c.ibufSize) :
    locate c (BitVec.ofNat 32 (ibufBase + i)) = .ibuf i := by
  have hwin : ¬ ibufBase + i < 0x100 := by simp only [ibufBase]; omega
  simp [locate, ibufAddress_toNat c i h, hwin, h]

/-- The OBUF window lies above the IBUF window, whose size is at most 2^30 (00_scope.md R6). -/
theorem locate_obufAddress (c : Config) (i : Nat) (h : i < c.obufSize) :
    locate c (BitVec.ofNat 32 (obufBase + i)) = .obuf i := by
  have hsize := (ibufSize_bounds c).2
  have hwin : ¬ obufBase + i < 0x100 := by simp only [obufBase]; omega
  have hin : ¬ obufBase + i < ibufBase + c.ibufSize := by simp only [obufBase, ibufBase]; omega
  simp [locate, obufAddress_toNat c i h, hwin, hin, h]

theorem aligned_ibufAddress (c : Config) (i : Nat) (h : i < c.ibufSize) (hi : i % 4 = 0) :
    aligned (BitVec.ofNat 32 (ibufBase + i)) = true := by
  rw [aligned_iff, ibufAddress_toNat c i h, ibufBase]
  omega

theorem aligned_obufAddress (c : Config) (i : Nat) (h : i < c.obufSize) (hi : i % 4 = 0) :
    aligned (BitVec.ofNat 32 (obufBase + i)) = true := by
  rw [aligned_iff, obufAddress_toNat c i h, obufBase]
  omega

theorem not_aligned_iff (addr : Word) : (!aligned addr) = true ↔ addr.toNat % 4 ≠ 0 := by
  rw [Bool.not_eq_true', ← Bool.not_eq_true, aligned_iff]

/-! ### The register window (10_state.md R22, R35) -/

theorem registerMap_nodup : registerMap.Nodup := by decide

/-- An aligned offset below 0x50 is a register's address (R22). -/
theorem exists_register_of_aligned (addr : Word) (ha : addr.toNat % 4 = 0) (hlt : addr.toNat < 0x50) :
    ∃ r : Reg, addr = r.address := by
  have hn : addr.toNat / 4 < registerMap.length := by
    have : registerMap.length = 20 := rfl
    omega
  refine ⟨registerMap[addr.toNat / 4], BitVec.eq_of_toNat_eq ?_⟩
  rw [Reg.address, registerMap_nodup.idxOf_getElem _ hn, BitVec.toNat_ofNat]
  omega

/-- An aligned offset is a register's address, or one of the offsets from 0x50 on, which hold none (R35). -/
theorem register_or_reserved (addr : Word) (ha : addr.toNat % 4 = 0) :
    (∃ r : Reg, addr = r.address) ∨ (0x50 ≤ addr.toNat ∧ registerAt addr.toNat = none) := by
  rcases Nat.lt_or_ge addr.toNat 0x50 with hlt | hge
  · exact .inl (exists_register_of_aligned addr ha hlt)
  · have hlen : registerMap.length = 20 := rfl
    exact .inr ⟨hge, List.getElem?_eq_none (by omega)⟩

theorem address_lt (r : Reg) : r.address.toNat < 0x50 := by cases r <;> decide

/-! ### Accesses that are not bus errors -/

/-- An access that leaves the answers given so far alone, and then answers other than the error, is no bus error. -/
theorem respond_ne_busError (s u : State) (r : Response) (hu : u.responses = s.responses) (hr : r ≠ .busError) :
    Host.Outcome.next (u.respond r) ≠ busError s := by
  intro h
  have hresp : (u.respond r).responses = (s.respond .busError).responses :=
    congrArg State.responses (Host.Outcome.next.inj h)
  rw [respond_responses, respond_responses, hu] at hresp
  exact hr (List.singleton_inj.mp (List.append_cancel_left hresp))

theorem answerByte_ne_busError (s : State) (o : Option Byte) : answerByte s o ≠ busError s := by
  cases o with
  | none => exact fun h => nomatch h
  | some b => exact respond_ne_busError s s _ rfl (fun h => nomatch h)

theorem answerBytes_ne_busError (s : State) (o : Option Bytes) : answerBytes s o ≠ busError s := by
  simp only [answerBytes]
  split
  · exact respond_ne_busError s s _ rfl (fun h => nomatch h)
  · exact fun h => nomatch h

/-- An accepted write is no bus error, and neither is a command, whatever it does (60_exceptions.md R230). -/
theorem accept_ne_busError (s : State) (o : StepResult) (ho : ∀ t, o = .next t → t.responses = s.responses) :
    accept o ≠ busError s := by
  cases o with
  | next t => exact respond_ne_busError s t _ (ho t rfl) (by decide)
  | fault r => exact fun h => nomatch h
  | refused r => exact fun h => nomatch h

/-- An access whose bus errors are where a check fails, and that is none where it passes. -/
theorem iff_unless_busError {p q : Prop} [Decidable q] {s : State} {o : StepResult} (hpq : p ↔ ¬ q)
    (ho : o ≠ busError s) : p ↔ (if q then o else busError s) = busError s := by
  rw [hpq]
  split
  · next hq => exact iff_of_false (not_not_intro hq) ho
  · next hq => exact iff_of_true hq rfl

/-- R66 item 4: besides CMD, the registers that no host write stores in are the read-only ones. -/
theorem writeReg_eq_none_iff (s : State) (w : Word) (r : Reg) :
    writeReg s w r = none ↔ r = .cmd ∨ readOnlyOffset r.address := by
  have key : (writeReg s w r).isNone
      = decide (r = .cmd ∨ r.address.toNat ∈ [0x00, 0x08, 0x10, 0x1C, 0x20, 0x24]) := by
    cases r <;> rfl
  rw [← Option.isNone_iff_eq_none, key, decide_eq_true_iff, readOnlyOffset]

theorem not_readOnlyOffset_cmd : ¬ readOnlyOffset Reg.cmd.address := by
  unfold readOnlyOffset
  decide

theorem not_readOnlyOffset (addr : Word) (h : 0x50 ≤ addr.toNat) : ¬ readOnlyOffset addr := by
  simp only [readOnlyOffset, List.mem_cons, List.not_mem_nil, or_false]
  omega

/-- A write of a register is a bus error where R66 item 4 says so; a write of CMD never is (R24). -/
theorem serveWriteReg_busError_iff (r : Reg) (w : Word) (s : State) :
    readOnlyOffset r.address ↔ serveWriteReg r w s = busError s := by
  simp only [serveWriteReg]
  split
  · next hcmd =>
    subst hcmd
    refine iff_of_false not_readOnlyOffset_cmd (accept_ne_busError s _ fun t ht => ?_)
    obtain ⟨-, -, -, hresp⟩ := runCommand_keeps w s t ht
    exact hresp
  · next hcmd =>
    have hnone := writeReg_eq_none_iff s w r
    split
    · next u hu =>
      obtain ⟨-, -, -, -, -, -, -, hresp, -⟩ := writeReg_keeps s u w r hu
      refine iff_of_false (fun h => ?_) (respond_ne_busError s u _ hresp (by decide))
      rw [hnone.mpr (.inr h)] at hu
      cases hu
    · next hu => exact iff_of_true ((hnone.mp hu).resolve_left hcmd) rfl

/-! ### The bus errors of each access (20_memory.md R66) -/

theorem isBusError_rd8_iff (addr : Word) (s : State) :
    isBusError s.cfg (.rd8 addr) ↔ serve (.rd8 addr) s = busError s := by
  simp only [serve, serveRead8, isBusError, unmappedAddress, inIbufWindow, inObufWindow]
  have hplace := located_locate s.cfg addr
  generalize locate s.cfg addr = loc at hplace ⊢
  cases hplace with
  | window hwin => exact iff_of_true (.inr hwin) rfl
  | ibuf i hi haddr => exact iff_of_false (by omega) (answerByte_ne_busError s _)
  | obuf i hi haddr => exact iff_of_false (by omega) (answerByte_ne_busError s _)
  | unmapped hwin hin hout => exact iff_of_true (by omega) rfl

theorem isBusError_wr8_iff (addr : Word) (b : Byte) (s : State) :
    isBusError s.cfg (.wr8 addr b) ↔ serve (.wr8 addr b) s = busError s := by
  have hsize := (ibufSize_bounds s.cfg).2
  simp only [serve, serveWrite8, isBusError, unmappedAddress, inIbufWindow, inObufWindow]
  have hplace := located_locate s.cfg addr
  generalize locate s.cfg addr = loc at hplace ⊢
  cases hplace with
  | window hwin => exact iff_of_true (.inr (.inl hwin)) rfl
  | ibuf i hi haddr => exact iff_of_false (by omega) (respond_ne_busError s _ _ rfl (by decide))
  | obuf i hi haddr => exact iff_of_true (by omega) rfl
  | unmapped hwin hin hout => exact iff_of_true (by omega) rfl

theorem isBusError_rd32_iff (addr : Word) (s : State) :
    isBusError s.cfg (.rd32 addr) ↔ serve (.rd32 addr) s = busError s := by
  have hsize := (ibufSize_bounds s.cfg).2
  simp only [serve, serveRead32, isBusError, unmappedAddress, misplaced, inIbufWindow, inObufWindow]
  split
  · next ha => exact iff_of_true (.inr (.inl ((not_aligned_iff addr).mp ha))) rfl
  · next ha =>
    have hmod : addr.toNat % 4 = 0 := not_not.mp (mt (not_aligned_iff addr).mpr ha)
    have hplace := located_locate s.cfg addr
    generalize locate s.cfg addr = loc at hplace ⊢
    cases hplace with
    | window hwin =>
      rcases register_or_reserved addr hmod with ⟨r, rfl⟩ | ⟨hres, hnone⟩
      · have hlt := address_lt r
        simp only [registerAt_address]
        exact iff_of_false (by omega) (respond_ne_busError s s _ rfl (fun h => nomatch h))
      · simp only [hnone]
        exact iff_true_intro (by omega)
    | ibuf i hi haddr => exact iff_unless_busError (by omega) (answerBytes_ne_busError s _)
    | obuf i hi haddr => exact iff_unless_busError (by omega) (answerBytes_ne_busError s _)
    | unmapped hwin hin hout => exact iff_of_true (by omega) rfl

theorem isBusError_wr32_iff (addr w : Word) (s : State) :
    isBusError s.cfg (.wr32 addr w) ↔ serve (.wr32 addr w) s = busError s := by
  have hsize := (ibufSize_bounds s.cfg).2
  simp only [serve, serveWrite32, isBusError, unmappedAddress, misplaced, inIbufWindow, inObufWindow]
  split
  · next ha => exact iff_of_true (.inr (.inl (.inl ((not_aligned_iff addr).mp ha)))) rfl
  · next ha =>
    have hmod : addr.toNat % 4 = 0 := not_not.mp (mt (not_aligned_iff addr).mpr ha)
    have hplace := located_locate s.cfg addr
    generalize locate s.cfg addr = loc at hplace ⊢
    cases hplace with
    | window hwin =>
      rcases register_or_reserved addr hmod with ⟨r, rfl⟩ | ⟨hres, hnone⟩
      · have hlt := address_lt r
        simp only [registerAt_address]
        rw [← serveWriteReg_busError_iff r w s]
        refine ⟨fun h => ?_, fun h => .inr (.inr (.inl h))⟩
        rcases h with h | h | h | h
        · omega
        · omega
        · exact h
        · omega
      · simp only [hnone]
        exact iff_true_intro (by omega)
    | ibuf i hi haddr =>
      simp only [not_readOnlyOffset addr (by omega), false_or]
      exact iff_unless_busError (by omega) (respond_ne_busError s _ _ rfl (by decide))
    | obuf i hi haddr => exact iff_of_true (by omega) rfl
    | unmapped hwin hin hout => exact iff_of_true (by omega) rfl

/-! ### A read's answer (20_memory.md R68) -/

/-- s answered, or the fault where there is no answer to give. -/
def State.answered (s : State) : Option Response → StepResult
  | some r => .next (s.respond r)
  | none => .fault .unwrittenRead

theorem answerByte_eq_answered (s : State) (o : Option Byte) : answerByte s o = s.answered (o.map .byte) := by
  cases o <;> rfl

theorem answerBytes_eq_answered (s : State) (o : Option Bytes) :
    answerBytes s o = s.answered ((o.bind dec32).map .word) := by
  simp only [answerBytes]
  cases o.bind dec32 <;> rfl

/-- A 32-bit read of a buffer is answered from its bytes alone. -/
theorem answerBytes_or_busError_answered (fits : Prop) [Decidable fits] (bytes : Option Bytes) :
    ∃ o, ∀ u : State, (if fits then answerBytes u bytes else busError u) = u.answered o := by
  split
  · exact ⟨_, fun u => answerBytes_eq_answered u bytes⟩
  · exact ⟨some .busError, fun _ => rfl⟩

/-- A read is answered or faults, alike after any answers given before it. -/
theorem serve_read (a : Access) (s : State) (addr : Word) (ha : a ∈ [Access.rd8 addr, .rd16 addr, .rd32 addr]) :
    ∃ o, ∀ rs, serve a { s with responses := rs } = ({ s with responses := rs } : State).answered o := by
  simp only [List.mem_cons, List.not_mem_nil, or_false] at ha
  rcases ha with rfl | rfl | rfl
  · simp only [serve, serveRead8]
    cases locate s.cfg addr with
    | window off => exact ⟨some .busError, fun _ => rfl⟩
    | ibuf i => exact ⟨_, fun _ => answerByte_eq_answered _ _⟩
    | obuf i => exact ⟨_, fun _ => answerByte_eq_answered _ _⟩
    | unmapped => exact ⟨some .busError, fun _ => rfl⟩
  · exact ⟨some .busError, fun _ => rfl⟩
  · simp only [serve, serveRead32]
    split
    · exact ⟨some .busError, fun _ => rfl⟩
    · cases locate s.cfg addr with
      | window off =>
        simp only
        cases registerAt off with
        | none => exact ⟨some .busError, fun _ => rfl⟩
        | some r => exact ⟨some (.word (readReg s r)), fun rs => by cases r <;> rfl⟩
      | ibuf i =>
        obtain ⟨o, ho⟩ := answerBytes_or_busError_answered (i + 4 ≤ s.cfg.ibufSize) (s.ibuf.readBytes i 4)
        exact ⟨o, fun _ => ho _⟩
      | obuf i =>
        obtain ⟨o, ho⟩ := answerBytes_or_busError_answered (i + 4 ≤ s.cfg.obufSize) (s.obuf.readBytes i 4)
        exact ⟨o, fun _ => ho _⟩
      | unmapped => exact ⟨some .busError, fun _ => rfl⟩

/-! ### Bytes and words -/

theorem readBytes_writeBytes (m : Memory) (i : Nat) (bs : Bytes) :
    (m.writeBytes i bs).readBytes i bs.length = some bs :=
  (readBytes_eq_some_iff _ _ _ _).mpr ⟨rfl, read_writeBytes_inside m i bs⟩

theorem readBytes_eq_none (m : Memory) (i n j : Nat) (hj : j < n) (h : m.written (i + j) = false) :
    m.readBytes i n = none := by
  rw [← Option.not_isSome_iff_eq_none, readBytes_isSome_iff]
  intro hall
  simp [hall j hj] at h

/-- R131's sum, as the word itself. -/
theorem dec32_eq_ofNat (b₀ b₁ b₂ b₃ : Byte) :
    dec32 [b₀, b₁, b₂, b₃]
      = some (BitVec.ofNat 32 (b₀.toNat + 2 ^ 8 * b₁.toNat + 2 ^ 16 * b₂.toNat + 2 ^ 24 * b₃.toNat)) := by
  obtain ⟨w, hw, hsum⟩ := Option.map_eq_some_iff.mp (dec32_toNat b₀ b₁ b₂ b₃)
  rw [hw, ← hsum, BitVec.ofNat_toNat, BitVec.setWidth_eq]

/-- The bytes of a decoded word are the bytes it was decoded from. -/
theorem enc32_of_dec32 (bs : Bytes) (w : Word) (h : dec32 bs = some w) : enc32 w = bs := by
  obtain ⟨b₀, b₁, b₂, b₃, rfl⟩ := List.length_eq_four.mp ((dec32_isSome_iff bs).mp (by rw [h]; rfl))
  obtain rfl := Option.some.inj h
  have h₀ := b₀.isLt
  have h₁ := b₁.isLt
  have h₂ := b₂.isLt
  have h₃ := b₃.isLt
  simp only [enc32, List.cons.injEq, and_true, ← BitVec.toNat_inj, BitVec.extractLsb'_toNat, append_toNat,
    Nat.shiftRight_eq_div_pow]
  omega

/-- Byte m of a word is its bits 8m+7 : 8m. -/
theorem enc32_getElem? (w : Word) (m : Nat) (hm : m < 4) : (enc32 w)[m]? = some (w.extractLsb' (8 * m) 8) := by
  match m, hm with
  | 0, _ | 1, _ | 2, _ | 3, _ => rfl

/-- Four written bytes are answered as R131's sum. -/
theorem answerBytes_of_written (s : State) (m : Memory) (i : Nat) (b₀ b₁ b₂ b₃ : Byte)
    (h : m.readBytes i 4 = some [b₀, b₁, b₂, b₃]) : answerBytes s (m.readBytes i 4) = .next (s.respond
      (.word (BitVec.ofNat 32 (b₀.toNat + 2 ^ 8 * b₁.toNat + 2 ^ 16 * b₂.toNat + 2 ^ 24 * b₃.toNat)))) := by
  simp only [h, answerBytes, Option.bind_some, dec32_eq_ofNat]

theorem answerBytes_of_unwritten (s : State) (m : Memory) (i : Nat) (h : ∃ j, j < 4 ∧ m.written (i + j) = false) :
    answerBytes s (m.readBytes i 4) = .fault .unwrittenRead := by
  obtain ⟨j, hj, hun⟩ := h
  rw [readBytes_eq_none m i 4 j hj hun]
  rfl

/-- What a word read that answers a next state has read. -/
theorem answerBytes_eq_next (s t : State) (o : Option Bytes) (h : answerBytes s o = .next t) :
    ∃ w, o = some (enc32 w) ∧ t = s.respond (.word w) := by
  simp only [answerBytes] at h
  split at h
  · next w hw =>
    cases h
    obtain ⟨bs, rfl, hbs⟩ := Option.bind_eq_some_iff.mp hw
    exact ⟨w, congrArg some (enc32_of_dec32 bs w hbs).symm, rfl⟩
  · cases h

/-! ### Accesses inside a buffer (20_memory.md R61 to R65) -/

theorem serve_rd8Ibuf (i : Nat) (s : State) (h : i < s.cfg.ibufSize) :
    serve (rd8Ibuf i) s = answerByte s (s.ibuf.read i) := by
  simp [rd8Ibuf, serve, serveRead8, locate_ibufAddress s.cfg i h]

theorem serve_rd8Obuf (i : Nat) (s : State) (h : i < s.cfg.obufSize) :
    serve (rd8Obuf i) s = answerByte s (s.obuf.read i) := by
  simp [rd8Obuf, serve, serveRead8, locate_obufAddress s.cfg i h]

/-- An aligned 32-bit read that begins inside IBUF: its four bytes, or a bus error where it crosses the end. -/
theorem serve_rd32Ibuf (i : Nat) (s : State) (hi : i % 4 = 0) (h : i < s.cfg.ibufSize) :
    serve (rd32Ibuf i) s = if i + 4 ≤ s.cfg.ibufSize then answerBytes s (s.ibuf.readBytes i 4) else busError s := by
  simp [rd32Ibuf, serve, serveRead32, locate_ibufAddress s.cfg i h, aligned_ibufAddress s.cfg i h hi]

theorem serve_rd32Obuf (i : Nat) (s : State) (hi : i % 4 = 0) (h : i < s.cfg.obufSize) :
    serve (rd32Obuf i) s = if i + 4 ≤ s.cfg.obufSize then answerBytes s (s.obuf.readBytes i 4) else busError s := by
  simp [rd32Obuf, serve, serveRead32, locate_obufAddress s.cfg i h, aligned_obufAddress s.cfg i h hi]

theorem serve_wr32Ibuf (i : Nat) (w : Word) (s : State) (hi : i % 4 = 0) (h : i + 4 ≤ s.cfg.ibufSize) :
    serve (wr32Ibuf i w) s = .next ((s.withIbuf (s.ibuf.writeBytes i (enc32 w))).respond .accepted) := by
  have hlt : i < s.cfg.ibufSize := by omega
  simp [wr32Ibuf, serve, serveWrite32, locate_ibufAddress s.cfg i hlt, aligned_ibufAddress s.cfg i hlt hi, h, accept]

/-! ### The obligations -/

/-- Settles O46, access by access. -/
theorem busErrorsExactly : Obligations.BusErrorsExactly := by
  intro a s
  cases a with
  | rd8 addr => exact isBusError_rd8_iff addr s
  | rd16 addr => exact iff_of_true trivial rfl
  | rd32 addr => exact isBusError_rd32_iff addr s
  | wr8 addr b => exact isBusError_wr8_iff addr b s
  | wr16 addr v => exact iff_of_true trivial rfl
  | wr32 addr w => exact isBusError_wr32_iff addr w s

/-- Settles O47: the answer of a read does not depend on the answers before it. -/
theorem readsHaveNoSideEffects : Obligations.ReadsHaveNoSideEffects := by
  intro addr s t a ha hserve
  obtain ⟨o, ho⟩ := serve_read a s addr ha
  have hans : serve a s = s.answered o := ho s.responses
  rw [hans] at hserve
  cases o with
  | none => cases hserve
  | some r =>
    cases hserve
    exact ⟨r, rfl, ho (s.responses ++ [r])⟩

/-- Settles O50: the address is byte i of its buffer. -/
theorem hostByteAccess : Obligations.HostByteAccess := by
  refine fun s i => ⟨fun hi => ⟨fun b hb => ?_, fun hnone => ?_, fun b => ?_⟩,
    fun hi => ⟨fun b hb => ?_, fun hnone => ?_⟩⟩
  · exact (serve_rd8Ibuf i s hi).trans (by rw [hb]; rfl)
  · exact (serve_rd8Ibuf i s hi).trans (by rw [hnone]; rfl)
  · exact ⟨_, serve_wr8Ibuf i b s hi, rfl, read_write_same _ _ _, fun a ha => read_write_other _ _ _ _ ha⟩
  · exact (serve_rd8Obuf i s hi).trans (by rw [hb]; rfl)
  · exact (serve_rd8Obuf i s hi).trans (by rw [hnone]; rfl)

/-- Settles O51: the four bytes of a word in a buffer are those of `enc32` and `dec32`. -/
theorem wordAccessLittleEndian : Obligations.WordAccessLittleEndian := by
  intro s i hi
  have hin : i + 4 ≤ s.cfg.ibufSize → serve (rd32Ibuf i) s = answerBytes s (s.ibuf.readBytes i 4) := fun h => by
    rw [serve_rd32Ibuf i s hi (by omega), if_pos h]
  have hout : i + 4 ≤ s.cfg.obufSize → serve (rd32Obuf i) s = answerBytes s (s.obuf.readBytes i 4) := fun h => by
    rw [serve_rd32Obuf i s hi (by omega), if_pos h]
  refine ⟨fun b₀ b₁ b₂ b₃ => ⟨fun h hb => ?_, fun h hb => ?_⟩, fun h hun => ?_, fun h hun => ?_, fun w h => ?_⟩
  · exact (hin h).trans (answerBytes_of_written s s.ibuf i b₀ b₁ b₂ b₃ hb)
  · exact (hout h).trans (answerBytes_of_written s s.obuf i b₀ b₁ b₂ b₃ hb)
  · exact (hin h).trans (answerBytes_of_unwritten s s.ibuf i hun)
  · exact (hout h).trans (answerBytes_of_unwritten s s.obuf i hun)
  · exact ⟨_, serve_wr32Ibuf i w s hi h, rfl, readBytes_writeBytes s.ibuf i (enc32 w),
      read_writeBytes_outside s.ibuf i (enc32 w)⟩

/-- Settles O52: a word read answers the `w` whose bytes `enc32 w` are those stored, and a word write stores them. -/
theorem mixedWidthAccess : Obligations.MixedWidthAccess := by
  refine ⟨fun s t u j b w hj ht hu hw => ?_, fun s t i m w hi hfit hm ht => ?_⟩
  · cases (serve_wr8Ibuf j b s hj).symm.trans ht
    have hsplit : 4 * (j / 4) + j % 4 = j := Nat.div_add_mod j 4
    have hread := serve_rd32Ibuf (4 * (j / 4)) ((s.withIbuf (s.ibuf.write j b)).respond .accepted) (by omega)
      (by rw [respond_cfg, withIbuf_cfg]; omega)
    replace hu := hread.symm.trans hu
    split at hu
    · obtain ⟨w', hbytes, rfl⟩ := answerBytes_eq_next _ _ _ hu
      obtain rfl : w' = w := by simpa using hw
      have hbyte := ((readBytes_eq_some_iff _ _ _ _).mp hbytes).2 (j % 4) (by omega)
      rw [hsplit, enc32_getElem? _ _ (by omega)] at hbyte
      exact (Option.some.inj ((read_write_same s.ibuf j b).symm.trans hbyte)).symm
    · cases hu
      simp at hw
  · cases (serve_wr32Ibuf i w s hi hfit).symm.trans ht
    refine (serve_rd8Ibuf (i + m) _ (by rw [respond_cfg, withIbuf_cfg]; omega)).trans ?_
    rw [respond_ibuf, withIbuf_ibuf, read_writeBytes_inside _ _ _ _ hm, enc32_getElem? w m hm]
    rfl

end Sys2Proof.Machine
end

section
/-! PROOFS. The encoding family (spec/30_encoding.md): the five fields of a command word, what each opcode row selects,
and from that the two directions of the round trip and the ILLEGAL words. -/
namespace Sys2Proof
open Machine

/-! ### A word is its five fields (R90) -/

theorem cmd32_toNat (rsv : BitVec 12) (layout : BitVec 1) (k : BitVec 3) (imm8 op : Byte) :
    (cmd32 rsv layout k imm8 op).toNat
      = rsv.toNat * 2 ^ 20 + layout.toNat * 2 ^ 19 + k.toNat * 2 ^ 16 + imm8.toNat * 2 ^ 8 + op.toNat := by
  simp only [cmd32, append_toNat]
  omega

theorem cmd32_fields (w : Word) :
    cmd32 (rsvField w) (layoutField w) (kField w) (imm8Field w) (opField w) = w := by
  have hw := w.isLt
  apply BitVec.eq_of_toNat_eq
  simp only [cmd32_toNat, rsvField, layoutField, kField, imm8Field, opField, BitVec.extractLsb'_toNat,
    Nat.shiftRight_eq_div_pow]
  omega

/-- Two words are equal exactly when their fields are. -/
theorem cmd32_inj {rsv rsv' : BitVec 12} {layout layout' : BitVec 1} {k k' : BitVec 3} {imm8 imm8' op op' : Byte} :
    cmd32 rsv layout k imm8 op = cmd32 rsv' layout' k' imm8' op' ↔
      rsv = rsv' ∧ layout = layout' ∧ k = k' ∧ imm8 = imm8' ∧ op = op' := by
  simp only [← BitVec.toNat_inj, cmd32_toNat]
  omega

section
variable (rsv : BitVec 12) (layout : BitVec 1) (k : BitVec 3) (imm8 op : Byte)

/-- A word is put together from five fields exactly when they are its own. -/
theorem cmd32_eq_iff (w : Word) : cmd32 rsv layout k imm8 op = w ↔
    rsv = rsvField w ∧ layout = layoutField w ∧ k = kField w ∧ imm8 = imm8Field w ∧ op = opField w := by
  rw [← cmd32_inj, cmd32_fields]

@[simp] theorem rsvField_cmd32 : rsvField (cmd32 rsv layout k imm8 op) = rsv := by
  obtain ⟨h, -⟩ := (cmd32_eq_iff rsv layout k imm8 op _).mp rfl
  exact h.symm

@[simp] theorem layoutField_cmd32 : layoutField (cmd32 rsv layout k imm8 op) = layout := by
  obtain ⟨-, h, -⟩ := (cmd32_eq_iff rsv layout k imm8 op _).mp rfl
  exact h.symm

@[simp] theorem kField_cmd32 : kField (cmd32 rsv layout k imm8 op) = k := by
  obtain ⟨-, -, h, -⟩ := (cmd32_eq_iff rsv layout k imm8 op _).mp rfl
  exact h.symm

@[simp] theorem imm8Field_cmd32 : imm8Field (cmd32 rsv layout k imm8 op) = imm8 := by
  obtain ⟨-, -, -, h, -⟩ := (cmd32_eq_iff rsv layout k imm8 op _).mp rfl
  exact h.symm

@[simp] theorem opField_cmd32 : opField (cmd32 rsv layout k imm8 op) = op := by
  obtain ⟨-, -, -, -, h⟩ := (cmd32_eq_iff rsv layout k imm8 op _).mp rfl
  exact h.symm

end

/-- Masking a word masks its fields one by one. -/
theorem cmd32_and (rsv rsv' : BitVec 12) (layout layout' : BitVec 1) (k k' : BitVec 3) (imm8 imm8' op op' : Byte) :
    cmd32 rsv layout k imm8 op &&& cmd32 rsv' layout' k' imm8' op'
      = cmd32 (rsv &&& rsv') (layout &&& layout') (k &&& k') (imm8 &&& imm8') (op &&& op') := by
  change (rsv ++ layout ++ k ++ imm8 ++ op) &&& (rsv' ++ layout' ++ k' ++ imm8' ++ op') = _
  simp only [BitVec.and_append]
  rfl

@[simp] theorem layoutOfBit_bit (layout : Layout) : layoutOfBit layout.bit = layout := by cases layout <;> rfl

@[simp] theorem bit_layoutOfBit (l : BitVec 1) : (layoutOfBit l).bit = l := by revert l; decide

/-! ### The masks of R93's table that leave operands free -/

/-- RLE_PUSH's mask leaves IMM8 free. -/
theorem and_imm8Mask (w : Word) :
    w &&& 0xFFFF00FF = cmd32 (rsvField w) (layoutField w) (kField w) 0 (opField w) := by
  have hmask : (0xFFFF00FF : Word) = cmd32 (.allOnes 12) (.allOnes 1) (.allOnes 3) 0 (.allOnes 8) := by decide
  conv_lhs => rw [← cmd32_fields w, hmask, cmd32_and]
  simp only [BitVec.and_allOnes, BitVec.ofNat_eq_ofNat, BitVec.and_zero]

theorem and_imm8Mask_eq_iff (w : Word) (op : Byte) :
    w &&& 0xFFFF00FF = cmd32 0 0 0 0 op ↔ cmd32 0 0 0 (imm8Field w) op = w := by
  rw [and_imm8Mask, cmd32_inj, cmd32_eq_iff]
  simp only [eq_comm, true_and]

/-- FP_PARSE's and FP_FRAME's mask leaves K and LAYOUT free. -/
theorem and_kLayoutMask (w : Word) :
    w &&& 0xFFF0FFFF = cmd32 (rsvField w) 0 0 (imm8Field w) (opField w) := by
  have hmask : (0xFFF0FFFF : Word) = cmd32 (.allOnes 12) 0 0 (.allOnes 8) (.allOnes 8) := by decide
  conv_lhs => rw [← cmd32_fields w, hmask, cmd32_and]
  simp only [BitVec.and_allOnes, BitVec.ofNat_eq_ofNat, BitVec.and_zero]

theorem and_kLayoutMask_eq_iff (w : Word) (op : Byte) :
    w &&& 0xFFF0FFFF = cmd32 0 0 0 0 op ↔ cmd32 0 (layoutField w) (kField w) 0 op = w := by
  rw [and_kLayoutMask, cmd32_inj, cmd32_eq_iff]
  simp only [eq_comm, true_and]

/-! ### What a row selects -/

/-- The command a row gives, with the operands of the word w. -/
def OpcodeRow.instr (r : OpcodeRow) (w : Word) : Instr :=
  r.command (imm8Field w) (kField w) (layoutOfBit (layoutField w))

theorem rowSelects_eq_true_iff (r : OpcodeRow) (w : Word) :
    rowSelects r w = true ↔ w &&& r.mask = r.pattern ∧ (r.limitsK = true → kLegal (kField w) = true) := by
  cases hlim : r.limitsK <;> simp [rowSelects, hlim]

/-- A row without operands selects its own pattern. -/
theorem fixedRow_selects_iff (pattern w : Word) (command : Byte → BitVec 3 → Layout → Instr) :
    rowSelects ⟨0xFFFFFFFF, pattern, false, command⟩ w = true ↔ pattern = w :=
  calc _ ↔ w &&& 0xFFFFFFFF = pattern := by
        rw [rowSelects_eq_true_iff]; exact and_iff_left nofun
    _ ↔ w = pattern := by rw [show w &&& 0xFFFFFFFF = w from BitVec.and_allOnes]
    _ ↔ _ := eq_comm

theorem rlePushRow_selects_iff (w : Word) :
    rowSelects ⟨0xFFFF00FF, 0x00000011, false, fun b _ _ => .rlePush b⟩ w = true ↔
      encode (.rlePush (imm8Field w)) = w :=
  calc _ ↔ w &&& 0xFFFF00FF = cmd32 0 0 0 0 0x11 := by
        rw [rowSelects_eq_true_iff]; exact and_iff_left nofun
    _ ↔ _ := and_imm8Mask_eq_iff w 0x11

/-- The rows of FP_PARSE and FP_FRAME: K is legal, and the word is `OP + k * 2^16 + L * 2^19`. -/
theorem kLayoutRow_selects_iff (op : Byte) (w : Word) (command : Byte → BitVec 3 → Layout → Instr) :
    rowSelects ⟨0xFFF0FFFF, cmd32 0 0 0 0 op, true, command⟩ w = true ↔
      kLegal (kField w) = true ∧ cmd32 0 (layoutOfBit (layoutField w)).bit (kField w) 0 op = w := by
  rw [rowSelects_eq_true_iff, and_kLayoutMask_eq_iff, bit_layoutOfBit, and_comm]
  simp only [forall_const]

/-- A row selects a word exactly when the word is the encoding of the row's command, which is well formed (R93). -/
theorem rowSelects_iff (w : Word) : ∀ r ∈ opcodeRows,
    (rowSelects r w = true ↔ (r.instr w).wellFormed = true ∧ encode (r.instr w) = w) := by
  simp only [opcodeRows, List.forall_mem_cons, List.not_mem_nil, false_implies, implies_true, and_true]
  refine ⟨?nop, ?outClear, ?softReset, ?rleInit, ?rlePush, ?rleFlush, ?rlePushbuf, ?rleEncode, ?le32Enc, ?le32Dec,
    ?fpParse, ?fpFrame⟩
  case rlePush => exact (rlePushRow_selects_iff w).trans (and_iff_right rfl).symm
  case fpParse => exact kLayoutRow_selects_iff 0x30 w _
  case fpFrame => exact kLayoutRow_selects_iff 0x31 w _
  all_goals exact (fixedRow_selects_iff _ w _).trans (and_iff_right rfl).symm

/-- The OP byte of a selected word is the row's. -/
theorem opField_of_rowSelects (w : Word) (r : OpcodeRow) (hr : r ∈ opcodeRows) (h : rowSelects r w = true) :
    opField r.pattern = opField w := by
  obtain ⟨hmask, -⟩ := opcodeRows_opcode r hr
  obtain ⟨hsel, -⟩ := (rowSelects_eq_true_iff r w).mp h
  rw [← hsel, opField_and, hmask]
  exact BitVec.and_allOnes

/-- No two rows have one OP byte. -/
theorem opcodeRows_pairwise : opcodeRows.Pairwise fun r r' => opField r.pattern ≠ opField r'.pattern := by
  decide

/-- Settles O3: all selected rows have the word's OP byte, and no two rows have the same. -/
theorem opcodeRowsDisjoint : Obligations.OpcodeRowsDisjoint := by
  intro w
  have hop : ∀ r ∈ opcodeRows.filter (fun r => rowSelects r w), opField r.pattern = opField w := fun r hr =>
    opField_of_rowSelects w r (List.mem_filter.mp hr).1 (List.mem_filter.mp hr).2
  have hne := opcodeRows_pairwise.filter (fun r => rowSelects r w)
  generalize opcodeRows.filter (fun r => rowSelects r w) = rows at hop hne
  match rows with
  | [] => exact Nat.zero_le 1
  | [_] => exact Nat.le_refl 1
  | r :: r' :: rest =>
    have heq : opField r.pattern = opField r'.pattern := (hop r (by simp)).trans (hop r' (by simp)).symm
    exact absurd heq ((List.pairwise_cons.mp hne).1 r' (by simp))

/-! ### Decode and encode -/

/-- Decode answers the command of a row that selects the word (R94). -/
theorem exists_row_of_decode (w : Word) (i : Instr) (h : decode w = .ok i) :
    ∃ r ∈ opcodeRows, rowSelects r w = true ∧ r.instr w = i := by
  simp only [decode] at h
  split at h
  · next r hr => cases h; exact ⟨r, List.mem_of_find?_eq_some hr, by simpa using List.find?_some hr, rfl⟩
  · cases h

/-- As no two rows select one word, it does not matter which row decode finds first. -/
theorem decode_of_rowSelects (w : Word) (r : OpcodeRow) (hr : r ∈ opcodeRows) (h : rowSelects r w = true) :
    decode w = .ok (r.instr w) := by
  have hmem : r ∈ opcodeRows.filter fun r => rowSelects r w := List.mem_filter.mpr ⟨hr, h⟩
  have honly : opcodeRows.filter (fun r => rowSelects r w) = [r] := by
    obtain ⟨r', hr'⟩ := List.length_eq_one_iff.mp
      (Nat.le_antisymm (opcodeRowsDisjoint w) (List.length_pos_of_mem hmem))
    rw [hr', List.mem_singleton] at hmem
    rw [hr', hmem]
  have hfind : opcodeRows.find? (fun r => rowSelects r w) = some r := by
    rw [← List.head?_filter, honly]; rfl
  simp only [decode, hfind]; rfl

/-- Settles O2: a row selects only the encoding of its command. -/
theorem encodeOfDecode : Obligations.EncodeOfDecode := by
  intro w i h
  obtain ⟨r, hr, hsel, rfl⟩ := exists_row_of_decode w i h
  exact (rowSelects_iff w r hr).mp hsel

/-- Every command has its row, which reads the command's operands back from its word. -/
theorem exists_row_of_instr (i : Instr) : ∃ r ∈ opcodeRows, r.instr (encode i) = i := by
  cases i with
  | nop => exact ⟨_, List.mem_of_getElem? (i := 0) rfl, rfl⟩
  | outClear => exact ⟨_, List.mem_of_getElem? (i := 1) rfl, rfl⟩
  | softReset => exact ⟨_, List.mem_of_getElem? (i := 2) rfl, rfl⟩
  | rleInit => exact ⟨_, List.mem_of_getElem? (i := 3) rfl, rfl⟩
  | rlePush b => exact ⟨_, List.mem_of_getElem? (i := 4) rfl, by simp [OpcodeRow.instr, encode]⟩
  | rleFlush => exact ⟨_, List.mem_of_getElem? (i := 5) rfl, rfl⟩
  | rlePushbuf => exact ⟨_, List.mem_of_getElem? (i := 6) rfl, rfl⟩
  | rleEncode => exact ⟨_, List.mem_of_getElem? (i := 7) rfl, rfl⟩
  | le32Enc => exact ⟨_, List.mem_of_getElem? (i := 8) rfl, rfl⟩
  | le32Dec => exact ⟨_, List.mem_of_getElem? (i := 9) rfl, rfl⟩
  | fpParse k layout => exact ⟨_, List.mem_of_getElem? (i := 10) rfl, by simp [OpcodeRow.instr, encode]⟩
  | fpFrame k layout => exact ⟨_, List.mem_of_getElem? (i := 11) rfl, by simp [OpcodeRow.instr, encode]⟩

/-- Settles O1: the command's own row selects its word. -/
theorem decodeOfEncode : Obligations.DecodeOfEncode := by
  intro i hwf
  obtain ⟨r, hr, hi⟩ := exists_row_of_instr i
  have hsel : rowSelects r (encode i) = true := (rowSelects_iff _ r hr).mpr (by rw [hi]; exact ⟨hwf, rfl⟩)
  rw [decode_of_rowSelects _ r hr hsel, hi]

/-- The legal words are the encodings of the well-formed commands. -/
theorem decode_eq_ok_iff (w : Word) (i : Instr) : decode w = .ok i ↔ i.wellFormed = true ∧ encode i = w := by
  refine ⟨encodeOfDecode w i, ?_⟩
  rintro ⟨hwf, rfl⟩
  exact decodeOfEncode i hwf

/-- Settles O5: the legal words are encodings; the others are refused by evaluation. -/
theorem writtenWordsDecode : Obligations.WrittenWordsDecode := by
  refine ⟨decodeOfEncode .nop rfl, decodeOfEncode .softReset rfl, decodeOfEncode (.rlePush 0x62) rfl,
    decodeOfEncode .rleEncode rfl, decodeOfEncode .le32Dec rfl, decodeOfEncode (.fpParse 1 .grouped) rfl,
    decodeOfEncode (.fpParse 4 .interleaved) rfl, decodeOfEncode (.fpFrame 2 .interleaved) rfl, ?_, ?_, ?_, ?_⟩
  all_goals rfl

/-! ### The ILLEGAL words (R96) -/

/-- IMM8 of a command's word: 0 but for RLE_PUSH. -/
def Instr.imm8 : Instr → Byte
  | .rlePush b => b
  | _ => 0

/-- K of a command's word: 0 but for FP_PARSE and FP_FRAME. -/
def Instr.kBits : Instr → BitVec 3
  | .fpParse k _ => k
  | .fpFrame k _ => k
  | _ => 0

/-- LAYOUT of a command's word: 0 but for FP_PARSE and FP_FRAME. -/
def Instr.layoutBit : Instr → BitVec 1
  | .fpParse _ layout => layout.bit
  | .fpFrame _ layout => layout.bit
  | _ => 0

theorem encode_eq_cmd32 (i : Instr) : encode i = cmd32 0 i.layoutBit i.kBits i.imm8 i.opcode := by
  cases i <;> rfl

/-- The OP bytes of R93's table. -/
def opcodes : List Byte := [0x00, 0x01, 0x02, 0x10, 0x11, 0x12, 0x13, 0x14, 0x20, 0x21, 0x30, 0x31]

/-- What R91, R92 and R93 ask of a word's fields. -/
structure LegalFields (rsv : BitVec 12) (layout : BitVec 1) (k : BitVec 3) (imm8 op : Byte) : Prop where
  op_mem : op ∈ opcodes
  rsv_zero : rsv = 0
  imm8_unused : op ≠ 0x11 → imm8 = 0
  kLayout_unused : op ≠ 0x30 → op ≠ 0x31 → k = 0 ∧ layout = 0
  k_le : op = 0x30 ∨ op = 0x31 → k.toNat ≤ 4

/-- The word of a well-formed command has legal fields. -/
theorem Instr.legalFields (i : Instr) (hwf : i.wellFormed = true) :
    LegalFields 0 i.layoutBit i.kBits i.imm8 i.opcode where
  op_mem := by cases i <;> simp [Instr.opcode, opcodes]
  rsv_zero := rfl
  imm8_unused := by cases i <;> simp [Instr.opcode, Instr.imm8]
  kLayout_unused := by cases i <;> simp [Instr.opcode, Instr.kBits, Instr.layoutBit]
  k_le := by
    cases i with
    | fpParse k layout | fpFrame k layout => exact fun _ => (kLegal_iff k).mp hwf
    | _ => simp [Instr.opcode]

/-- The commands without operands, by their OP bytes. -/
theorem exists_plain_instr : ∀ op ∈ opcodes, op ≠ 0x11 → op ≠ 0x30 → op ≠ 0x31 →
    ∃ i : Instr, i.wellFormed = true ∧ encode i = cmd32 0 0 0 0 op := by
  simp only [opcodes, List.forall_mem_cons, List.not_mem_nil, false_implies, implies_true, and_true]
  refine ⟨fun _ _ _ => ⟨.nop, rfl, rfl⟩, fun _ _ _ => ⟨.outClear, rfl, rfl⟩, fun _ _ _ => ⟨.softReset, rfl, rfl⟩,
    fun _ _ _ => ⟨.rleInit, rfl, rfl⟩, fun h => absurd rfl h, fun _ _ _ => ⟨.rleFlush, rfl, rfl⟩,
    fun _ _ _ => ⟨.rlePushbuf, rfl, rfl⟩, fun _ _ _ => ⟨.rleEncode, rfl, rfl⟩, fun _ _ _ => ⟨.le32Enc, rfl, rfl⟩,
    fun _ _ _ => ⟨.le32Dec, rfl, rfl⟩, fun _ h => absurd rfl h, fun _ _ h => absurd rfl h⟩

/-- Legal fields are those of a well-formed command's word. -/
theorem LegalFields.exists_instr {rsv : BitVec 12} {layout : BitVec 1} {k : BitVec 3} {imm8 op : Byte}
    (h : LegalFields rsv layout k imm8 op) :
    ∃ i : Instr, i.wellFormed = true ∧ encode i = cmd32 rsv layout k imm8 op := by
  obtain ⟨hop, rfl, himm8, hkl, hk⟩ := h
  by_cases hpush : op = 0x11
  · subst hpush
    obtain ⟨rfl, rfl⟩ := hkl (by decide) (by decide)
    exact ⟨.rlePush imm8, rfl, rfl⟩
  obtain rfl := himm8 hpush
  by_cases hparse : op = 0x30
  · subst hparse
    refine ⟨.fpParse k (layoutOfBit layout), (kLegal_iff k).mpr (hk (.inl rfl)), ?_⟩
    rw [encode, bit_layoutOfBit]
  by_cases hframe : op = 0x31
  · subst hframe
    refine ⟨.fpFrame k (layoutOfBit layout), (kLegal_iff k).mpr (hk (.inr rfl)), ?_⟩
    rw [encode, bit_layoutOfBit]
  obtain ⟨rfl, rfl⟩ := hkl hparse hframe
  exact exists_plain_instr op hop hpush hparse hframe

/-- A word is legal exactly when its fields are. -/
theorem exists_decode_eq_ok_iff (w : Word) : (∃ i, decode w = .ok i) ↔
    LegalFields (rsvField w) (layoutField w) (kField w) (imm8Field w) (opField w) := by
  constructor
  · rintro ⟨i, hi⟩
    obtain ⟨hwf, rfl⟩ := encodeOfDecode w i hi
    simpa [encode_eq_cmd32] using i.legalFields hwf
  · intro h
    obtain ⟨i, hwf, hi⟩ := h.exists_instr
    exact ⟨i, (decode_eq_ok_iff w i).mpr ⟨hwf, hi.trans (cmd32_fields w)⟩⟩

theorem exists_decode_eq_error_iff (w : Word) : (∃ e, decode w = .error e) ↔ ¬ ∃ i, decode w = .ok i := by
  cases decode w <;> simp

/-- R96's items, as what legal fields rule out. -/
theorem not_legalFields_iff (rsv : BitVec 12) (layout : BitVec 1) (k : BitVec 3) (imm8 op : Byte) :
    ¬ LegalFields rsv layout k imm8 op ↔
      op ∉ opcodes ∨ rsv ≠ 0 ∨ (op ≠ 0x11 ∧ imm8 ≠ 0) ∨ (op ≠ 0x30 ∧ op ≠ 0x31 ∧ (k ≠ 0 ∨ layout ≠ 0)) ∨
        ((op = 0x30 ∨ op = 0x31) ∧ 5 ≤ k.toNat) := by
  have hconj : LegalFields rsv layout k imm8 op ↔ op ∈ opcodes ∧ rsv = 0 ∧ (op ≠ 0x11 → imm8 = 0) ∧
      (op ≠ 0x30 → op ≠ 0x31 → k = 0 ∧ layout = 0) ∧ (op = 0x30 ∨ op = 0x31 → ¬ 5 ≤ k.toNat) :=
    ⟨fun ⟨hop, hrsv, himm8, hkl, hk⟩ => ⟨hop, hrsv, himm8, hkl, fun h => Nat.not_lt.mpr (hk h)⟩,
      fun ⟨hop, hrsv, himm8, hkl, hk⟩ => ⟨hop, hrsv, himm8, hkl, fun h => Nat.not_lt.mp (hk h)⟩⟩
  simp only [hconj, not_and_or, Classical.not_imp, not_not, ne_eq]

/-- Settles O4: R96's items are the negation of legal fields, and an ILLEGAL word raises the status ILLEGAL. -/
theorem illegalWordsExactly : Obligations.IllegalWordsExactly := by
  intro w
  constructor
  · rw [exists_decode_eq_error_iff, exists_decode_eq_ok_iff]
    exact not_legalFields_iff _ _ _ _ _
  · intro e s he
    refine ⟨_, runCommand_of_error w e s he, rfl, ?_⟩
    exact ⟨statusCode_statusWord .illegal 0 0 false _ (by omega),
      BitVec.eq_of_toNat_eq (statusIdx_statusWord .illegal 0 0 false _ (by omega)),
      statusUtf8Bad_statusWord .illegal 0 0 false _ (by omega),
      statusUtf8BadTrail_statusWord .illegal 0 0 false _ (by omega),
      statusLastOp_statusWord .illegal 0 0 false _ (by omega)⟩

end Sys2Proof
end


section
/-! PROOFS. What a command and an access depend on: commands read their operands alone (spec/40_control.md R121), and an
access does not read the accesses behind it, so that a host that decides as it goes runs a fixed session
(spec/30_encoding.md R99). -/
namespace Sys2Proof.Machine

/-! ### Reading the operands -/

section
variable {s t : State} (h : s.SameOperands t)
include h

theorem State.SameOperands.symm : t.SameOperands s where
  obufSize := h.obufSize.symm
  inLen := h.inLen.symm
  input := fun a ha => (h.input a (h.inLen ▸ ha)).symm
  outLen := h.outLen.symm
  data := h.data.symm
  offset := h.offset.symm
  rle := h.rle.symm
  trailOff := h.trailOff.symm
  trailLen := h.trailLen.symm
  fieldOff := h.fieldOff.symm
  fieldLen := h.fieldLen.symm

theorem State.SameOperands.inputLength : inputLength t = inputLength s := congrArg BitVec.toNat h.inLen

theorem State.SameOperands.readRegion (r : Span) (hr : inRange (Machine.inputLength s) r = true) :
    readRegion t r = readRegion s r := by
  refine readBytes_congr _ _ _ _ fun j hj => h.input (r.1 + j) ?_
  have hend : r.1 + r.2 ≤ s.inLen.toNat := (inRange_iff _ r).mp hr
  omega

theorem State.SameOperands.inputBytes : inputBytes t = inputBytes s := by
  rw [Machine.inputBytes, Machine.inputBytes, h.inputLength]
  exact h.readRegion _ (by simp [inRange])

theorem State.SameOperands.fieldRegions (k : Nat) : fieldRegions k t = fieldRegions k s := by
  simp only [Machine.fieldRegions, h.fieldOff, h.fieldLen]

theorem State.SameOperands.trailRegion : trailRegion t = trailRegion s := by
  simp only [Machine.trailRegion, h.trailOff, h.trailLen]

theorem State.SameOperands.readRegions (rs : List Span)
    (hrs : ∀ r ∈ rs, inRange (Machine.inputLength s) r = true) : readRegions t rs = readRegions s rs := by
  induction rs with
  | nil => rfl
  | cons r rs ih =>
    obtain ⟨hr, hrs⟩ := List.forall_mem_cons.mp hrs
    simp only [Machine.readRegions, h.readRegion r hr, ih hrs]

end

theorem inRange_of_firstOutOfRange_none (L i : Nat) (rs : List Span) (h : firstOutOfRange L i rs = none) :
    ∀ r ∈ rs, inRange L r = true := by
  induction rs generalizing i with
  | nil => nofun
  | cons r rs ih =>
    simp only [firstOutOfRange] at h
    split at h
    · next hr => exact List.forall_mem_cons.mpr ⟨hr, ih (i + 1) h⟩
    · cases h

/-! ### What a command stages or raises depends on its operands alone -/

theorem Stages.congr {s t : State} {i : Instr} {st : Staged} (h : s.SameOperands t) (hst : Stages s i st) :
    Stages t i st := by
  cases hst with
  | nop => exact .nop
  | outClear => exact .outClear
  | softReset => exact .softReset
  | rleInit => exact .rleInit
  | rlePush b => rw [← h.rle]; exact .rlePush b
  | rleFlush => rw [← h.rle]; exact .rleFlush
  | rlePushbuf B hB => rw [← h.rle]; exact .rlePushbuf B (h.inputBytes.trans hB)
  | rleEncode B hB => rw [← h.rle]; exact .rleEncode B (h.inputBytes.trans hB)
  | le32Enc => rw [← h.data]; exact .le32Enc
  | le32Dec B hfit hB =>
    refine .le32Dec B (by rw [h.inputLength, h.offset]; exact hfit) ?_
    rw [h.offset, h.readRegion _ ((inRange_iff _ _).mpr hfit)]
    exact hB
  | fpParse k layout B fields toff tlen hk hB hparse =>
    exact .fpParse k layout B fields toff tlen hk (h.inputBytes.trans hB) hparse
  | fpFrame k layout F T hk hfields htrail hF hT =>
    refine .fpFrame k layout F T hk ?_ ?_ ?_ ?_
    · rw [h.inputLength, h.fieldRegions]; exact hfields
    · rw [h.inputLength, h.trailRegion]; exact htrail
    · rw [h.fieldRegions, h.readRegions _ (inRange_of_firstOutOfRange_none _ _ _ hfields)]; exact hF
    · rw [h.trailRegion, h.readRegion _ htrail]; exact hT

theorem Raises.congr {s t : State} {i : Instr} {code : Code} {idx : Nat} (h : s.SameOperands t)
    (hr : Raises s i code idx) : Raises t i code idx := by
  cases hr with
  | shortData hshort => exact .shortData (by rw [h.inputLength, h.offset]; exact hshort)
  | parseIllegal k layout hk => exact .parseIllegal k layout hk
  | shortPrefix k layout B _ hk hB hparse => exact .shortPrefix k layout B idx hk (h.inputBytes.trans hB) hparse
  | shortField k layout B _ hk hB hparse => exact .shortField k layout B idx hk (h.inputBytes.trans hB) hparse
  | frameIllegal k layout hk => exact .frameIllegal k layout hk
  | fieldRange k layout _ hk hfield =>
    exact .fieldRange k layout idx hk (by rw [h.inputLength, h.fieldRegions]; exact hfield)
  | trailRange k layout hk hfields htrail =>
    refine .trailRange k layout hk ?_ ?_
    · rw [h.inputLength, h.fieldRegions]; exact hfields
    · rw [h.inputLength, h.trailRegion]; exact htrail

/-- A command that stages commits: the other direction of `exec_next_cases`. -/
theorem Stages.exec_eq {s : State} {i : Instr} {st : Staged} (h : Stages s i st) :
    exec i s = .next (commit i.opcode st s) := by
  cases h with
  | nop | outClear | softReset | rleInit | rlePush | rleFlush | le32Enc => rfl
  | rlePushbuf B hB => simp only [exec, execRlePushbuf, hB, Instr.opcode]
  | rleEncode B hB => simp only [exec, execRleEncode, hB, Instr.opcode]
  | le32Dec B hfit hB => simp only [exec, execLe32Dec, Nat.not_lt.mpr hfit, if_false, hB, Instr.opcode]
  | fpParse k layout B fields toff tlen hk hB hparse => simp [exec, execFpParse, hk, hB, hparse, Instr.opcode]
  | fpFrame k layout F T hk hfields htrail hF hT =>
    simp [exec, execFpFrame, hk, hfields, htrail, hF, hT, Instr.opcode]

theorem Raises.exec_eq {s : State} {i : Instr} {code : Code} {idx : Nat} (h : Raises s i code idx) :
    exec i s = .next (raiseStatus code idx i.opcode s) := by
  cases h with
  | shortData hshort => simp only [exec, execLe32Dec, hshort, if_true, Instr.opcode]
  | parseIllegal k layout hk => simp [exec, execFpParse, hk, Instr.opcode]
  | shortPrefix k layout B _ hk hB hparse | shortField k layout B _ hk hB hparse =>
    simp [exec, execFpParse, hk, hB, hparse, Instr.opcode]
  | frameIllegal k layout hk => simp [exec, execFpFrame, hk, Instr.opcode]
  | fieldRange k layout _ hk hfield => simp [exec, execFpFrame, hk, hfield, Instr.opcode]
  | trailRange k layout hk hfields htrail => simp [exec, execFpFrame, hk, hfields, htrail, Instr.opcode]

/-- The three ends of a command, with what led to the first two. -/
theorem exec_ends (i : Instr) (s : State) :
    (∃ st, Stages s i st) ∨ (∃ code idx, Raises s i code idx) ∨ exec i s = .fault .unwrittenRead := by
  rcases he : exec i s with t | f | r
  · rcases exec_next_cases i s t he with ⟨st, hst, -⟩ | ⟨code, idx, hr, -⟩
    · exact .inl ⟨st, hst⟩
    · exact .inr (.inl ⟨code, idx, hr⟩)
  · cases f; exact .inr (.inr rfl)
  · exact absurd he (exec_not_refused i s r)

/-- Two states with the same operands: a command commits the same in both, raises the same status in both, or faults in
both. -/
theorem exec_same_end (i : Instr) {s t : State} (h : s.SameOperands t) :
    (∃ st, Stages s i st ∧ exec i s = .next (commit i.opcode st s) ∧ exec i t = .next (commit i.opcode st t)) ∨
    (∃ code idx, exec i s = .next (raiseStatus code idx i.opcode s) ∧
      exec i t = .next (raiseStatus code idx i.opcode t)) ∨
    (exec i s = .fault .unwrittenRead ∧ exec i t = .fault .unwrittenRead) := by
  rcases exec_ends i s with ⟨st, hs⟩ | ⟨code, idx, hs⟩ | hs
  · exact .inl ⟨st, hs, hs.exec_eq, (hs.congr h).exec_eq⟩
  · exact .inr (.inl ⟨code, idx, hs.exec_eq, (hs.congr h).exec_eq⟩)
  · rcases exec_ends i t with ⟨st, ht⟩ | ⟨code, idx, ht⟩ | ht
    · cases hs.symm.trans (ht.congr h.symm).exec_eq
    · cases hs.symm.trans (ht.congr h.symm).exec_eq
    · exact .inr (.inr ⟨hs, ht⟩)

/-! ### The same end leaves the same operands and the same output -/

theorem State.SameOperands.withStatus {s t : State} (h : s.SameOperands t) (w : Word) :
    (s.withStatus w).SameOperands (t.withStatus w) := { h with }

theorem State.SameOperands.appendOutput {s t : State} (h : s.SameOperands t) (out : Bytes) :
    (s.appendOutput out).SameOperands (t.appendOutput out) :=
  { h with outLen := by simp only [appendOutput_outLen, h.outLen] }

/-- A command writes IN_LEN and OUT_LEN, other than by its output, only to clear them. -/
theorem Stages.lengths_cleared {s : State} {i : Instr} {st : Staged} (h : Stages s i st) :
    (st.inLen = none ∨ st.inLen = some 0) ∧ (st.outLen = none ∨ st.outLen = some 0) := by
  cases h with
  | outClear => exact ⟨.inl rfl, .inr rfl⟩
  | softReset => exact ⟨.inr rfl, .inr rfl⟩
  | nop | rleInit | rlePush | rleFlush | rlePushbuf | rleEncode | le32Enc | le32Dec | fpParse | fpFrame =>
    exact ⟨.inl rfl, .inl rfl⟩

theorem State.SameOperands.perform {s t : State} (h : s.SameOperands t) (st : Staged)
    (hin : st.inLen = none ∨ st.inLen = some 0) : (st.perform s).SameOperands (st.perform t) where
  obufSize := h.obufSize
  inLen := by simp only [perform_inLen, h.inLen]
  input := by
    rcases hin with hin | hin <;> simp only [perform_inLen, perform_ibuf, hin, Option.getD_none, Option.getD_some]
    · exact h.input
    · exact nofun
  outLen := by simp only [perform_outLen, h.outLen]
  data := by simp only [perform_data, h.data]
  offset := by simp only [perform_offset, h.offset]
  rle := by simp only [perform_rle, h.rle]
  trailOff := by simp only [perform_trailOff, h.trailOff]
  trailLen := by simp only [perform_trailLen, h.trailLen]
  fieldOff := by simp only [perform_fieldOff, h.fieldOff]
  fieldLen := by simp only [perform_fieldLen, h.fieldLen]

/-- t and t' agree on STATUS, on every operand, and on OBUF from index `o` to OUT_LEN (R121). -/
structure SameResult (o : Nat) (t t' : State) : Prop where
  status : t'.status = t.status
  operands : t.SameOperands t'
  output : ∀ a, o ≤ a → a < t.outLen.toNat → t'.obuf.read a = t.obuf.read a

theorem sameResult_raiseStatus {s t : State} (h : s.SameOperands t) (code : Code) (idx : Nat) (op : Byte) :
    SameResult s.outLen.toNat (raiseStatus code idx op s) (raiseStatus code idx op t) where
  status := rfl
  operands := h.withStatus _
  output := fun _ hle hlt => absurd hlt (Nat.not_lt.mpr hle)

/-- The appended bytes of two commits of one output at one OUT_LEN are the same. -/
theorem read_appendOutput_congr {s t : State} (h : s.SameOperands t) (out : Bytes) (hfit : overflows s out = false)
    (a : Nat) (hle : s.outLen.toNat ≤ a) (hlt : a < (s.appendOutput out).outLen.toNat) :
    (t.appendOutput out).obuf.read a = (s.appendOutput out).obuf.read a := by
  rw [appendOutput_outLen_toNat s out hfit] at hlt
  obtain ⟨k, rfl⟩ := Nat.exists_eq_add_of_le hle
  have hk : k < out.length := by omega
  rw [appendOutput_obuf, appendOutput_obuf, h.outLen, read_writeBytes_inside _ _ _ _ hk,
    read_writeBytes_inside _ _ _ _ hk]

theorem sameResult_commit {s t : State} {i : Instr} {st : Staged} (h : s.SameOperands t) (hst : Stages s i st)
    (op : Byte) : SameResult s.outLen.toNat (commit op st s) (commit op st t) := by
  have hover : overflows t st.output = overflows s st.output := by simp only [overflows, h.obufSize, h.outLen]
  obtain ⟨hin, hout⟩ := hst.lengths_cleared
  rcases commit_cases op st s with ⟨hs, hc⟩ | ⟨hs, hc⟩
  · rw [hc, commit_of_overflows op st t (hover.trans hs)]
    exact sameResult_raiseStatus h .overflow 0 op
  · rw [hc, commit_of_fits op st t (hover.trans hs)]
    refine ⟨rfl, ((h.appendOutput _).perform st hin).withStatus _, fun a hle hlt => ?_⟩
    rw [withStatus_outLen, perform_outLen] at hlt
    rcases hout with hout | hout <;> rw [hout] at hlt
    · exact read_appendOutput_congr h st.output hs a hle hlt
    · exact absurd hlt (Nat.not_lt_zero a)

/-- Two states with the same operands: a command leaves the same result in both, or faults in both. -/
theorem exec_sameResult (i : Instr) {s t : State} (h : s.SameOperands t) :
    (∃ s' t', exec i s = .next s' ∧ exec i t = .next t' ∧ SameResult s.outLen.toNat s' t') ∨
    (exec i s = .fault .unwrittenRead ∧ exec i t = .fault .unwrittenRead) := by
  rcases exec_same_end i h with ⟨st, hst, hs, ht⟩ | ⟨code, idx, hs, ht⟩ | hfault
  · exact .inl ⟨_, _, hs, ht, sameResult_commit h hst i.opcode⟩
  · exact .inl ⟨_, _, hs, ht, sameResult_raiseStatus h code idx i.opcode⟩
  · exact .inr hfault

/-- Settles O16: both states come to the same end of the command, and each end leaves the same result. -/
theorem outcomeDependsOnOperandsOnly : Obligations.OutcomeDependsOnOperandsOnly := by
  intro i s₁ s₂ h
  rcases exec_sameResult i h with ⟨t₁, t₂, h₁, h₂, hres⟩ | ⟨h₁, h₂⟩
  · refine ⟨by simp [h₁, h₂], fun t ht => ?_⟩
    cases h₁.symm.trans ht
    exact ⟨t₂, h₂, hres.status, hres.operands, hres.output⟩
  · exact ⟨iff_of_true h₁ h₂, fun t ht => by cases h₁.symm.trans ht⟩

/-! ### An access does not depend on the accesses behind it -/

/-- The outcome with its next state changed, if it has one. -/
def mapNext (f : State → State) : StepResult → StepResult
  | .next s => .next (f s)
  | .fault r => .fault r
  | .refused r => .refused r

section
variable (s : State) (as : List Access)

theorem sameOperands_withPending : s.SameOperands (s.withPending as) := by
  constructor <;> simp

theorem commit_withPending (op : Byte) (st : Staged) :
    commit op st (s.withPending as) = (commit op st s).withPending as := by
  have hover : overflows (s.withPending as) st.output = overflows s st.output := rfl
  rcases commit_cases op st s with ⟨hs, hc⟩ | ⟨hs, hc⟩
  · rw [hc, commit_of_overflows op st _ (hover.trans hs)]; rfl
  · rw [hc, commit_of_fits op st _ (hover.trans hs)]; rfl

theorem exec_withPending (i : Instr) : exec i (s.withPending as) = mapNext (·.withPending as) (exec i s) := by
  rcases exec_same_end i (sameOperands_withPending s as) with ⟨st, -, h₁, h₂⟩ | ⟨code, idx, h₁, h₂⟩ | ⟨h₁, h₂⟩
  · rw [h₁, h₂, commit_withPending]; rfl
  · rw [h₁, h₂]; rfl
  · rw [h₁, h₂]; rfl

theorem runCommand_withPending (w : Word) :
    runCommand w (s.withPending as) = mapNext (·.withPending as) (runCommand w s) := by
  rcases hd : decode w with e | i
  · rw [runCommand_of_error w e _ hd, runCommand_of_error w e _ hd]; rfl
  · rw [runCommand_of_ok w i _ hd, runCommand_of_ok w i _ hd, exec_withPending]

theorem accept_withPending (o : StepResult) :
    accept (mapNext (·.withPending as) o) = mapNext (·.withPending as) (accept o) := by
  cases o <;> rfl

theorem answered_withPending (o : Option Response) :
    (s.withPending as).answered o = mapNext (·.withPending as) (s.answered o) := by
  cases o <;> rfl

theorem answerByte_withPending (o : Option Byte) :
    answerByte (s.withPending as) o = mapNext (·.withPending as) (answerByte s o) := by
  rw [answerByte_eq_answered, answerByte_eq_answered, answered_withPending]

theorem answerBytes_withPending (o : Option Bytes) :
    answerBytes (s.withPending as) o = mapNext (·.withPending as) (answerBytes s o) := by
  rw [answerBytes_eq_answered, answerBytes_eq_answered, answered_withPending]

theorem writeReg_withPending (w : Word) (r : Reg) :
    writeReg (s.withPending as) w r = (writeReg s w r).map (·.withPending as) := by
  cases r <;> rfl

theorem serveRead8_withPending (addr : Word) :
    serveRead8 addr (s.withPending as) = mapNext (·.withPending as) (serveRead8 addr s) := by
  simp only [serveRead8, withPending_cfg]
  cases locate s.cfg addr with
  | window | unmapped => rfl
  | ibuf | obuf => exact answerByte_withPending s as _

theorem serveRead32_withPending (addr : Word) :
    serveRead32 addr (s.withPending as) = mapNext (·.withPending as) (serveRead32 addr s) := by
  simp only [serveRead32, withPending_cfg]
  split
  · rfl
  · cases locate s.cfg addr with
    | window off =>
      simp only
      cases registerAt off with
      | none => rfl
      | some r => cases r <;> rfl
    | ibuf | obuf =>
      simp only
      rw [apply_ite (mapNext _), answerBytes_withPending]
      rfl
    | unmapped => rfl

theorem serveWrite8_withPending (addr : Word) (b : Byte) :
    serveWrite8 addr b (s.withPending as) = mapNext (·.withPending as) (serveWrite8 addr b s) := by
  simp only [serveWrite8, withPending_cfg]
  cases locate s.cfg addr <;> rfl

theorem serveWriteReg_withPending (r : Reg) (w : Word) :
    serveWriteReg r w (s.withPending as) = mapNext (·.withPending as) (serveWriteReg r w s) := by
  simp only [serveWriteReg]
  split
  · rw [runCommand_withPending, accept_withPending]
  · rw [writeReg_withPending]
    cases writeReg s w r <;> rfl

theorem serveWrite32_withPending (addr w : Word) :
    serveWrite32 addr w (s.withPending as) = mapNext (·.withPending as) (serveWrite32 addr w s) := by
  simp only [serveWrite32, withPending_cfg]
  split
  · rfl
  · cases locate s.cfg addr with
    | window off =>
      simp only
      cases registerAt off with
      | none => rfl
      | some r => exact serveWriteReg_withPending s as r w
    | ibuf =>
      simp only
      rw [apply_ite (mapNext _)]
      rfl
    | obuf | unmapped => rfl

theorem serve_withPending (a : Access) :
    serve a (s.withPending as) = mapNext (·.withPending as) (serve a s) := by
  cases a with
  | rd8 addr => exact serveRead8_withPending s as addr
  | rd16 => rfl
  | rd32 addr => exact serveRead32_withPending s as addr
  | wr8 addr b => exact serveWrite8_withPending s as addr b
  | wr16 => rfl
  | wr32 addr w => exact serveWrite32_withPending s as addr w

/-- A step with `a` pending in front of `as` is `a` served, with `as` put behind it. -/
theorem step_withPending_cons (a : Access) :
    step (s.withPending (a :: as)) = mapNext (·.withPending as) (serve a s) :=
  (step_of_access _ a as rfl).trans (serve_withPending s as a)

theorem runSteps_withPending_nil (h : s.pending = []) : runSteps 0 (s.withPending []) = .next s := by
  rw [← h]; rfl

end

/-! ### A host that decides as it goes (R99) -/

/-- The accesses still to come decide nothing in a served access; so those the host chooses, one at a time, can stand in
the session from its start. -/
theorem exists_session_of_runHostProgram (h : HostProgram) (n : Nat) (s t : State) (hp : s.pending = [])
    (hrun : runHostProgram h n s = .next t) :
    ∃ as : List Access, as.length ≤ n ∧ runSteps as.length (s.withPending as) = .next t := by
  induction n generalizing s with
  | zero => cases hrun; exact ⟨[], Nat.zero_le 0, runSteps_withPending_nil _ hp⟩
  | succ n ih =>
    simp only [runHostProgram] at hrun
    split at hrun
    · cases hrun; exact ⟨[], Nat.zero_le _, runSteps_withPending_nil _ hp⟩
    · next a _ =>
      rw [step_withPending_cons] at hrun
      rcases hserve : serve a s with u | f | r <;> rw [hserve] at hrun
      · obtain ⟨as, hlen, has⟩ := ih (u.withPending []) rfl hrun
        refine ⟨a :: as, Nat.succ_le_succ hlen, ?_⟩
        have hstep : step (s.withPending (a :: as)) = .next (u.withPending as) := by
          rw [step_withPending_cons, hserve]; rfl
        exact (runSteps_succ as.length _ _ hstep).trans has
      · cases hrun
      · cases hrun

/-- Settles O54, in the words of the model's own run. -/
theorem adaptiveHostRunsAreSessions : Obligations.AdaptiveHostRunsAreSessions :=
  exists_session_of_runHostProgram

end Sys2Proof.Machine
end

section
/-! PROOFS. The control family (spec/40_control.md): a command that stages no output, a command that does not end with
OK, and a command whose input is written; then the obligations on NOP, OUT_CLEAR, SOFT_RESET and every command word. -/
namespace Sys2Proof.Machine

/-! ### Commands that stage no output (R113) -/

theorem appendOutput_nil (s : State) : s.appendOutput [] = s := by simp [State.appendOutput]

/-- Without output there is no bound to check: the commit performs the staged writes, in every state. -/
theorem commit_of_no_output (op : Byte) (st : Staged) (s : State) (h : st.output = []) :
    commit op st s = (st.perform s).withStatus (statusWord .ok 0 st.utf8Bad st.utf8BadTrail op) := by
  rw [commit_of_fits op st s (by rw [h, overflows_nil]), h, appendOutput_nil]

theorem Stages.exec_eq_of_no_output {s : State} {i : Instr} {st : Staged} (hst : Stages s i st) (h : st.output = []) :
    exec i s = .next ((st.perform s).withStatus (statusWord .ok 0 st.utf8Bad st.utf8BadTrail i.opcode)) := by
  rw [hst.exec_eq, commit_of_no_output i.opcode st s h]

theorem perform_empty (s : State) : ({} : Staged).perform s = s := rfl

theorem eq_nop_of_opcode (i : Instr) (h : i.opcode = 0x00) : i = .nop := by
  cases i with
  | nop => rfl
  | _ => simp [Instr.opcode] at h

/-- Settles O7. A word with OP 0x00 can decode to NOP alone, whose word is 0. -/
theorem nopResult : Obligations.NopResult := by
  refine ⟨rfl, fun s => ?_, fun w hop hne => ?_⟩
  · rw [Stages.nop.exec_eq_of_no_output rfl, perform_empty]
    rfl
  · rw [exists_decode_eq_error_iff]
    rintro ⟨i, hi⟩
    obtain rfl := eq_nop_of_opcode i ((opcode_of_decode w i hi).trans hop)
    obtain ⟨-, hw⟩ := encodeOfDecode w .nop hi
    exact hne hw.symm

/-- Settles O8: OUT_LEN is the one register staged. -/
theorem outClearResult : Obligations.OutClearResult :=
  ⟨rfl, fun _ => Stages.outClear.exec_eq_of_no_output rfl⟩

/-- Settles O9: every register is staged with its reset value, and no commit without output touches the buffers. -/
theorem softResetResult : Obligations.SoftResetResult :=
  ⟨rfl, fun _ => Stages.softReset.exec_eq_of_no_output rfl⟩

/-! ### Commands that do not end with OK (R112) -/

theorem statusCode_ok (idx : Nat) (bad : BitVec 4) (trail : Bool) (op : Byte) (h : idx < 8) :
    statusCode (statusWord .ok idx bad trail op) = 0 :=
  BitVec.eq_of_toNat_eq (statusCode_statusWord .ok idx bad trail op h)

/-- A commit ends with OK, or it is the status OVERFLOW. -/
theorem commit_ok_or_raised (op : Byte) (st : Staged) (s : State) :
    statusCode (commit op st s).status = 0 ∨ ∃ w, commit op st s = s.withStatus w := by
  rcases commit_cases op st s with ⟨-, hc⟩ | ⟨-, hc⟩ <;> rw [hc]
  · exact .inr ⟨_, rfl⟩
  · exact .inl (statusCode_ok 0 _ _ op (by omega))

theorem exec_ok_or_raised (i : Instr) (s t : State) (h : exec i s = .next t) :
    statusCode t.status = 0 ∨ ∃ w, t = s.withStatus w := by
  rcases exec_next_cases i s t h with ⟨st, -, rfl⟩ | ⟨code, idx, -, rfl⟩
  · exact commit_ok_or_raised i.opcode st s
  · exact .inr ⟨_, rfl⟩

theorem runCommand_ok_or_raised (w : Word) (s t : State) (h : runCommand w s = .next t) :
    statusCode t.status = 0 ∨ ∃ v, t = s.withStatus v := by
  rcases hd : decode w with e | i
  · rw [runCommand_of_error w e s hd] at h
    cases h
    exact .inr ⟨_, rfl⟩
  · rw [runCommand_of_ok w i s hd] at h
    exact exec_ok_or_raised i s t h

/-- Settles O10: only a commit that fits performs anything else, and it ends with OK. -/
theorem raisedStatusChangesOnlyStatus : Obligations.RaisedStatusChangesOnlyStatus := by
  intro w s t h hcode
  rcases runCommand_ok_or_raised w s t h with hok | ⟨v, rfl⟩
  · exact absurd hok hcode
  · rfl

/-! ### Commands whose input is written (R230, R236) -/

theorem State.inputWritten.exists_inputBytes {s : State} (h : s.inputWritten) : ∃ B, inputBytes s = some B :=
  Option.isSome_iff_exists.mp ((inputBytes_isSome_iff s).mpr h)

/-- Regions inside an input that can be read can all be read. -/
theorem exists_readRegions_of_inputBytes (s : State) (B : Bytes) (rs : List Span) (hB : inputBytes s = some B)
    (hrs : ∀ r ∈ rs, inRange (inputLength s) r = true) : ∃ F, readRegions s rs = some F := by
  induction rs with
  | nil => exact ⟨[], rfl⟩
  | cons r rs ih =>
    obtain ⟨hr, hrs⟩ := List.forall_mem_cons.mp hrs
    obtain ⟨F, hF⟩ := ih hrs
    have hread := readRegion_of_inputBytes s B r hB ((inRange_iff _ r).mp hr)
    exact ⟨slice B r.1 r.2 :: F, by simp only [readRegions, hread, hF]⟩

/-- The command stages or raises something in s: by `Stages.exec_eq` and `Raises.exec_eq` it then gives a next state. -/
def Ends (i : Instr) (s : State) : Prop := (∃ st, Stages s i st) ∨ ∃ code idx, Raises s i code idx

theorem Ends.exists_next {i : Instr} {s : State} (h : Ends i s) : ∃ t, exec i s = .next t := by
  rcases h with ⟨st, hst⟩ | ⟨code, idx, hr⟩
  · exact ⟨_, hst.exec_eq⟩
  · exact ⟨_, hr.exec_eq⟩

theorem ends_le32Dec (s : State) (B : Bytes) (hB : inputBytes s = some B) : Ends .le32Dec s := by
  rcases Nat.lt_or_ge (inputLength s) (s.offset.toNat + 4) with hshort | hfit
  · exact .inr ⟨_, _, .shortData hshort⟩
  · exact .inl ⟨_, .le32Dec _ hfit (readRegion_of_inputBytes s B (s.offset.toNat, 4) hB hfit)⟩

theorem ends_fpParse (k : BitVec 3) (layout : Layout) (s : State) (B : Bytes) (hB : inputBytes s = some B) :
    Ends (.fpParse k layout) s := by
  cases hk : kLegal k with
  | false => exact .inr ⟨_, _, .parseIllegal k layout hk⟩
  | true =>
    cases hp : parse B k.toNat layout with
    | ok fields toff tlen => exact .inl ⟨_, .fpParse k layout B fields toff tlen hk hB hp⟩
    | shortPrefix i => exact .inr ⟨_, _, .shortPrefix k layout B i hk hB hp⟩
    | shortField i => exact .inr ⟨_, _, .shortField k layout B i hk hB hp⟩

theorem ends_fpFrame (k : BitVec 3) (layout : Layout) (s : State) (B : Bytes) (hB : inputBytes s = some B) :
    Ends (.fpFrame k layout) s := by
  cases hk : kLegal k with
  | false => exact .inr ⟨_, _, .frameIllegal k layout hk⟩
  | true =>
    cases hf : firstOutOfRange (inputLength s) 0 (fieldRegions k.toNat s) with
    | some i => exact .inr ⟨_, _, .fieldRange k layout i hk hf⟩
    | none =>
      cases ht : inRange (inputLength s) (trailRegion s) with
      | false => exact .inr ⟨_, _, .trailRange k layout hk hf ht⟩
      | true =>
        obtain ⟨F, hF⟩ :=
          exists_readRegions_of_inputBytes s B _ hB (inRange_of_firstOutOfRange_none _ _ _ hf)
        have hT := readRegion_of_inputBytes s B (trailRegion s) hB ((inRange_iff _ _).mp ht)
        exact .inl ⟨_, .fpFrame k layout F _ hk hf ht hF hT⟩

/-- Every read of a command lies inside the input, so a written input leaves it nothing to fault on. -/
theorem ends_of_inputWritten (i : Instr) (s : State) (h : s.inputWritten) : Ends i s := by
  obtain ⟨B, hB⟩ := h.exists_inputBytes
  cases i with
  | nop => exact .inl ⟨_, .nop⟩
  | outClear => exact .inl ⟨_, .outClear⟩
  | softReset => exact .inl ⟨_, .softReset⟩
  | rleInit => exact .inl ⟨_, .rleInit⟩
  | rlePush b => exact .inl ⟨_, .rlePush b⟩
  | rleFlush => exact .inl ⟨_, .rleFlush⟩
  | rlePushbuf => exact .inl ⟨_, .rlePushbuf B hB⟩
  | rleEncode => exact .inl ⟨_, .rleEncode B hB⟩
  | le32Enc => exact .inl ⟨_, .le32Enc⟩
  | le32Dec => exact ends_le32Dec s B hB
  | fpParse k layout => exact ends_fpParse k layout s B hB
  | fpFrame k layout => exact ends_fpFrame k layout s B hB

theorem exists_runCommand_of_inputWritten (w : Word) (s : State) (h : s.inputWritten) :
    ∃ t, runCommand w s = .next t := by
  rcases hd : decode w with e | i
  · exact ⟨_, runCommand_of_error w e s hd⟩
  · rw [runCommand_of_ok w i s hd]
    exact (ends_of_inputWritten i s h).exists_next

theorem StatusOf.lastOp {op : Byte} {w : Word} (h : StatusOf op w) : statusLastOp w = op := by
  obtain ⟨code, idx, bad, trail, rfl, hidx, -, -⟩ := h
  exact statusLastOp_statusWord code idx bad trail op (by omega)

/-- Settles O13: the word ends, and what it wrote to STATUS is a `StatusOf` its own OP byte. -/
theorem everyWordEndsWithStatus : Obligations.EveryWordEndsWithStatus := by
  intro w s h
  obtain ⟨t, ht⟩ := exists_runCommand_of_inputWritten w s h
  have hstatus := runCommand_statusOf w s t ht
  obtain ⟨hcode, -⟩ := hstatus.legal
  exact ⟨t, ht, hcode, hstatus.lastOp⟩

end Sys2Proof.Machine
end

section
/-! PROOFS. The scalar codec family (spec/41_le32_codec.md): the two functions, the two commands, the commands that fault
(spec/60_exceptions.md R236), and the host's match sequence, whose last command is LE32_ENC (spec/43_framing.md R221). -/
namespace Sys2Proof.Machine

/-! ### The functions (R130 to R132) -/

theorem dec32_enc32 (v : Word) : dec32 (enc32 v) = some v := by
  have hv := v.isLt
  refine congrArg some (BitVec.eq_of_toNat_eq ?_)
  simp only [append_toNat, BitVec.extractLsb'_toNat, Nat.shiftRight_eq_div_pow]
  omega

/-- Settles O17. -/
theorem scalarRoundTrips : Obligations.ScalarRoundTrips := by
  refine ⟨dec32_enc32, fun B hB => ?_⟩
  obtain ⟨w, hw⟩ := Option.isSome_iff_exists.mp ((dec32_isSome_iff B).mpr hB)
  rw [hw, Option.map_some, enc32_of_dec32 B w hw]

/-! ### Commands that append output (40_control.md R113) -/

/-- A commit that fits appends its output, unless it also sets OUT_LEN. -/
theorem commit_appends (op : Byte) (st : Staged) (s : State) (hfit : overflows s st.output = false)
    (hlen : st.outLen = none) : s.Appends (commit op st s) st.output := by
  have hout : (commit op st s).outLen = (s.appendOutput st.output).outLen := by simp [commit_of_fits op st s hfit, hlen]
  have hobuf : (commit op st s).obuf = s.obuf.writeBytes s.outLen.toNat st.output := by
    simp [commit_of_fits op st s hfit]
  refine ⟨?_, fun j hj => ?_, fun a ha => ?_⟩
  · rw [hout, appendOutput_outLen_toNat s _ hfit]
  · rw [hobuf, read_writeBytes_inside _ _ _ _ hj]
  · rw [hobuf, read_writeBytes_outside _ _ _ _ ha]

/-- The frame of the commands that write no register but STATUS, OUT_LEN and RLE_STATE. -/
theorem exec_sameButOutput (i : Instr) (s t : State) (h : exec i s = .next t) (hreset : i ≠ .softReset)
    (hdec : i ≠ .le32Dec) (hparse : ∀ k l, i ≠ .fpParse k l) : s.SameButOutput t := by
  obtain ⟨hcfg, hibuf, hpending, hresponses, hinput, hdata, hfields, -⟩ := frameOfEveryCommand i s t h
  obtain ⟨hinLen, hoffset⟩ := hinput hreset
  obtain ⟨htrailOff, htrailLen, hfieldOff, hfieldLen⟩ := hfields hreset hparse
  exact ⟨hcfg, hinLen, hdata hreset hdec, hoffset, htrailOff, htrailLen, hfieldOff, hfieldLen, hibuf, hpending,
    hresponses⟩

/-! ### LE32_ENC and LE32_DEC (R136, R137) -/

theorem exec_le32Enc (s : State) : exec .le32Enc s = .next (commit 0x20 { output := enc32 s.data } s) :=
  Stages.le32Enc.exec_eq

/-- LE32_ENC with room for four bytes. -/
theorem exists_exec_le32Enc (s : State) (hroom : s.outLen.toNat + 4 ≤ s.cfg.obufSize) :
    ∃ t, exec .le32Enc s = .next t ∧ s.Appends t (enc32 s.data) ∧ t.status = statusWord .ok 0 0 false 0x20 := by
  have hfit : overflows s (enc32 s.data) = false := (overflows_eq_false_iff s _).mpr (.inr hroom)
  refine ⟨_, exec_le32Enc s, commit_appends _ _ s hfit rfl, ?_⟩
  rw [commit_of_fits _ _ s hfit, withStatus_status]

/-- Settles O18: the four bytes are `enc32`'s, and the rest is the frame of LE32_ENC. -/
theorem le32EncResult : Obligations.Le32EncResult := by
  refine ⟨rfl, fun s => ⟨fun hroom => ?_, fun hfull => ?_⟩⟩
  · obtain ⟨t, ht, happends, hstatus⟩ := exists_exec_le32Enc s hroom
    obtain ⟨-, -, -, -, -, -, -, hrle, -⟩ := frameOfEveryCommand .le32Enc s t ht
    exact ⟨t, ht, happends, hstatus, hrle (by decide) nofun, exec_sameButOutput _ s t ht nofun nofun nofun⟩
  · have hover : overflows s (enc32 s.data) = true := (overflows_iff s _).mpr ⟨nofun, hfull⟩
    rw [exec_le32Enc, commit_of_overflows _ _ s hover]
    rfl

/-- LE32_DEC with four written bytes in the input at OFFSET. -/
theorem exec_le32Dec_of_read (s : State) (B : Bytes) (w : Word) (hfit : s.offset.toNat + 4 ≤ s.inLen.toNat)
    (hread : readRegion s (s.offset.toNat, 4) = some B) (hw : dec32 B = some w) :
    exec .le32Dec s = .next { s with data := w, status := 0x21000000 } := by
  rw [(Stages.le32Dec B hfit hread).exec_eq_of_no_output rfl, hw]
  show Host.Outcome.next ((Staged.perform { data := some w } s).withStatus (statusWord .ok 0 0 false 0x21)) = _
  rfl

/-- Settles O19: DATA is the one register staged, and its value is R131's sum. -/
theorem le32DecResult : Obligations.Le32DecResult := by
  refine ⟨rfl, fun s => ⟨fun b₀ b₁ b₂ b₃ hfit h₀ h₁ h₂ h₃ => ?_, fun hshort => (Raises.shortData hshort).exec_eq⟩⟩
  have hread : readRegion s (s.offset.toNat, 4) = some [b₀, b₁, b₂, b₃] := by
    refine (readBytes_eq_some_iff _ _ _ _).mpr ⟨rfl, fun j hj => ?_⟩
    match j, hj with
    | 0, _ => exact h₀
    | 1, _ => exact h₁
    | 2, _ => exact h₂
    | 3, _ => exact h₃
  exact exec_le32Dec_of_read s _ _ hfit hread (dec32_eq_ofNat b₀ b₁ b₂ b₃)

/-! ### Reads of unwritten bytes (60_exceptions.md R236) -/

theorem readRegion_eq_none_iff (s : State) (r : Span) :
    readRegion s r = none ↔ ∃ j, j < r.2 ∧ s.ibuf.written (r.1 + j) = false := by
  rw [readRegion, ← Option.not_isSome_iff_eq_none, readBytes_isSome_iff]
  simp

theorem inputBytes_eq_none_iff (s : State) :
    inputBytes s = none ↔ ∃ a, a < s.inLen.toNat ∧ s.ibuf.written a = false := by
  simp only [inputBytes, readRegion_eq_none_iff, Nat.zero_add]

theorem readRegions_eq_none_iff (s : State) (rs : List Span) :
    readRegions s rs = none ↔ ∃ r ∈ rs, readRegion s r = none := by
  induction rs with
  | nil => simp [readRegions]
  | cons r rs ih =>
    rw [List.exists_mem_cons_iff, ← ih, readRegions]
    cases readRegion s r <;> cases readRegions s rs <;> simp

theorem firstOutOfRange_eq_none_iff (L i : Nat) (rs : List Span) :
    firstOutOfRange L i rs = none ↔ ∀ r ∈ rs, r.1 + r.2 ≤ L := by
  induction rs generalizing i with
  | nil => simp [firstOutOfRange]
  | cons r rs ih =>
    rw [List.forall_mem_cons, ← inRange_iff, ← ih (i + 1), firstOutOfRange]
    cases inRange L r <;> simp

/-- The reads of FP_FRAME, region by region. -/
theorem readsUnwritten_fpFrame_iff (k : BitVec 3) (layout : Layout) (s : State) :
    readsUnwritten (.fpFrame k layout) s ↔ kLegal k = true ∧
      (inRange (inputLength s) (trailRegion s) = true ∧
        firstOutOfRange (inputLength s) 0 (fieldRegions k.toNat s) = none) ∧
      (readRegion s (trailRegion s) = none ∨ readRegions s (fieldRegions k.toNat s) = none) := by
  simp only [readsUnwritten, kLegal_iff, inRange_iff, firstOutOfRange_eq_none_iff, readRegions_eq_none_iff,
    readRegion_eq_none_iff, List.forall_mem_cons, List.exists_mem_cons_iff]

/-- A command that gets to its commit has read its operands. -/
theorem Stages.not_readsUnwritten {s : State} {i : Instr} {st : Staged} (h : Stages s i st) : ¬ readsUnwritten i s := by
  cases h with
  | nop | outClear | softReset | rleInit | rlePush | rleFlush | le32Enc => exact id
  | rlePushbuf B hB | rleEncode B hB =>
    intro hun
    cases hB.symm.trans ((inputBytes_eq_none_iff s).mpr hun)
  | le32Dec B hfit hB =>
    rintro ⟨-, hun⟩
    cases hB.symm.trans ((readRegion_eq_none_iff s _).mpr hun)
  | fpParse k layout B fields toff tlen hk hB hparse =>
    rintro ⟨-, hun⟩
    cases hB.symm.trans ((inputBytes_eq_none_iff s).mpr hun)
  | fpFrame k layout F T hk hfields htrail hF hT => simp [readsUnwritten_fpFrame_iff, hF, hT]

/-- A command that raises a status does so before it reads, or after it has read its whole input. -/
theorem Raises.not_readsUnwritten {s : State} {i : Instr} {code : Code} {idx : Nat} (h : Raises s i code idx) :
    ¬ readsUnwritten i s := by
  cases h with
  | shortData hshort => exact fun ⟨hfit, _⟩ => absurd hshort (Nat.not_lt.mpr hfit)
  | parseIllegal k layout hk => exact fun ⟨hk', _⟩ => absurd ((kLegal_iff k).mpr hk') (by simp [hk])
  | shortPrefix k layout B _ hk hB hparse | shortField k layout B _ hk hB hparse =>
    rintro ⟨-, hun⟩
    cases hB.symm.trans ((inputBytes_eq_none_iff s).mpr hun)
  | frameIllegal k layout hk => simp [readsUnwritten_fpFrame_iff, hk]
  | fieldRange k layout _ hk hfield => simp [readsUnwritten_fpFrame_iff, hfield]
  | trailRange k layout hk hfields htrail => simp [readsUnwritten_fpFrame_iff, htrail]

theorem exists_inputBytes_of_not_unwritten (s : State) (h : ¬ ∃ a, a < s.inLen.toNat ∧ s.ibuf.written a = false) :
    ∃ B, inputBytes s = some B :=
  Option.ne_none_iff_exists'.mp (mt (inputBytes_eq_none_iff s).mp h)

theorem ends_fpFrame_of_not_readsUnwritten (k : BitVec 3) (layout : Layout) (s : State)
    (h : ¬ readsUnwritten (.fpFrame k layout) s) : Ends (.fpFrame k layout) s := by
  rw [readsUnwritten_fpFrame_iff] at h
  cases hk : kLegal k with
  | false => exact .inr ⟨_, _, .frameIllegal k layout hk⟩
  | true =>
    cases hfields : firstOutOfRange (inputLength s) 0 (fieldRegions k.toNat s) with
    | some i => exact .inr ⟨_, _, .fieldRange k layout i hk hfields⟩
    | none =>
      cases htrail : inRange (inputLength s) (trailRegion s) with
      | false => exact .inr ⟨_, _, .trailRange k layout hk hfields htrail⟩
      | true =>
        obtain ⟨hT, hF⟩ := not_or.mp fun hnone => h ⟨hk, ⟨htrail, hfields⟩, hnone⟩
        obtain ⟨T, hT⟩ := Option.ne_none_iff_exists'.mp hT
        obtain ⟨F, hF⟩ := Option.ne_none_iff_exists'.mp hF
        exact .inl ⟨_, .fpFrame k layout F T hk hfields htrail hF hT⟩

/-- A command whose reads are all of written bytes ends: `ends_of_inputWritten` with no more than the bytes it reads. -/
theorem ends_of_not_readsUnwritten (i : Instr) (s : State) (h : ¬ readsUnwritten i s) : Ends i s := by
  cases i with
  | nop => exact .inl ⟨_, .nop⟩
  | outClear => exact .inl ⟨_, .outClear⟩
  | softReset => exact .inl ⟨_, .softReset⟩
  | rleInit => exact .inl ⟨_, .rleInit⟩
  | rlePush b => exact .inl ⟨_, .rlePush b⟩
  | rleFlush => exact .inl ⟨_, .rleFlush⟩
  | rlePushbuf =>
    obtain ⟨B, hB⟩ := exists_inputBytes_of_not_unwritten s h
    exact .inl ⟨_, .rlePushbuf B hB⟩
  | rleEncode =>
    obtain ⟨B, hB⟩ := exists_inputBytes_of_not_unwritten s h
    exact .inl ⟨_, .rleEncode B hB⟩
  | le32Enc => exact .inl ⟨_, .le32Enc⟩
  | le32Dec =>
    rcases Nat.lt_or_ge (inputLength s) (s.offset.toNat + 4) with hshort | hfit
    · exact .inr ⟨_, _, .shortData hshort⟩
    · obtain ⟨B, hB⟩ := Option.ne_none_iff_exists'.mp fun hnone =>
        h ⟨hfit, (readRegion_eq_none_iff s (s.offset.toNat, 4)).mp hnone⟩
      exact .inl ⟨_, .le32Dec B hfit hB⟩
  | fpParse k layout =>
    cases hk : kLegal k with
    | false => exact .inr ⟨_, _, .parseIllegal k layout hk⟩
    | true =>
      obtain ⟨B, hB⟩ := exists_inputBytes_of_not_unwritten s fun hun => h ⟨(kLegal_iff k).mp hk, hun⟩
      exact ends_fpParse k layout s B hB
  | fpFrame k layout => exact ends_fpFrame_of_not_readsUnwritten k layout s h

/-- Settles O14: a command that ends has read no unwritten byte, and one that reads none ends. -/
theorem unwrittenReadExactly : Obligations.UnwrittenReadExactly := by
  intro i s
  constructor
  · intro hfault
    by_contra hreads
    obtain ⟨t, ht⟩ := (ends_of_not_readsUnwritten i s hreads).exists_next
    cases hfault.symm.trans ht
  · intro hreads
    rcases exec_ends i s with ⟨st, hst⟩ | ⟨code, idx, hr⟩ | hfault
    · exact absurd hreads hst.not_readsUnwritten
    · exact absurd hreads hr.not_readsUnwritten
    · exact hfault

/-! ### The match sequence on the block (43_framing.md R215, R221) -/

/-- A parse of one GROUPED field that succeeds: the field lies behind its four length bytes, the trailer behind it. -/
theorem parse_one_grouped_ok (B : Bytes) (fields : List Span) (toff tlen : Nat)
    (h : parse B 1 .grouped = .ok fields toff tlen) :
    ∃ len, fields = [(4, len)] ∧ toff = 4 + len ∧ tlen = B.length - (4 + len) ∧ 4 + len ≤ B.length := by
  cases hlen : prefixAt B 0 with
  | none => simp [parse, parseGrouped, groupedLengths, hlen] at h
  | some len =>
    simp only [parse, parseGrouped, groupedLengths, placeFields, Nat.mul_zero, Nat.mul_one, hlen] at h
    split at h
    · cases h
    · next hfit =>
      cases h
      exact ⟨len, rfl, rfl, rfl, Nat.le_of_not_lt hfit⟩

/-- Without a successful parse the profile answers 0 (R216). -/
theorem matchOut_of_short (e : RegexEngine) (B : Bytes) (i : Nat)
    (h : (parse B 1 .grouped).shortIndex = some i) : matchOut e B = enc32 0 := by
  simp only [matchOut]
  split
  · next hok => rw [hok] at h; cases h
  · rfl

theorem utf8BadBits_getLsbD_zero (v : Bool) : (utf8BadBits [v]).getLsbD 0 = !v := by cases v <;> rfl

theorem ofBool_eq_one_iff (b : Bool) : BitVec.ofBool b = 1 ↔ b = true := by cases b <;> decide

/-- After a status other than OK the host writes 0. -/
theorem matchSequenceValue_of_raised (e : RegexEngine) (code : Code) (idx : Nat) (op : Byte) (p v : Bytes)
    (hcode : code ≠ .ok) (hidx : idx < 8) : matchSequenceValue e (statusWord code idx 0 false op) p v = 0 := by
  refine if_pos fun hzero => hcode (Code.value_injective code .ok ?_)
  rw [← statusCode_statusWord code idx 0 false op hidx, hzero]
  rfl

/-- After a commit of FP_PARSE the host sees the validity of the pattern and of the subject in STATUS. -/
theorem matchSequenceValue_of_ok (e : RegexEngine) (valid validTrail : Bool) (op : Byte) (p v : Bytes) :
    matchSequenceValue e (statusWord .ok 0 (utf8BadBits [valid]) (!validTrail) op) p v =
      if valid && validTrail then regexStep e p v else 0 := by
  simp only [matchSequenceValue, statusCode_ok 0 _ _ op (by omega), statusUtf8Bad_statusWord .ok 0 _ _ op (by omega),
    statusUtf8BadTrail_statusWord .ok 0 _ _ op (by omega), utf8BadBits_getLsbD_zero, ofBool_eq_one_iff]
  cases valid <;> cases validTrail <;> rfl

/-- After a successful parse the profile is the regex step, where both strings are valid UTF-8 (R215). -/
theorem matchOut_of_ok (e : RegexEngine) (B : Bytes) (p : Span) (toff tlen : Nat)
    (h : parse B 1 .grouped = .ok [p] toff tlen) :
    matchOut e B = enc32 (if utf8Valid (fieldBytes B p) && utf8Valid (slice B toff tlen) then
      regexStep e (fieldBytes B p) (slice B toff tlen) else 0) := by
  simp only [matchOut, h, matchZero, regexStep]
  cases utf8Valid (fieldBytes B p) && utf8Valid (slice B toff tlen) with
  | false => rfl
  | true => cases e.compile (fieldBytes B p) <;> rfl

/-- An index into the input, or its length, fits a register. -/
theorem toNat_ofNat_of_le_input (s : State) (B : Bytes) (n : Nat) (hB : inputBytes s = some B) (hn : n ≤ B.length) :
    (BitVec.ofNat 32 n).toNat = n := by
  obtain ⟨hlen, -⟩ := (inputBytes_eq_some_iff s B).mp hB
  have hlt := s.inLen.isLt
  exact Nat.mod_eq_of_lt (by omega)

/-- The value R221's host writes to DATA in the state t that FP_PARSE left, having read the strings its registers name. -/
def hostMatchValue (e : RegexEngine) (B : Bytes) (t : State) : Word :=
  matchSequenceValue e t.status (slice B t.fieldOff.r0.toNat t.fieldLen.r0.toNat)
    (slice B t.trailOff.toNat t.trailLen.toNat)

theorem enc32_hostMatchValue_of_ok (e : RegexEngine) (s : State) (B : Bytes) (fields : List Span) (toff tlen : Nat)
    (hB : inputBytes s = some B) (hparse : parse B 1 .grouped = .ok fields toff tlen) :
    enc32 (hostMatchValue e B (commit 0x30 (stagedParse B fields toff tlen) s)) = matchOut e B := by
  obtain ⟨len, rfl, rfl, rfl, hfit⟩ := parse_one_grouped_ok B fields toff tlen hparse
  have hnat := toNat_ofNat_of_le_input s B (hB := hB)
  rw [commit_of_no_output _ _ s rfl]
  simp only [hostMatchValue, withStatus_status, withStatus_fieldOff, withStatus_fieldLen, withStatus_trailOff,
    withStatus_trailLen, perform_fieldOff, perform_fieldLen, perform_trailOff, perform_trailLen, stagedParse,
    fieldBankOf, Option.getD_some, List.map_cons, List.map_nil, List.getD_cons_zero, matchSequenceValue_of_ok,
    hnat 4 (by omega), hnat len (by omega), hnat (4 + len) hfit, hnat (B.length - (4 + len)) (by omega)]
  exact (matchOut_of_ok e B (4, len) _ _ hparse).symm

theorem enc32_hostMatchValue_of_raised (e : RegexEngine) (s : State) (B : Bytes) (code : Code) (idx : Nat)
    (hB : inputBytes s = some B) (hr : Raises s (.fpParse 1 .grouped) code idx) :
    enc32 (hostMatchValue e B (raiseStatus code idx 0x30 s)) = matchOut e B := by
  have hidx := hr.idx_le
  rw [hostMatchValue, raiseStatus_status, matchSequenceValue_of_raised e code idx _ _ _ hr.code_ne_ok (by omega)]
  cases hr with
  | parseIllegal _ _ hk => cases hk
  | shortPrefix _ _ B' _ _ hB' hparse | shortField _ _ B' _ _ hB' hparse =>
    cases hB.symm.trans hB'
    exact (matchOut_of_short e B idx (congrArg ParseResult.shortIndex hparse)).symm

/-- What the host computes after FP_PARSE is the profile's value of the input. -/
theorem enc32_hostMatchValue (e : RegexEngine) (s t : State) (B : Bytes) (hB : inputBytes s = some B)
    (ht : exec (.fpParse 1 .grouped) s = .next t) : enc32 (hostMatchValue e B t) = matchOut e B := by
  rcases exec_next_cases _ s t ht with ⟨st, hst, rfl⟩ | ⟨code, idx, hr, rfl⟩
  · cases hst with
    | fpParse _ _ B' fields toff tlen _ hB' hparse =>
      cases hB.symm.trans hB'
      exact enc32_hostMatchValue_of_ok e s B fields toff tlen hB hparse
  · exact enc32_hostMatchValue_of_raised e s B code idx hB hr

/-- FP_PARSE leaves the output as it was. -/
theorem fpParse_keeps_output (k : BitVec 3) (layout : Layout) (s t : State)
    (h : exec (.fpParse k layout) s = .next t) :
    t.outLen = s.outLen ∧ ∀ a, t.obuf.read a = s.obuf.read a := by
  obtain ⟨-, -, -, -, -, -, -, -, hout, hobuf⟩ := frameOfEveryCommand _ s t h
  have hlen := hout (.inr ⟨k, layout, rfl⟩)
  exact ⟨hlen, fun a => hobuf a (by rw [hlen]; exact Nat.lt_or_ge a _)⟩

/-- Appending is a matter of the output alone. -/
theorem State.Appends.of_same_output {s s' t : State} {out : Bytes} (h : s'.Appends t out)
    (hlen : s'.outLen = s.outLen) (hobuf : ∀ a, s'.obuf.read a = s.obuf.read a) : s.Appends t out where
  length := hlen ▸ h.length
  inside := hlen ▸ h.inside
  outside := fun a ha => (h.outside a (hlen ▸ ha)).trans (hobuf a)

/-- Settles O45: FP_PARSE ends and leaves the output alone, and the word LE32_ENC appends is the profile's. -/
theorem matchSequenceOnBlock : Obligations.MatchSequenceOnBlock := by
  intro e s B hB hroom
  obtain ⟨t, ht⟩ := (ends_fpParse 1 .grouped s B hB).exists_next
  obtain ⟨hlen, hobuf⟩ := fpParse_keeps_output _ _ s t ht
  obtain ⟨hcfg, -⟩ := exec_keeps _ s t ht
  obtain ⟨u, hu, happends, hstatus⟩ :=
    exists_exec_le32Enc { t with data := hostMatchValue e B t } (by rw [hcfg, hlen]; exact hroom)
  refine ⟨t, u, ht, hu, ?_, ?_⟩
  · rw [hstatus, statusCode_ok 0 _ _ _ (by omega)]
  · rw [← enc32_hostMatchValue e s t B hB ht]
    exact happends.of_same_output hlen hobuf

end Sys2Proof.Machine
end

section
/-! PROOFS. The run-length functions (spec/42_rle.md R151 to R154, R160): the step and the flush branch by branch, then
what the encoder emits, by induction on the input with an open run, and by induction on the blocks of equal bytes. -/
namespace Sys2Proof.Machine

/-! ### The step and the flush, branch by branch (R151, R152) -/

theorem count_succ_toNat (c : Byte) (h : c.toNat < 255) : (c + 1).toNat = c.toNat + 1 :=
  BitVec.toNat_add_of_lt (show c.toNat + 1 < 2 ^ 8 by omega)

theorem rleStep_idle (value count b : Byte) : rleStep ⟨false, value, count⟩ b = (⟨true, b, 1⟩, []) := rfl

theorem rleStep_extend (v c : Byte) (hc : c.toNat < 255) : rleStep ⟨true, v, c⟩ v = (⟨true, v, c + 1⟩, []) := by
  simp [rleStep, hc]

/-- The full run and the other byte in one: the open run is emitted, and a run of the new byte starts. -/
theorem rleStep_close (v c b : Byte) (h : b = v → c = 255) : rleStep ⟨true, v, c⟩ b = (⟨true, b, 1⟩, [c, v]) := by
  by_cases hb : b = v
  · simp [rleStep, hb, h hb]
  · simp [rleStep, hb]

/-- A step with a run open extends it or closes it: `rleStep_cases` for the induction on the input. -/
theorem rleStep_open_cases (v c b : Byte) :
    (b = v ∧ c.toNat < 255 ∧ rleStep ⟨true, v, c⟩ b = (⟨true, v, c + 1⟩, [])) ∨
    ((b = v → c = 255) ∧ rleStep ⟨true, v, c⟩ b = (⟨true, b, 1⟩, [c, v])) := by
  rcases rleStep_cases ⟨true, v, c⟩ b with ⟨hv, -⟩ | ⟨-, hb, hc, hs⟩ | ⟨-, -, hc, -⟩ | ⟨-, hb, -⟩
  · cases hv
  · exact .inl ⟨hb, hc, hs⟩
  · exact .inr ⟨fun _ => hc, rleStep_close v c b fun _ => hc⟩
  · exact .inr ⟨fun h => absurd h hb, rleStep_close v c b fun h => absurd h hb⟩

theorem rleFlush_of_open {r : RleState} (h : r.valid = true) : rleFlush r = (RleState.idle, [r.count, r.value]) :=
  if_pos h

theorem rleFlush_of_closed {r : RleState} (h : r.valid = false) : rleFlush r = (RleState.idle, []) :=
  if_neg (Bool.eq_false_iff.mp h)

/-- Settles O20, a branch each. -/
theorem rleStepAndFlush : Obligations.RleStepAndFlush :=
  ⟨rleStep_idle, fun v c hc => ⟨c + 1, count_succ_toNat c hc, rleStep_extend v c hc⟩,
    fun v => rleStep_close v 255 v fun _ => rfl, fun v c b hb => rleStep_close v c b fun h => absurd h hb,
    fun _ _ => rleFlush_of_open rfl, fun _ _ => rleFlush_of_closed rfl⟩

/-! ### The loop and the flush (R153, R159) -/

@[simp] theorem rleRunFlush_nil (s : RleState) : rleRunFlush s [] = rleFlush s := rfl

@[simp] theorem rleRunFlush_fst (s : RleState) (B : Bytes) : (rleRunFlush s B).1 = RleState.idle := rleFlush_fst _

/-- A step first, then the rest of the input. -/
theorem rleRunFlush_cons (s : RleState) (b : Byte) (B : Bytes) :
    (rleRunFlush s (b :: B)).2 = (rleStep s b).2 ++ (rleRunFlush (rleStep s b).1 B).2 := by
  simp [rleRunFlush]

/-- The first byte of the input opens the first run. -/
theorem rle_cons (b : Byte) (B : Bytes) : rle (b :: B) = (rleRunFlush ⟨true, b, 1⟩ B).2 := rfl

/-- The loop may stop between any two bytes and go on from the state it left. -/
theorem rleRun_append (s : RleState) (A B : Bytes) :
    rleRun s (A ++ B) = ((rleRun (rleRun s A).1 B).1, (rleRun s A).2 ++ (rleRun (rleRun s A).1 B).2) := by
  induction A generalizing s with
  | nil => rfl
  | cons a A ih => simp [ih]

theorem rleRunFlush_append (s : RleState) (A B : Bytes) :
    (rleRunFlush s (A ++ B)).2 = (rleRun s A).2 ++ (rleRunFlush (rleRun s A).1 B).2 := by
  simp [rleRunFlush, rleRun_append]

/-! ### Decoding (R160 items 1 and 3; R171) -/

/-- The input bytes an encoder state still holds: the open run, written out. -/
def RleState.held (s : RleState) : Bytes := if s.valid then List.replicate s.count.toNat s.value else []

theorem held_open (v c : Byte) : (⟨true, v, c⟩ : RleState).held = List.replicate c.toNat v := rfl

theorem held_extend (v c : Byte) (hc : c.toNat < 255) :
    (⟨true, v, c + 1⟩ : RleState).held = (⟨true, v, c⟩ : RleState).held ++ [v] := by
  rw [held_open, held_open, count_succ_toNat c hc, List.replicate_succ']

theorem rleDecode_pair (c v : Byte) (P B : Bytes) (h : rleDecode P = some B) :
    rleDecode (c :: v :: P) = some (List.replicate c.toNat v ++ B) := by
  simp only [rleDecode, h]

/-- Decoding what a flush emits gives the bytes that were held. -/
theorem rleDecode_rleFlush (s : RleState) : rleDecode (rleFlush s).2 = some s.held := by
  obtain ⟨_ | _, v, c⟩ := s
  · rfl
  · rw [rleFlush_of_open rfl, rleDecode_pair c v [] [] rfl, List.append_nil, held_open]

/-- No byte is lost in a step: what it emits, decoded, and what it holds after are what it held before and its byte. -/
theorem rleDecode_rleStep (s : RleState) (b : Byte) (P B : Bytes)
    (h : rleDecode P = some ((rleStep s b).1.held ++ B)) :
    rleDecode ((rleStep s b).2 ++ P) = some (s.held ++ b :: B) := by
  obtain ⟨_ | _, v, c⟩ := s
  · exact h
  · rcases rleStep_open_cases v c b with ⟨rfl, hc, hs⟩ | ⟨-, hs⟩ <;> rw [hs] at h ⊢
    · rw [held_extend b c hc, List.append_assoc] at h
      exact h
    · exact rleDecode_pair c v P _ h

/-- The round trip with a run open. -/
theorem rleDecode_rleRunFlush (s : RleState) (B : Bytes) : rleDecode (rleRunFlush s B).2 = some (s.held ++ B) := by
  induction B generalizing s with
  | nil => rw [rleRunFlush_nil, List.append_nil, rleDecode_rleFlush]
  | cons b B ih => rw [rleRunFlush_cons]; exact rleDecode_rleStep s b _ B (ih _)

/-- Settles O26: the idle state holds no byte. -/
theorem rleRoundTrip : Obligations.RleRoundTrip :=
  ⟨rfl, rleDecode_rleRunFlush RleState.idle⟩

/-! ### The pairs of the output (R154; R160 items 2 and 4) -/

/-- (count, value) pairs as the bytes they are emitted as. -/
def pairBytes (pairs : List (Byte × Byte)) : Bytes := pairs.flatMap fun p => [p.1, p.2]

theorem pairBytes_length (pairs : List (Byte × Byte)) : (pairBytes pairs).length = 2 * pairs.length := by
  simp [pairBytes, List.length_flatMap, Nat.mul_comm]

/-- Every count lies in [1, 255], and two neighbours share a value only after a full run. -/
structure PairsWellFormed (pairs : List (Byte × Byte)) : Prop where
  count : ∀ p ∈ pairs, 1 ≤ p.1.toNat ∧ p.1.toNat ≤ 255
  neighbours : pairs.IsChain fun p q => p.2 = q.2 → p.1 = 255

theorem count_toNat_le (c : Byte) : c.toNat ≤ 255 := Nat.le_of_lt_succ c.isLt

theorem pairsWellFormed_singleton (c v : Byte) (hc : 1 ≤ c.toNat) : PairsWellFormed [(c, v)] :=
  ⟨by simp [hc, count_toNat_le], .singleton _⟩

theorem PairsWellFormed.cons {c v c' v' : Byte} {pairs : List (Byte × Byte)} (h : PairsWellFormed ((c', v') :: pairs))
    (hc : 1 ≤ c.toNat) (hv : v = v' → c = 255) : PairsWellFormed ((c, v) :: (c', v') :: pairs) :=
  ⟨List.forall_mem_cons.mpr ⟨⟨hc, count_toNat_le c⟩, h.count⟩, h.neighbours.cons_cons hv⟩

/-- With a run open the output starts with a pair of the run's value, so it can follow a pair of another value. -/
theorem exists_pairs_of_open (v c : Byte) (B : Bytes) (hc : 1 ≤ c.toNat) : ∃ c' pairs,
    (rleRunFlush ⟨true, v, c⟩ B).2 = pairBytes ((c', v) :: pairs) ∧ PairsWellFormed ((c', v) :: pairs) := by
  induction B generalizing v c with
  | nil => exact ⟨c, [], rfl, pairsWellFormed_singleton c v hc⟩
  | cons b B ih =>
    rw [rleRunFlush_cons]
    rcases rleStep_open_cases v c b with ⟨-, hlt, hs⟩ | ⟨hfull, hs⟩ <;> rw [hs]
    · exact ih v (c + 1) (by rw [count_succ_toNat c hlt]; omega)
    · obtain ⟨c', pairs, hout, hwf⟩ := ih b 1 (by decide)
      exact ⟨c, (c', b) :: pairs, by rw [hout]; rfl, hwf.cons hc fun hv => hfull hv.symm⟩

theorem exists_pairs_of_rle (B : Bytes) : ∃ pairs, rle B = pairBytes pairs ∧ PairsWellFormed pairs := by
  cases B with
  | nil => exact ⟨[], rfl, nofun, .nil⟩
  | cons b B =>
    obtain ⟨c, pairs, hout, hwf⟩ := exists_pairs_of_open b 1 B (by decide)
    exact ⟨(c, b) :: pairs, hout, hwf⟩

/-- Settles O27: the pairs of `exists_pairs_of_rle`, two bytes each. -/
theorem rlePairsWellFormed : Obligations.RlePairsWellFormed := by
  intro B
  obtain ⟨pairs, hout, hcount, hneighbours⟩ := exists_pairs_of_rle B
  refine ⟨?_, pairs, hout, hcount, fun j p q hp hq => ?_⟩
  · rw [hout, pairBytes_length, Nat.mul_mod_right]
  · obtain ⟨hj, rfl⟩ := List.getElem?_eq_some_iff.mp hp
    obtain ⟨hj', rfl⟩ := List.getElem?_eq_some_iff.mp hq
    exact hneighbours.getElem j hj'

/-! ### Blocks of equal bytes (R160 items 5 and 6; R162) -/

/-- The output for n copies of v: the full runs, then the rest. -/
def blockBytes (v : Byte) (n : Nat) : Bytes :=
  (List.replicate (n / 255) [255, v]).flatten ++ (if n % 255 = 0 then [] else [BitVec.ofNat 8 (n % 255), v])

/-- A block no longer than a full run is one pair. -/
theorem blockBytes_of_count (v c : Byte) (hc : 1 ≤ c.toNat) : blockBytes v c.toNat = [c, v] := by
  rcases Nat.lt_or_eq_of_le (count_toNat_le c) with hlt | hfull
  · simp [blockBytes, Nat.div_eq_of_lt hlt, Nat.mod_eq_of_lt hlt, Nat.ne_of_gt hc]
  · obtain rfl : c = 255 := BitVec.eq_of_toNat_eq hfull
    rfl

/-- A full run is a pair of its own. -/
theorem blockBytes_add_full (v : Byte) (n : Nat) : blockBytes v (255 + n) = [255, v] ++ blockBytes v n := by
  simp [blockBytes, Nat.add_div_left n (show 0 < 255 by omega), List.replicate_succ]

theorem blockBytes_length (v : Byte) (n : Nat) : (blockBytes v n).length = 2 * ((n + 254) / 255) := by
  have hfull : (List.replicate (n / 255) ([255, v] : Bytes)).flatten.length = n / 255 * 2 := by simp
  unfold blockBytes
  split
  · rw [List.length_append, hfull, List.length_nil]; omega
  · rw [List.length_append, hfull, List.length_cons, List.length_singleton]; omega

/-- An open run of c copies and n more, up to the end of their block: the block's output, then the rest as if from
idle. -/
theorem rleRunFlush_block (v c : Byte) (n : Nat) (rest : Bytes) (hc : 1 ≤ c.toNat) (hrest : rest.head? ≠ some v) :
    (rleRunFlush ⟨true, v, c⟩ (List.replicate n v ++ rest)).2 = blockBytes v (c.toNat + n) ++ rle rest := by
  induction n generalizing c with
  | zero =>
    rw [List.replicate_zero, List.nil_append, Nat.add_zero, blockBytes_of_count v c hc]
    cases rest with
    | nil => rfl
    | cons b rest =>
      have hb : b ≠ v := by simpa using hrest
      rw [rleRunFlush_cons, rleStep_close v c b fun h => absurd h hb, rle_cons]
  | succ n ih =>
    rw [List.replicate_succ, List.cons_append, rleRunFlush_cons]
    rcases rleStep_open_cases v c v with ⟨-, hlt, hs⟩ | ⟨hfull, hs⟩ <;> rw [hs]
    · rw [List.nil_append, ih (c + 1) (by rw [count_succ_toNat c hlt]; omega), count_succ_toNat c hlt,
        Nat.add_right_comm, Nat.add_assoc]
    · obtain rfl := hfull rfl
      rw [ih 1 (by decide), show (255 : Byte).toNat + (n + 1) = 255 + ((1 : Byte).toNat + n) by simp; omega,
        blockBytes_add_full, List.append_assoc]

theorem rle_block (v : Byte) (n : Nat) (rest : Bytes) (hrest : rest.head? ≠ some v) :
    rle (List.replicate (n + 1) v ++ rest) = blockBytes v (n + 1) ++ rle rest := by
  rw [List.replicate_succ, List.cons_append, rle_cons, rleRunFlush_block v 1 n rest (by decide) hrest, Nat.add_comm n 1]
  rfl

/-- Settles O28: one block, and nothing after it. -/
theorem rleOfRepeatedByte : Obligations.RleOfRepeatedByte := by
  intro v n hn
  obtain ⟨m, rfl⟩ := Nat.exists_eq_add_of_le' hn
  have hblock := rle_block v m [] nofun
  rwa [List.append_nil, show rle [] = [] from rfl, List.append_nil] at hblock

theorem splitBy_block (v : Byte) (n : Nat) (rest : Bytes) (hrest : rest.head? ≠ some v) :
    (List.replicate (n + 1) v ++ rest).splitBy (· == ·) = List.replicate (n + 1) v :: rest.splitBy (· == ·) := by
  have hblock : (List.replicate (n + 1) v).splitBy (· == ·) = [List.replicate (n + 1) v] :=
    List.splitBy_of_isChain (by simp) (List.isChain_replicate_of_rel _ (by simp))
  rw [List.splitBy_append, hblock, List.singleton_append]
  intro x hx y hy
  obtain rfl := List.eq_of_mem_replicate (List.mem_of_getLast? hx)
  exact beq_eq_false_iff_ne.mpr fun hxy => hrest (hxy ▸ hy)

/-- The block at the front of a list, which has no byte of v where the list starts with another. -/
theorem exists_front_block (v : Byte) (B : Bytes) : ∃ n rest, B = List.replicate n v ++ rest ∧ rest.head? ≠ some v := by
  induction B with
  | nil => exact ⟨0, [], rfl, nofun⟩
  | cons b B ih =>
    by_cases hb : b = v
    · obtain ⟨n, rest, rfl, hrest⟩ := ih
      exact ⟨n + 1, rest, by rw [hb]; rfl, hrest⟩
    · exact ⟨0, b :: B, rfl, by simpa using hb⟩

/-- Settles O29, block by block. -/
theorem rlePairCount : Obligations.RlePairCount
  | [] => rfl
  | b :: B => by
    obtain ⟨n, rest, rfl, hrest⟩ := exists_front_block b B
    have ih := rlePairCount rest
    rw [← List.cons_append, ← List.replicate_succ, rle_block b n rest hrest, splitBy_block b n rest hrest,
      List.length_append, blockBytes_length, ih, List.map_cons, List.length_replicate, List.sum_cons, Nat.mul_add]
  termination_by B => B.length

end Sys2Proof.Machine
end

section
/-! PROOFS. The run-length commands (spec/42_rle.md R155 to R159): one law for a command that stages output and a run
state, then the five commands, the sizes of their outputs (R163), and where the input may be cut (R161). -/
namespace Sys2Proof.Machine

/-! ### A command that stages output and a run state (40_control.md R112, R113) -/

theorem fits_iff (s : State) (out : Bytes) : s.fits out ↔ overflows s out = false :=
  (overflows_eq_false_iff s out).symm

theorem not_fits_iff (s : State) (out : Bytes) : ¬ s.fits out ↔ overflows s out = true := by
  rw [fits_iff, Bool.not_eq_false]

/-- What it does when its output fits. -/
theorem Stages.exists_exec_of_fits {s : State} {i : Instr} {out : Bytes} {r : RleState}
    (h : Stages s i { output := out, rle := some r }) (hfit : s.fits out) : ∃ t, exec i s = .next t ∧ s.Appends t out ∧
      t.rle = r ∧ t.status = statusWord .ok 0 0 false i.opcode ∧ s.SameButOutput t := by
  have hover := (fits_iff s out).mp hfit
  refine ⟨_, h.exec_eq, commit_appends _ _ s hover rfl, ?_⟩
  rw [commit_of_fits _ _ s hover]
  exact ⟨rfl, rfl, rfl, rfl, rfl, rfl, rfl, rfl, rfl, rfl, fun _ => rfl, rfl, rfl⟩

/-- What any command does when the output it stages does not fit. -/
theorem Stages.exec_eq_of_not_fits {s : State} {i : Instr} {st : Staged} (h : Stages s i st)
    (hfull : ¬ s.fits st.output) : exec i s = .next { s with status := statusWord .overflow 0 0 false i.opcode } := by
  rw [h.exec_eq, commit_of_overflows _ _ s ((not_fits_iff s _).mp hfull)]
  rfl

/-- Settles O21: the run state is the one register staged. -/
theorem rleInitResult : Obligations.RleInitResult :=
  ⟨rfl, fun _ => Stages.rleInit.exec_eq_of_no_output rfl⟩

/-- Settles O22: the step's output and state are what is staged. -/
theorem rlePushResult : Obligations.RlePushResult := by
  intro b s
  have hst : Stages s (.rlePush b) _ := .rlePush b
  have hfits := hst.exists_exec_of_fits
  have hfull := hst.exec_eq_of_not_fits
  rw [show (Instr.rlePush b).opcode = 0x11 from rfl] at hfits hfull
  refine ⟨?_, hfits, hfull⟩
  simp [encode, cmd32_toNat, Nat.add_comm]

/-- Settles O23: an open run is a pair, and without one there is no output. -/
theorem rleFlushResult : Obligations.RleFlushResult := by
  refine ⟨rfl, fun s => ?_⟩
  have hst : Stages s .rleFlush _ := .rleFlush
  refine ⟨fun hopen hroom => ?_, fun hopen hfull => ?_, fun hclosed => ?_⟩
  · rw [rleFlush_of_open hopen] at hst
    exact hst.exists_exec_of_fits (.inr hroom)
  · rw [rleFlush_of_open hopen] at hst
    refine hst.exec_eq_of_not_fits ?_
    rintro (hnil | hroom)
    · cases hnil
    · exact Nat.not_le.mpr hfull hroom
  · rw [rleFlush_of_closed hclosed] at hst
    exact hst.exec_eq_of_no_output rfl

/-! ### RLE_PUSHBUF and RLE_ENCODE (R158, R159) -/

theorem inputBytes_of_read (s : State) (B : Bytes) (hlen : B.length = s.inLen.toNat)
    (hread : ∀ j, j < B.length → s.ibuf.read j = B[j]?) : inputBytes s = some B :=
  (inputBytes_eq_some_iff s B).mpr ⟨hlen, hlen ▸ hread⟩

/-- Settles O24: the loop's output and state are what is staged. -/
theorem rlePushbufResult : Obligations.RlePushbufResult := by
  refine ⟨rfl, fun s B hlen hread => ?_⟩
  have hst := Stages.rlePushbuf B (inputBytes_of_read s B hlen hread)
  exact ⟨hst.exists_exec_of_fits, hst.exec_eq_of_not_fits⟩

/-- Settles O25: from idle the output staged is `rle` of the input, by definition. -/
theorem rleEncodeResult : Obligations.RleEncodeResult := by
  refine ⟨rfl, fun s B hlen hread => ?_⟩
  have hst := Stages.rleEncode B (inputBytes_of_read s B hlen hread)
  refine ⟨fun hfit => ?_, hst.exec_eq_of_not_fits⟩
  obtain ⟨t, ht, happends, hrle, hstatus, hframe⟩ := hst.exists_exec_of_fits hfit
  refine ⟨t, ht, happends, fun hidle => ?_, hrle.trans (rleRunFlush_fst s.rle B), hstatus, hframe⟩
  rw [hidle] at happends
  exact happends

/-! ### The sizes of the outputs (R163) -/

theorem rleStep_length (r : RleState) (b : Byte) : (rleStep r b).2.length = 0 ∨ (rleStep r b).2.length = 2 := by
  obtain ⟨_ | _, v, c⟩ := r
  · exact .inl rfl
  · rcases rleStep_open_cases v c b with ⟨-, -, hs⟩ | ⟨-, hs⟩ <;> rw [hs]
    · exact .inl rfl
    · exact .inr rfl

theorem rleRun_length (r : RleState) (B : Bytes) :
    (rleRun r B).2.length % 2 = 0 ∧ (rleRun r B).2.length ≤ 2 * B.length := by
  induction B generalizing r with
  | nil => exact ⟨rfl, Nat.le_refl 0⟩
  | cons b B ih =>
    obtain ⟨heven, hle⟩ := ih (rleStep r b).1
    rw [rleRun_cons, List.length_append, List.length_cons]
    rcases rleStep_length r b with hs | hs <;> rw [hs] <;> omega

theorem rleFlush_length (r : RleState) : (rleFlush r).2.length = if r.valid then 2 else 0 := by
  obtain ⟨_ | _, v, c⟩ := r <;> rfl

theorem rleRunFlush_length (r : RleState) (B : Bytes) :
    (rleRunFlush r B).2.length = (rleRun r B).2.length + if (rleRun r B).1.valid then 2 else 0 := by
  rw [← rleFlush_length]
  exact List.length_append

theorem rleRunFlush_length_le (r : RleState) (B : Bytes) : (rleRunFlush r B).2.length ≤ 2 * B.length + 2 := by
  obtain ⟨-, hle⟩ := rleRun_length r B
  rw [rleRunFlush_length]
  split <;> omega

/-- Settles O31: the room of the last clause is `rleRunFlush_length_le`'s bound. -/
theorem rleOutputSize : Obligations.RleOutputSize := by
  refine ⟨rleStep_length, fun r B => ?_, fun s hinput hroom => ?_⟩
  · obtain ⟨heven, hle⟩ := rleRun_length r B
    exact ⟨heven, hle, rleRunFlush_length r B⟩
  · obtain ⟨B, hB⟩ := hinput.exists_inputBytes
    obtain ⟨hlen, -⟩ := (inputBytes_eq_some_iff s B).mp hB
    have hle := rleRunFlush_length_le s.rle B
    obtain ⟨t, ht, -, -, hstatus, -⟩ := (Stages.rleEncode B hB).exists_exec_of_fits (.inr (by omega))
    exact ⟨t, ht, by rw [hstatus, statusCode_ok 0 _ _ _ (by omega)]⟩

/-! ### Where the input is cut (R161) -/

theorem State.Appends.trans {s t u : State} {out out' : Bytes} (h : s.Appends t out) (h' : t.Appends u out') :
    s.Appends u (out ++ out') where
  length := by rw [h'.length, h.length, List.length_append, Nat.add_assoc]
  inside := fun j hj => by
    rw [List.length_append] at hj
    have hlen := h.length
    rcases Nat.lt_or_ge j out.length with hold | hnew
    · rw [h'.outside _ (.inl (by omega)), h.inside j hold, List.getElem?_append_left hold]
    · have hread := h'.inside (j - out.length) (by omega)
      rwa [hlen, Nat.add_assoc, Nat.add_sub_cancel' hnew, ← List.getElem?_append_right hnew] at hread
  outside := fun a ha => by
    have hlen := h.length
    rw [List.length_append] at ha
    rw [h'.outside a (by omega), h.outside a (by omega)]

/-- A command that ended with OK had room for its output, so it has the result of `exists_exec_of_fits`. -/
theorem Stages.appends_of_ok {s t : State} {i : Instr} {out : Bytes} {r : RleState}
    (h : Stages s i { output := out, rle := some r }) (ht : exec i s = .next t) (hok : statusCode t.status = 0) :
    s.Appends t out ∧ t.rle = r := by
  by_cases hfit : s.fits out
  · obtain ⟨t', ht', happends, hrle, -⟩ := h.exists_exec_of_fits hfit
    cases ht.symm.trans ht'
    exact ⟨happends, hrle⟩
  · cases ht.symm.trans (h.exec_eq_of_not_fits hfit)
    have hcode := statusCode_statusWord .overflow 0 0 false i.opcode (by omega)
    rw [hok] at hcode
    cases hcode

theorem commandsOk_cons {i : Instr} {is : List Instr} {s t : State} (h : commandsOk (i :: is) s = some t) :
    ∃ u, exec i s = .next u ∧ statusCode u.status = 0 ∧ commandsOk is u = some t := by
  rcases hu : exec i s with u | f | r <;> simp only [commandsOk, hu, reduceCtorEq] at h
  split at h
  · next hok => exact ⟨u, rfl, hok, h⟩
  · cases h

/-- RLE_PUSHBUF, then RLE_ENCODE: the first leaves its last run open, and the second goes on from there. -/
theorem pushbuf_encode_appends {s₁ s₂ s₃ s₄ : State} {B₁ B₂ : Bytes} (hB₁ : inputBytes s₁ = some B₁)
    (h₁ : exec .rlePushbuf s₁ = .next s₂) (hok₁ : statusCode s₂.status = 0) (hrle : s₃.rle = s₂.rle)
    (hlen : s₃.outLen = s₂.outLen) (hobuf : ∀ a, s₃.obuf.read a = s₂.obuf.read a) (hB₂ : inputBytes s₃ = some B₂)
    (h₂ : exec .rleEncode s₃ = .next s₄) (hok₂ : statusCode s₄.status = 0) :
    s₁.Appends s₄ (rleRunFlush s₁.rle (B₁ ++ B₂)).2 ∧ s₄.rle = RleState.idle := by
  obtain ⟨hout₁, hrun⟩ := (Stages.rlePushbuf B₁ hB₁).appends_of_ok h₁ hok₁
  obtain ⟨hout₂, hidle⟩ := (Stages.rleEncode B₂ hB₂).appends_of_ok h₂ hok₂
  rw [hrle, hrun] at hout₂
  rw [rleRunFlush_append]
  exact ⟨hout₁.trans (hout₂.of_same_output hlen hobuf), hidle.trans (rleRunFlush_fst _ _)⟩

/-- RLE_PUSH of every byte, then RLE_FLUSH, with any run open at the start. -/
theorem push_each_flush_appends (B : Bytes) (s t : State)
    (h : commandsOk (B.map .rlePush ++ [.rleFlush]) s = some t) :
    s.Appends t (rleRunFlush s.rle B).2 ∧ t.rle = RleState.idle := by
  induction B generalizing s with
  | nil =>
    obtain ⟨u, hu, hok, hrest⟩ := commandsOk_cons h
    cases hrest
    obtain ⟨hout, hrle⟩ := Stages.rleFlush.appends_of_ok hu hok
    exact ⟨hout, hrle.trans (rleFlush_fst s.rle)⟩
  | cons b B ih =>
    obtain ⟨u, hu, hok, hrest⟩ := commandsOk_cons h
    obtain ⟨hout, hrle⟩ := (Stages.rlePush b).appends_of_ok hu hok
    obtain ⟨hout', hidle⟩ := ih u hrest
    rw [hrle] at hout'
    rw [rleRunFlush_cons]
    exact ⟨hout.trans hout', hidle⟩

/-- Settles O30: from idle, what either way appends is `rle` of all the input, by definition. -/
theorem rleStreaming : Obligations.RleStreaming := by
  refine ⟨fun s₁ s₂ s₃ s₄ B₁ B₂ hidle hB₁ h₁ hok₁ hrle hlen _ hobuf hB₂ h₂ hok₂ => ?_, fun B s t hidle h => ?_⟩
  · have hresult := pushbuf_encode_appends hB₁ h₁ hok₁ hrle hlen hobuf hB₂ h₂ hok₂
    rwa [hidle] at hresult
  · have hresult := push_each_flush_appends B s t h
    rwa [hidle] at hresult

end Sys2Proof.Machine
end

section
/-! PROOFS. UTF-8 validity (spec/43_framing.md R181, R182): the table's rows and the sequences they describe, then the
loop over the bytes. -/
namespace Sys2Proof.Machine

/-! ### The table (R181) -/

/-- Bytes that lie one by one in the given ranges. -/
def InRanges (ranges : List ByteRange) (B : Bytes) : Prop := List.Forall₂ (fun r b => inByteRange r b = true) ranges B

theorem inRanges_nil_iff (B : Bytes) : InRanges [] B ↔ B = [] := List.forall₂_nil_left_iff

theorem inRanges_cons_iff (lo hi : Nat) (ranges : List ByteRange) (B : Bytes) :
    InRanges ((lo, hi) :: ranges) B ↔ ∃ b t, B = b :: t ∧ byteIn lo hi b ∧ InRanges ranges t := by
  simp only [InRanges, List.forall₂_cons_left_iff, inByteRange_iff, byteIn]
  constructor
  · rintro ⟨b, t, hb, ht, rfl⟩
    exact ⟨b, t, rfl, hb, ht⟩
  · rintro ⟨b, t, rfl, hb, ht⟩
    exact ⟨b, t, hb, ht, rfl⟩

theorem utf8Rows_lead : ∀ row ∈ utf8Rows, (row.1.2 < 0x80 ∨ 0xC1 < row.1.1) ∧ row.1.2 < 0xF5 := by decide

theorem utf8Rows_continuation : ∀ row ∈ utf8Rows, ∀ r ∈ row.2, 0x80 ≤ r.1 ∧ r.2 ≤ 0xBF := by decide

theorem utf8Rows_disjoint : ∀ row ∈ utf8Rows, ∀ row' ∈ utf8Rows,
    row = row' ∨ row.1.2 < row'.1.1 ∨ row'.1.2 < row.1.1 := by decide

/-- The loop takes the row that a byte begins: there is at most one. -/
theorem utf8Tail_eq_some_iff (b : Byte) (due : List ByteRange) :
    utf8Tail b = some due ↔ ∃ row ∈ utf8Rows, inByteRange row.1 b = true ∧ row.2 = due := by
  rw [utf8Tail, Option.map_eq_some_iff]
  constructor
  · rintro ⟨row, hfind, hdue⟩
    have hb := List.find?_some hfind
    exact ⟨row, List.mem_of_find?_eq_some hfind, hb, hdue⟩
  · rintro ⟨row, hrow, hb, hdue⟩
    have hsome : (utf8Rows.find? fun row => inByteRange row.1 b).isSome := List.find?_isSome.mpr ⟨row, hrow, hb⟩
    obtain ⟨row', hfind⟩ := Option.isSome_iff_exists.mp hsome
    have hb' := List.find?_some hfind
    rw [inByteRange_iff] at hb hb'
    rcases utf8Rows_disjoint row hrow row' (List.mem_of_find?_eq_some hfind) with rfl | hlt | hlt
    · exact ⟨row, hfind, hdue⟩
    · omega
    · omega

/-- A well-formed sequence lies in the ranges of a row, byte by byte. -/
theorem utf8Sequence_iff (q : Bytes) : Utf8Sequence q ↔ ∃ row ∈ utf8Rows, InRanges (row.1 :: row.2) q := by
  have hin : ∀ {lo hi : Nat} {b : Byte}, byteIn lo hi b → inByteRange (lo, hi) b = true :=
    fun h => (inByteRange_iff _ _).mpr h
  constructor
  · intro h
    cases h with
    | ascii a ha => exact ⟨_, List.mem_of_getElem? (i := 0) rfl, .cons (hin ha) .nil⟩
    | two a b ha hb => exact ⟨_, List.mem_of_getElem? (i := 1) rfl, .cons (hin ha) (.cons (hin hb) .nil)⟩
    | threeE0 a b c ha hb hc =>
      exact ⟨_, List.mem_of_getElem? (i := 2) rfl, .cons (hin ha) (.cons (hin hb) (.cons (hin hc) .nil))⟩
    | threeE1 a b c ha hb hc =>
      exact ⟨_, List.mem_of_getElem? (i := 3) rfl, .cons (hin ha) (.cons (hin hb) (.cons (hin hc) .nil))⟩
    | threeED a b c ha hb hc =>
      exact ⟨_, List.mem_of_getElem? (i := 4) rfl, .cons (hin ha) (.cons (hin hb) (.cons (hin hc) .nil))⟩
    | threeEE a b c ha hb hc =>
      exact ⟨_, List.mem_of_getElem? (i := 5) rfl, .cons (hin ha) (.cons (hin hb) (.cons (hin hc) .nil))⟩
    | fourF0 a b c d ha hb hc hd =>
      exact ⟨_, List.mem_of_getElem? (i := 6) rfl,
        .cons (hin ha) (.cons (hin hb) (.cons (hin hc) (.cons (hin hd) .nil)))⟩
    | fourF1 a b c d ha hb hc hd =>
      exact ⟨_, List.mem_of_getElem? (i := 7) rfl,
        .cons (hin ha) (.cons (hin hb) (.cons (hin hc) (.cons (hin hd) .nil)))⟩
    | fourF4 a b c d ha hb hc hd =>
      exact ⟨_, List.mem_of_getElem? (i := 8) rfl,
        .cons (hin ha) (.cons (hin hb) (.cons (hin hc) (.cons (hin hd) .nil)))⟩
  · simp only [utf8Rows, List.exists_mem_cons_iff, List.not_mem_nil, false_and, exists_false, or_false,
      inRanges_cons_iff, inRanges_nil_iff]
    rintro (⟨a, _, rfl, ha, rfl⟩ | ⟨a, _, rfl, ha, b, _, rfl, hb, rfl⟩ |
      ⟨a, _, rfl, ha, b, _, rfl, hb, c, _, rfl, hc, rfl⟩ | ⟨a, _, rfl, ha, b, _, rfl, hb, c, _, rfl, hc, rfl⟩ |
      ⟨a, _, rfl, ha, b, _, rfl, hb, c, _, rfl, hc, rfl⟩ | ⟨a, _, rfl, ha, b, _, rfl, hb, c, _, rfl, hc, rfl⟩ |
      ⟨a, _, rfl, ha, b, _, rfl, hb, c, _, rfl, hc, d, _, rfl, hd, rfl⟩ |
      ⟨a, _, rfl, ha, b, _, rfl, hb, c, _, rfl, hc, d, _, rfl, hd, rfl⟩ |
      ⟨a, _, rfl, ha, b, _, rfl, hb, c, _, rfl, hc, d, _, rfl, hd, rfl⟩)
    · exact .ascii a ha
    · exact .two a b ha hb
    · exact .threeE0 a b c ha hb hc
    · exact .threeE1 a b c ha hb hc
    · exact .threeED a b c ha hb hc
    · exact .threeEE a b c ha hb hc
    · exact .fourF0 a b c d ha hb hc hd
    · exact .fourF1 a b c d ha hb hc hd
    · exact .fourF4 a b c d ha hb hc hd

theorem utf8Sequence_cons_iff (b : Byte) (t : Bytes) :
    Utf8Sequence (b :: t) ↔ ∃ due, utf8Tail b = some due ∧ InRanges due t := by
  simp only [utf8Sequence_iff, utf8Tail_eq_some_iff, InRanges, List.forall₂_cons]
  constructor
  · rintro ⟨row, hrow, hb, ht⟩
    exact ⟨row.2, ⟨row, hrow, hb, rfl⟩, ht⟩
  · rintro ⟨_, ⟨row, hrow, hb, rfl⟩, ht⟩
    exact ⟨row, hrow, hb, ht⟩

theorem not_utf8Sequence_nil : ¬ Utf8Sequence [] := nofun

/-! ### The loop (R181) -/

/-- The loop goes through the bytes still due. -/
theorem utf8From_append (due rest : List ByteRange) (t B : Bytes) (h : InRanges due t) :
    utf8From (due ++ rest) (t ++ B) = utf8From rest B := by
  induction h with
  | nil => rfl
  | cons hb _ ih => simp [utf8From, hb, ih]

theorem utf8Valid_cons (b : Byte) (B : Bytes) (due : List ByteRange) (h : utf8Tail b = some due) :
    utf8Valid (b :: B) = utf8From due B := by
  simp only [utf8Valid, utf8From, h]

/-- A well-formed sequence in front makes no difference. -/
theorem utf8Valid_sequence_append (q B : Bytes) (h : Utf8Sequence q) : utf8Valid (q ++ B) = utf8Valid B := by
  cases q with
  | nil => exact absurd h not_utf8Sequence_nil
  | cons b t =>
    obtain ⟨due, htail, ht⟩ := (utf8Sequence_cons_iff b t).mp h
    have hdue := utf8From_append due [] t B ht
    rw [List.append_nil] at hdue
    rw [List.cons_append, utf8Valid_cons b _ _ htail, hdue, utf8Valid]

/-- Bytes that the loop accepts are those still due, and then well-formed sequences. -/
theorem exists_sequences_of_utf8From (due : List ByteRange) (B : Bytes) (h : utf8From due B = true) :
    ∃ (t : Bytes) (qs : List Bytes), B = t ++ qs.flatten ∧ InRanges due t ∧ ∀ q ∈ qs, Utf8Sequence q := by
  induction B generalizing due with
  | nil =>
    obtain rfl := List.isEmpty_iff.mp (show due.isEmpty = true by cases due <;> exact h)
    exact ⟨[], [], rfl, .nil, nofun⟩
  | cons b B ih =>
    cases due with
    | nil =>
      cases htail : utf8Tail b with
      | none => simp [utf8From, htail] at h
      | some due =>
        simp only [utf8From, htail] at h
        obtain ⟨t, qs, rfl, ht, hqs⟩ := ih due h
        have hq := (utf8Sequence_cons_iff b t).mpr ⟨due, htail, ht⟩
        exact ⟨[], (b :: t) :: qs, rfl, .nil, List.forall_mem_cons.mpr ⟨hq, hqs⟩⟩
    | cons r due =>
      simp only [utf8From, Bool.and_eq_true] at h
      obtain ⟨hb, hB⟩ := h
      obtain ⟨t, qs, rfl, ht, hqs⟩ := ih due hB
      exact ⟨b :: t, qs, rfl, .cons hb ht, hqs⟩

theorem utf8Valid_sequences_append (qs : List Bytes) (B : Bytes) (h : ∀ q ∈ qs, Utf8Sequence q) :
    utf8Valid (qs.flatten ++ B) = utf8Valid B := by
  induction qs with
  | nil => rfl
  | cons q qs ih =>
    obtain ⟨hq, hqs⟩ := List.forall_mem_cons.mp h
    rw [List.flatten_cons, List.append_assoc, utf8Valid_sequence_append q _ hq, ih hqs]

/-- Settles O32: with nothing due, the loop accepts sequences and only sequences. -/
theorem utf8ValidExactly : Obligations.Utf8ValidExactly := by
  intro B
  constructor
  · intro h
    obtain ⟨t, qs, rfl, ⟨⟩, hqs⟩ := exists_sequences_of_utf8From [] B h
    exact ⟨qs, rfl, hqs⟩
  · rintro ⟨qs, rfl, hqs⟩
    rw [← List.append_nil qs.flatten, utf8Valid_sequences_append qs [] hqs]
    rfl

/-! ### What follows from it (R182) -/

theorem utf8Valid_append (A B : Bytes) (h : utf8Valid A = true) : utf8Valid (A ++ B) = utf8Valid B := by
  obtain ⟨qs, rfl, hqs⟩ := (utf8ValidExactly A).mp h
  exact utf8Valid_sequences_append qs B hqs

/-- A byte in some ranges lies in one of them. -/
theorem exists_inByteRange_of_mem {ranges : List ByteRange} {t : Bytes} (h : InRanges ranges t) (b : Byte)
    (hb : b ∈ t) : ∃ r ∈ ranges, inByteRange r b = true := by
  induction h with
  | nil => cases hb
  | @cons r c ranges t hr _ ih =>
    rcases List.mem_cons.mp hb with rfl | hb
    · exact ⟨r, List.mem_cons_self, hr⟩
    · obtain ⟨r', hr', hin⟩ := ih hb
      exact ⟨r', List.mem_cons_of_mem r hr', hin⟩

/-- No byte of a well-formed sequence is C0, C1 or F5 to FF: no range of the table holds one. -/
theorem utf8Sequence_bytes (q : Bytes) (h : Utf8Sequence q) :
    ∀ b ∈ q, b ≠ 0xC0 ∧ b ≠ 0xC1 ∧ b.toNat < 0xF5 := by
  intro b hb
  obtain ⟨row, hrow, hq⟩ := (utf8Sequence_iff q).mp h
  obtain ⟨r, hr, hin⟩ := exists_inByteRange_of_mem hq b hb
  have hrange : (r.2 < 0xC0 ∨ 0xC1 < r.1) ∧ r.2 < 0xF5 := by
    rcases List.mem_cons.mp hr with rfl | hr
    · have := utf8Rows_lead row hrow
      omega
    · have := utf8Rows_continuation row hrow r hr
      omega
  rw [inByteRange_iff] at hin
  refine ⟨?_, ?_, by omega⟩ <;>
    · rintro rfl
      simp only [BitVec.reduceToNat] at hin
      omega

/-- A sequence cut in two is cut between its first byte and the ranges of the others. -/
theorem exists_cut_of_utf8Sequence (x y : Bytes) (h : Utf8Sequence (x ++ y)) (hx : x ≠ []) : ∃ b t due rest,
    x = b :: t ∧ utf8Tail b = some (due ++ rest) ∧ InRanges due t ∧ InRanges rest y := by
  obtain ⟨b, t, rfl⟩ := List.exists_cons_of_ne_nil hx
  obtain ⟨ranges, htail, hranges⟩ := (utf8Sequence_cons_iff b (t ++ y)).mp h
  refine ⟨b, t, ranges.take t.length, ranges.drop t.length, rfl, ?_, ?_, ?_⟩
  · rw [List.take_append_drop, htail]
  · exact List.forall₂_take_append ranges t y hranges
  · exact List.forall₂_drop_append ranges t y hranges

/-- A sequence that breaks off is not valid. -/
theorem utf8Valid_of_cut_front (x y : Bytes) (h : Utf8Sequence (x ++ y)) (hx : x ≠ []) (hy : y ≠ []) :
    utf8Valid x = false := by
  obtain ⟨b, t, due, rest, rfl, htail, hdue, hrest⟩ := exists_cut_of_utf8Sequence x y h hx
  have ht := utf8From_append due rest t [] hdue
  rw [List.append_nil] at ht
  rw [utf8Valid_cons b t _ htail, ht]
  cases hrest with
  | nil => exact absurd rfl hy
  | cons => rfl

/-- No sequence begins with a continuation byte. -/
theorem utf8Tail_of_continuation (b : Byte) (hlo : 0x80 ≤ b.toNat) (hhi : b.toNat ≤ 0xBF) : utf8Tail b = none := by
  cases htail : utf8Tail b with
  | none => rfl
  | some due =>
    obtain ⟨row, hrow, hb, -⟩ := (utf8Tail_eq_some_iff b due).mp htail
    have hlead := utf8Rows_lead row hrow
    rw [inByteRange_iff] at hb
    omega

/-- Nor is what begins inside a sequence. -/
theorem utf8Valid_of_cut_back (x y C : Bytes) (h : Utf8Sequence (x ++ y)) (hx : x ≠ []) (hy : y ≠ []) :
    utf8Valid (y ++ C) = false := by
  obtain ⟨b, t, due, rest, rfl, htail, -, hrest⟩ := exists_cut_of_utf8Sequence x y h hx
  obtain ⟨row, hrow, -, hdue⟩ := (utf8Tail_eq_some_iff b _).mp htail
  cases hrest with
  | nil => exact absurd rfl hy
  | @cons r c rest y hr _ =>
    have hrange := utf8Rows_continuation row hrow r (by rw [hdue]; simp)
    rw [inByteRange_iff] at hr
    have hc : utf8Tail c = none := utf8Tail_of_continuation c (by omega) (by omega)
    simp only [List.cons_append, utf8Valid, utf8From, hc]

/-- Settles O33: each byte lies in a range of the table, and a cut leaves ranges due on both sides. -/
theorem utf8Consequences : Obligations.Utf8Consequences := by
  refine ⟨rfl, fun B hB b hb => ?_, fun A x y C hA hq hx hy => ?_⟩
  · obtain ⟨qs, rfl, hqs⟩ := (utf8ValidExactly B).mp hB
    obtain ⟨q, hq, hbq⟩ := List.mem_flatten.mp hb
    exact utf8Sequence_bytes q (hqs q hq) b hbq
  · rw [utf8Valid_append A x hA]
    exact ⟨utf8Valid_of_cut_front x y hq hx hy, utf8Valid_of_cut_back x y C hq hx hy⟩

end Sys2Proof.Machine
end

section
/-! PROOFS. The parser and the framer as functions (spec/43_framing.md R183 to R191): where the fields of a buffer lie,
what each loop of the parser does, and that a parse succeeds exactly on framed buffers. -/
namespace Sys2Proof.Machine

/-! ### Slices and length prefixes -/

theorem drop_eq_slice_append (B : Bytes) (p n : Nat) : B.drop p = slice B p n ++ B.drop (p + n) := by
  rw [slice, ← List.drop_drop, List.take_append_drop]

theorem slice_to_end (B : Bytes) (p : Nat) : slice B p (B.length - p) = B.drop p := by simp [slice]

theorem slice_append_append (A C D : Bytes) : slice (A ++ (C ++ D)) A.length C.length = C := by simp [slice]

theorem lengthPrefix_length (f : Bytes) : (lengthPrefix f).length = 4 := rfl

/-- What stands before a framed field declares its length. -/
theorem prefixAt_append_lengthPrefix (A f D : Bytes) (hf : f.length < 2 ^ 32) :
    prefixAt (A ++ (lengthPrefix f ++ D)) A.length = some f.length := by
  have hslice : slice (A ++ (lengthPrefix f ++ D)) A.length 4 = lengthPrefix f :=
    slice_append_append A (lengthPrefix f) D
  rw [prefixAt, hslice, lengthPrefix, dec32_enc32, Option.map_some, BitVec.toNat_ofNat, Nat.mod_eq_of_lt hf]

/-- Four bytes that declare a field's length are the ones that framing it puts there. -/
theorem slice_of_prefixAt (B f : Bytes) (p : Nat) (h : prefixAt B p = some f.length) :
    slice B p 4 = lengthPrefix f := by
  obtain ⟨w, hw, hlen⟩ := Option.map_eq_some_iff.mp h
  rw [lengthPrefix, ← hlen, BitVec.ofNat_toNat, BitVec.setWidth_eq, enc32_of_dec32 _ w hw]

theorem prefixAt_eq_none_iff (B : Bytes) (p : Nat) : prefixAt B p = none ↔ B.length < p + 4 := by
  rw [← Option.not_isSome_iff_eq_none, prefixAt_isSome_iff, Nat.not_le]

theorem le_length_of_prefixAt (B : Bytes) (p len : Nat) (h : prefixAt B p = some len) : p + 4 ≤ B.length :=
  (prefixAt_isSome_iff B p).mp (by rw [h]; rfl)

/-! ### Where the fields lie -/

/-- The places of fields of the given lengths from index p on, each behind `gap` bytes. -/
def fieldSpans (gap : Nat) : Nat → List Nat → List Span
  | _, [] => []
  | p, len :: lens => (p + gap, len) :: fieldSpans gap (p + gap + len) lens

@[simp] theorem fieldSpans_nil (gap p : Nat) : fieldSpans gap p [] = [] := rfl

@[simp] theorem fieldSpans_cons (gap p len : Nat) (lens : List Nat) :
    fieldSpans gap p (len :: lens) = (p + gap, len) :: fieldSpans gap (p + gap + len) lens := rfl

theorem fieldSpans_lengths (gap p : Nat) (lens : List Nat) : (fieldSpans gap p lens).map (·.2) = lens := by
  induction lens generalizing p with
  | nil => rfl
  | cons len lens ih => simp [ih]

/-- The fields lie between the index they are placed from and the end of the last. -/
theorem fieldSpans_bounds (gap p : Nat) (lens : List Nat) :
    ∀ f ∈ fieldSpans gap p lens, p ≤ f.1 ∧ f.1 + f.2 ≤ p + gap * lens.length + lens.sum := by
  induction lens generalizing p with
  | nil => nofun
  | cons len lens ih =>
    simp only [fieldSpans_cons, List.forall_mem_cons, List.length_cons, List.sum_cons, Nat.mul_succ]
    refine ⟨by omega, fun f hf => ?_⟩
    have := ih (p + gap + len) f hf
    omega

theorem fieldSpans_pairwise (gap p : Nat) (lens : List Nat) :
    (fieldSpans gap p lens).Pairwise fun f g => f.1 + f.2 ≤ g.1 := by
  induction lens generalizing p with
  | nil => exact .nil
  | cons len lens ih =>
    refine .cons (fun g hg => ?_) (ih _)
    obtain ⟨hle, -⟩ := fieldSpans_bounds _ _ _ g hg
    exact hle

/-- Fields laid out one behind the other, each behind `gap` bytes, are found where `fieldSpans` says. -/
theorem fieldBytes_fieldSpans (front : Bytes → Bytes) (gap : Nat) (hgap : ∀ f, (front f).length = gap) (A D : Bytes)
    (F : List Bytes) :
    (fieldSpans gap A.length (F.map List.length)).map
      (fieldBytes (A ++ (F.flatMap (fun f => front f ++ f) ++ D))) = F := by
  induction F generalizing A with
  | nil => rfl
  | cons f F ih =>
    have hlen : (A ++ front f).length = A.length + gap := by rw [List.length_append, hgap]
    have hlen' : (A ++ front f ++ f).length = A.length + gap + f.length := by rw [List.length_append, hlen]
    have hhead := slice_append_append (A ++ front f) f (F.flatMap (fun f => front f ++ f) ++ D)
    have hrest := ih (A ++ front f ++ f)
    rw [hlen] at hhead
    rw [hlen'] at hrest
    simp only [List.map_cons, fieldSpans_cons, List.flatMap_cons, List.append_assoc, fieldBytes] at hhead hrest ⊢
    rw [hhead, hrest]

/-- A parse that has found the given fields first (43_framing.md R183). -/
def ParseResult.prepend (front : List Span) : ParseResult → ParseResult
  | .ok fields toff tlen => .ok (front ++ fields) toff tlen
  | .shortPrefix i => .shortPrefix i
  | .shortField i => .shortField i

@[simp] theorem prepend_ok (front fields : List Span) (toff tlen : Nat) :
    (ParseResult.ok fields toff tlen).prepend front = .ok (front ++ fields) toff tlen := rfl

@[simp] theorem prepend_nil (r : ParseResult) : r.prepend [] = r := by cases r <;> rfl

theorem prepend_prepend (r : ParseResult) (front front' : List Span) :
    (r.prepend front').prepend front = r.prepend (front ++ front') := by
  cases r <;> simp [ParseResult.prepend]

@[simp] theorem prepend_eq_shortPrefix_iff (r : ParseResult) (front : List Span) (i : Nat) :
    r.prepend front = .shortPrefix i ↔ r = .shortPrefix i := by
  cases r <;> simp [ParseResult.prepend]

/-! ### GROUPED: the prefixes, then the fields (R184) -/

theorem groupedLengths_of_no_prefix (B : Bytes) (i n : Nat) (h : prefixAt B (4 * i) = none) :
    groupedLengths B i (n + 1) = .error i := by
  simp [groupedLengths, h]

theorem groupedLengths_of_prefix (B : Bytes) (i n len : Nat) (h : prefixAt B (4 * i) = some len) :
    groupedLengths B i (n + 1) = (groupedLengths B (i + 1) n).map (len :: ·) := by
  simp only [groupedLengths, h]
  cases groupedLengths B (i + 1) n <;> rfl

/-- The first loop stops where fewer than four bytes are left, whatever the lengths before declare. -/
theorem groupedLengths_eq_error_iff (B : Bytes) (i n j : Nat) (hi : 4 * i ≤ B.length) :
    groupedLengths B i n = .error j ↔ i ≤ j ∧ j < i + n ∧ 4 * j ≤ B.length ∧ B.length < 4 * j + 4 := by
  induction n generalizing i with
  | zero =>
    have herr : groupedLengths B i 0 ≠ .error j := nofun
    rw [iff_false_left herr]
    omega
  | succ n ih =>
    cases hp : prefixAt B (4 * i) with
    | none =>
      have hshort := (prefixAt_eq_none_iff B (4 * i)).mp hp
      rw [groupedLengths_of_no_prefix B i n hp, Except.error.injEq]
      omega
    | some len =>
      have hroom := le_length_of_prefixAt B _ len hp
      have hmap : (groupedLengths B (i + 1) n).map (len :: ·) = .error j ↔ groupedLengths B (i + 1) n = .error j := by
        cases groupedLengths B (i + 1) n <;> simp [Except.map]
      rw [groupedLengths_of_prefix B i n len hp, hmap, ih (i + 1) (by omega)]
      omega

/-- The first loop returns the lengths that the prefixes declare. -/
theorem groupedLengths_eq_ok_iff (B : Bytes) (i n : Nat) (lens : List Nat) :
    groupedLengths B i n = .ok lens ↔ lens.length = n ∧ ∀ j, j < n → prefixAt B (4 * (i + j)) = lens[j]? := by
  induction n generalizing i lens with
  | zero =>
    rw [show groupedLengths B i 0 = .ok [] from rfl, Except.ok.injEq, eq_comm, ← List.length_eq_zero_iff]
    exact (and_iff_left nofun).symm
  | succ n ih =>
    simp only [Nat.forall_lt_succ_left, Nat.add_zero]
    cases hp : prefixAt B (4 * i) with
    | none =>
      rw [groupedLengths_of_no_prefix B i n hp]
      cases lens <;> simp
    | some len =>
      have hmap : (groupedLengths B (i + 1) n).map (len :: ·) = .ok lens ↔
          ∃ rest, groupedLengths B (i + 1) n = .ok rest ∧ len :: rest = lens := by
        cases groupedLengths B (i + 1) n <;> simp [Except.map]
      rw [groupedLengths_of_prefix B i n len hp, hmap]
      cases lens with
      | nil => simp
      | cons len' rest => simp [ih, Nat.add_assoc, Nat.add_comm 1, and_comm, and_left_comm]

/-- One field of the second loop. -/
theorem placeFields_cons (L i p len : Nat) (lens : List Nat) : placeFields L i p (len :: lens) =
    if L < p + len then .shortField i else (placeFields L (i + 1) (p + len) lens).prepend [(p, len)] := by
  simp only [placeFields]
  cases placeFields L (i + 1) (p + len) lens <;> rfl

/-- The second loop goes through the fields that fit. -/
theorem placeFields_append (L i p : Nat) (front rest : List Nat) (h : p + front.sum ≤ L) :
    placeFields L i p (front ++ rest) =
      (placeFields L (i + front.length) (p + front.sum) rest).prepend (fieldSpans 0 p front) := by
  induction front generalizing i p with
  | nil => simp
  | cons len front ih =>
    rw [List.sum_cons, ← Nat.add_assoc] at h
    rw [List.cons_append, placeFields_cons, if_neg (by omega), ih _ _ h, prepend_prepend]
    simp [Nat.add_assoc, Nat.add_comm 1]

theorem placeFields_of_fits (L i p : Nat) (lens : List Nat) (h : p + lens.sum ≤ L) :
    placeFields L i p lens = .ok (fieldSpans 0 p lens) (p + lens.sum) (L - (p + lens.sum)) := by
  have happ := placeFields_append L i p lens [] h
  rw [List.append_nil] at happ
  simp [happ, placeFields]

theorem placeFields_of_short (L p len : Nat) (front rest : List Nat) (h : p + front.sum ≤ L)
    (hshort : L < p + front.sum + len) : placeFields L 0 p (front ++ len :: rest) = .shortField front.length := by
  rw [placeFields_append L 0 p front _ h, placeFields_cons, if_pos hshort, Nat.zero_add]
  rfl

/-- All fields fit, or there is a first that does not. -/
theorem fits_or_exists_short (L p : Nat) (lens : List Nat) (hp : p ≤ L) : p + lens.sum ≤ L ∨
    ∃ front len rest, lens = front ++ len :: rest ∧ p + front.sum ≤ L ∧ L < p + front.sum + len := by
  induction lens generalizing p with
  | nil => exact .inl hp
  | cons len lens ih =>
    rcases Nat.lt_or_ge L (p + len) with hshort | hfit
    · exact .inr ⟨[], len, lens, rfl, hp, hshort⟩
    · rw [List.sum_cons, ← Nat.add_assoc]
      refine (ih (p + len) hfit).imp_right ?_
      rintro ⟨front, len', rest, rfl, hfront, hshort⟩
      exact ⟨len :: front, len', rest, rfl, by rw [List.sum_cons]; omega, by rw [List.sum_cons]; omega⟩

/-- The second loop stops at the first field that does not fit behind those before it. -/
theorem placeFields_eq_shortField_iff (L p j : Nat) (lens : List Nat) (hp : p ≤ L) :
    placeFields L 0 p lens = .shortField j ↔
      j < lens.length ∧ p + (lens.take j).sum ≤ L ∧ L < p + (lens.take (j + 1)).sum := by
  constructor
  · rcases fits_or_exists_short L p lens hp with hfits | ⟨front, len, rest, rfl, hfront, hshort⟩
    · rw [placeFields_of_fits L 0 p lens hfits]
      nofun
    · rw [placeFields_of_short L p len front rest hfront hshort]
      rintro ⟨⟩
      rw [Nat.add_assoc] at hshort
      simpa [List.take_append, List.take_of_length_le] using ⟨hfront, hshort⟩
  · rintro ⟨hj, hfront, hshort⟩
    rw [← List.take_append_getElem hj, List.sum_append, List.sum_singleton, ← Nat.add_assoc] at hshort
    have := placeFields_of_short L p lens[j] (lens.take j) (lens.drop (j + 1)) hfront hshort
    rwa [List.getElem_cons_drop, List.take_append_drop, List.length_take_of_le (Nat.le_of_lt hj)] at this

/-- It succeeds only where all fields fit. -/
theorem fits_of_placeFields (L p : Nat) (lens : List Nat) (hp : p ≤ L)
    (hshort : (placeFields L 0 p lens).shortIndex = none) : p + lens.sum ≤ L := by
  rcases fits_or_exists_short L p lens hp with hfits | ⟨front, len, rest, rfl, hfront, hlen⟩
  · exact hfits
  · rw [placeFields_of_short L p len front rest hfront hlen] at hshort
    cases hshort

theorem placeFields_ne_shortPrefix (L i p j : Nat) (lens : List Nat) : placeFields L i p lens ≠ .shortPrefix j := by
  induction lens generalizing i p with
  | nil => nofun
  | cons len lens ih =>
    rw [placeFields_cons]
    split
    · nofun
    · exact mt (prepend_eq_shortPrefix_iff _ _ _).mp (ih _ _)

/-- All prefixes of a GROUPED buffer are there, and declare the given lengths. -/
def groupedDeclares (B : Bytes) (lens : List Nat) : Prop :=
  ∀ i, i < lens.length → prefixAt B (4 * i) = lens[i]?

/-- With all prefixes there, the parse is the second loop. -/
theorem parse_grouped_of_declares (B : Bytes) (lens : List Nat) (h : groupedDeclares B lens) :
    parse B lens.length .grouped = placeFields B.length 0 (4 * lens.length) lens := by
  have hok : groupedLengths B 0 lens.length = .ok lens :=
    (groupedLengths_eq_ok_iff B 0 _ lens).mpr ⟨rfl, by simpa only [Nat.zero_add, groupedDeclares] using h⟩
  simp only [parse, parseGrouped, hok]

theorem groupedDeclares.le_length {B : Bytes} {lens : List Nat} (h : groupedDeclares B lens) :
    4 * lens.length ≤ B.length := by
  rcases Nat.eq_zero_or_pos lens.length with hzero | hpos
  · omega
  · have hlast := h (lens.length - 1) (by omega)
    rw [List.getElem?_eq_getElem (by omega)] at hlast
    have := le_length_of_prefixAt B _ _ hlast
    omega

/-- The two ends of the first loop: it stops, or all k prefixes are there. -/
theorem parse_grouped_cases (B : Bytes) (k : Nat) :
    (∃ i, groupedLengths B 0 k = .error i ∧ parse B k .grouped = .shortPrefix i) ∨
    ∃ lens, lens.length = k ∧ groupedDeclares B lens := by
  cases h : groupedLengths B 0 k with
  | error i => exact .inl ⟨i, rfl, by simp only [parse, parseGrouped, h]⟩
  | ok lens =>
    obtain ⟨rfl, hdecl⟩ := (groupedLengths_eq_ok_iff B 0 k lens).mp h
    exact .inr ⟨lens, rfl, by simpa only [Nat.zero_add, groupedDeclares] using hdecl⟩

theorem parse_grouped_eq_shortPrefix_iff (B : Bytes) (k i : Nat) :
    parse B k .grouped = .shortPrefix i ↔ i < k ∧ 4 * i ≤ B.length ∧ B.length < 4 * i + 4 := by
  have herr := groupedLengths_eq_error_iff B 0 k
  rcases parse_grouped_cases B k with ⟨j, hj, hp⟩ | ⟨lens, rfl, hdecl⟩
  · have hij := herr i (Nat.zero_le _)
    rw [hj, Except.error.injEq] at hij
    rw [hp, ParseResult.shortPrefix.injEq, hij]
    omega
  · have hroom := hdecl.le_length
    rw [parse_grouped_of_declares B lens hdecl]
    exact iff_of_false (placeFields_ne_shortPrefix _ _ _ _ _) (by omega)

/-- Settles O35: the first loop alone answers ShortPrefix, and the second the rest. -/
theorem groupedParseShortOutcomes : Obligations.GroupedParseShortOutcomes := by
  refine ⟨parse_grouped_eq_shortPrefix_iff, ?_⟩
  rintro B _ lens rfl hdecl
  have hparse := parse_grouped_of_declares B lens hdecl
  refine ⟨fun i => ?_, fun hfits => ⟨fieldSpans 0 (4 * lens.length) lens, ?_, fieldSpans_lengths _ _ _⟩⟩
  · rw [hparse, placeFields_eq_shortField_iff _ _ i lens (groupedDeclares.le_length hdecl)]
  · rw [hparse, placeFields_of_fits _ _ _ _ hfits]

/-! ### INTERLEAVED: each length with its field (R185) -/

/-- Fields of the given lengths fit behind index p: `interleavedFits` from any index, by recursion on the lengths. -/
def interleavedFitsFrom (B : Bytes) : Nat → List Nat → Prop
  | _, [] => True
  | p, len :: lens => prefixAt B p = some len ∧ p + 4 + len ≤ B.length ∧ interleavedFitsFrom B (p + 4 + len) lens

theorem interleavedStart_cons (len : Nat) (lens : List Nat) :
    interleavedStart (len :: lens) = 4 + len + interleavedStart lens := by
  simp only [interleavedStart, List.length_cons, List.sum_cons]
  omega

theorem interleavedFitsFrom_iff (B : Bytes) (p : Nat) (lens : List Nat) :
    interleavedFitsFrom B p lens ↔ ∀ i len, lens[i]? = some len →
      prefixAt B (p + interleavedStart (lens.take i)) = some len ∧
        p + interleavedStart (lens.take (i + 1)) ≤ B.length := by
  induction lens generalizing p with
  | nil => simp [interleavedFitsFrom]
  | cons len lens ih =>
    rw [interleavedFitsFrom, ih, ← and_assoc]
    refine Iff.trans ?_ Nat.and_forall_add_one
    simp only [List.getElem?_cons_zero, Option.some.injEq, forall_eq', List.getElem?_cons_succ, List.take_succ_cons,
      List.take_zero, interleavedStart_cons, ← Nat.add_assoc]
    rfl

theorem interleavedFits_iff (B : Bytes) (lens : List Nat) : interleavedFits B lens ↔ interleavedFitsFrom B 0 lens := by
  simp only [interleavedFits, interleavedFitsFrom_iff, Nat.zero_add]

/-- One field of the loop. -/
theorem parseInterleavedFrom_of_no_prefix (B : Bytes) (n i p : Nat) (h : prefixAt B p = none) :
    parseInterleavedFrom B (n + 1) i p = .shortPrefix i := by
  simp [parseInterleavedFrom, h]

theorem parseInterleavedFrom_of_prefix (B : Bytes) (n i p len : Nat) (h : prefixAt B p = some len) :
    parseInterleavedFrom B (n + 1) i p =
      if B.length < p + 4 + len then .shortField i
      else (parseInterleavedFrom B n (i + 1) (p + 4 + len)).prepend [(p + 4, len)] := by
  simp only [parseInterleavedFrom, h]
  cases parseInterleavedFrom B n (i + 1) (p + 4 + len) <;> rfl

/-- The loop goes through the fields that fit. -/
theorem parseInterleavedFrom_add (B : Bytes) (n i p : Nat) (lens : List Nat) (h : interleavedFitsFrom B p lens) :
    parseInterleavedFrom B (lens.length + n) i p =
      (parseInterleavedFrom B n (i + lens.length) (p + interleavedStart lens)).prepend (fieldSpans 4 p lens) := by
  induction lens generalizing i p with
  | nil => simp [interleavedStart]
  | cons len lens ih =>
    obtain ⟨hprefix, hfit, hrest⟩ := h
    rw [List.length_cons, Nat.add_right_comm, parseInterleavedFrom_of_prefix B _ i p len hprefix,
      if_neg (Nat.not_lt.mpr hfit), ih _ _ hrest, prepend_prepend, interleavedStart_cons]
    simp [Nat.add_assoc, Nat.add_comm 1]

theorem parse_interleaved_add (B : Bytes) (n : Nat) (lens : List Nat) (h : interleavedFits B lens) :
    parse B (lens.length + n) .interleaved =
      (parseInterleavedFrom B n lens.length (interleavedStart lens)).prepend (fieldSpans 4 0 lens) := by
  have hadd := parseInterleavedFrom_add B n 0 0 lens ((interleavedFits_iff B lens).mp h)
  rwa [Nat.zero_add, Nat.zero_add] at hadd

theorem parse_interleaved_of_fits (B : Bytes) (lens : List Nat) (h : interleavedFits B lens) :
    parse B lens.length .interleaved =
      .ok (fieldSpans 4 0 lens) (interleavedStart lens) (B.length - interleavedStart lens) := by
  simpa [parseInterleavedFrom] using parse_interleaved_add B 0 lens h

theorem parse_interleaved_of_no_prefix (B : Bytes) (k : Nat) (lens : List Nat) (h : interleavedFits B lens)
    (hk : lens.length < k) (hshort : B.length < interleavedStart lens + 4) :
    parse B k .interleaved = .shortPrefix lens.length := by
  obtain ⟨n, rfl⟩ := Nat.exists_eq_add_of_lt hk
  rw [Nat.add_assoc, parse_interleaved_add B _ lens h,
    parseInterleavedFrom_of_no_prefix _ _ _ _ ((prefixAt_eq_none_iff _ _).mpr hshort)]
  rfl

theorem parse_interleaved_of_short (B : Bytes) (k len : Nat) (lens : List Nat) (h : interleavedFits B lens)
    (hk : lens.length < k) (hprefix : prefixAt B (interleavedStart lens) = some len)
    (hshort : B.length < interleavedStart lens + 4 + len) :
    parse B k .interleaved = .shortField lens.length := by
  obtain ⟨n, rfl⟩ := Nat.exists_eq_add_of_lt hk
  rw [Nat.add_assoc, parse_interleaved_add B _ lens h, parseInterleavedFrom_of_prefix _ _ _ _ _ hprefix, if_pos hshort]
  rfl

/-- What stops the loop at index p: fewer than four bytes left, or a length that is more than what is left. -/
def interleavedStops (B : Bytes) (p : Nat) : Prop :=
  B.length < p + 4 ∨ ∃ len, prefixAt B p = some len ∧ B.length < p + 4 + len

theorem exists_interleavedFitsFrom (B : Bytes) (n p : Nat) : ∃ lens, interleavedFitsFrom B p lens ∧
    (lens.length = n ∨ lens.length < n ∧ interleavedStops B (p + interleavedStart lens)) := by
  induction n generalizing p with
  | zero => exact ⟨[], trivial, .inl rfl⟩
  | succ n ih =>
    by_cases hstop : interleavedStops B p
    · exact ⟨[], trivial, .inr ⟨Nat.succ_pos n, hstop⟩⟩
    · obtain ⟨hroom, hfit⟩ := not_or.mp hstop
      obtain ⟨len, hlen⟩ := Option.isSome_iff_exists.mp ((prefixAt_isSome_iff B p).mpr (Nat.le_of_not_lt hroom))
      obtain ⟨lens, hfits, hend⟩ := ih (p + 4 + len)
      refine ⟨len :: lens, ⟨hlen, Nat.le_of_not_lt fun hlt => hfit ⟨len, hlen, hlt⟩, hfits⟩, ?_⟩
      rw [interleavedStart_cons, ← Nat.add_assoc, ← Nat.add_assoc]
      exact hend.imp (congrArg (· + 1)) (And.imp_left Nat.succ_lt_succ)

/-- The three ends of the loop. -/
theorem parse_interleaved_cases (B : Bytes) (k : Nat) : ∃ lens, interleavedFits B lens ∧
    (lens.length = k ∨
      lens.length < k ∧ B.length < interleavedStart lens + 4 ∨
      lens.length < k ∧ ∃ len, prefixAt B (interleavedStart lens) = some len ∧
        B.length < interleavedStart lens + 4 + len) := by
  obtain ⟨lens, hfits, hend⟩ := exists_interleavedFitsFrom B k 0
  rw [Nat.zero_add] at hend
  exact ⟨lens, (interleavedFits_iff B lens).mpr hfits, hend.imp_right fun ⟨hk, hstop⟩ =>
    hstop.imp (⟨hk, ·⟩) (⟨hk, ·⟩)⟩

/-- Settles O36: the ends of the loop are those of `parse_interleaved_cases`, and each has its own outcome. -/
theorem interleavedParseOutcomes : Obligations.InterleavedParseOutcomes := by
  intro B k
  have hends := parse_interleaved_cases B k
  refine ⟨fun i => ⟨fun hparse => ?_, ?_⟩, fun i => ⟨fun hparse => ?_, ?_⟩, ?_⟩
  · obtain ⟨lens, hfits, rfl | ⟨hk, hshort⟩ | ⟨hk, len, hprefix, hshort⟩⟩ := hends
    · cases hparse.symm.trans (parse_interleaved_of_fits B lens hfits)
    · cases hparse.symm.trans (parse_interleaved_of_no_prefix B k lens hfits hk hshort)
      exact ⟨hk, lens, rfl, hfits, hshort⟩
    · cases hparse.symm.trans (parse_interleaved_of_short B k len lens hfits hk hprefix hshort)
  · rintro ⟨hk, lens, rfl, hfits, hshort⟩
    exact parse_interleaved_of_no_prefix B k lens hfits hk hshort
  · obtain ⟨lens, hfits, rfl | ⟨hk, hshort⟩ | ⟨hk, len, hprefix, hshort⟩⟩ := hends
    · cases hparse.symm.trans (parse_interleaved_of_fits B lens hfits)
    · cases hparse.symm.trans (parse_interleaved_of_no_prefix B k lens hfits hk hshort)
    · cases hparse.symm.trans (parse_interleaved_of_short B k len lens hfits hk hprefix hshort)
      exact ⟨hk, lens, len, rfl, hfits, hprefix, hshort⟩
  · rintro ⟨hk, lens, len, rfl, hfits, hprefix, hshort⟩
    exact parse_interleaved_of_short B k len lens hfits hk hprefix hshort
  · rintro lens rfl hfits
    exact ⟨fieldSpans 4 0 lens, parse_interleaved_of_fits B lens hfits, fieldSpans_lengths _ _ _⟩

/-! ### A parse succeeds exactly on framed buffers (R188, R190, R191) -/

/-- Where the fields of a framed buffer lie: in GROUPED behind all prefixes, in INTERLEAVED each behind its own. -/
def frameSpans (lens : List Nat) : Layout → List Span
  | .grouped => fieldSpans 0 (4 * lens.length) lens
  | .interleaved => fieldSpans 4 0 lens

theorem frameSpans_lengths (lens : List Nat) (layout : Layout) : (frameSpans lens layout).map (·.2) = lens := by
  cases layout <;> exact fieldSpans_lengths _ _ _

theorem frameSpans_bounds (lens : List Nat) (layout : Layout) :
    ∀ f ∈ frameSpans lens layout, f.1 + f.2 ≤ interleavedStart lens := by
  intro f hf
  cases layout <;>
    · obtain ⟨-, hend⟩ := fieldSpans_bounds _ _ _ f hf
      rw [interleavedStart]
      omega

theorem frameSpans_pairwise (lens : List Nat) (layout : Layout) :
    (frameSpans lens layout).Pairwise fun f g => f.1 + f.2 ≤ g.1 := by
  cases layout <;> exact fieldSpans_pairwise _ _ _

theorem flatMap_lengthPrefix_length (F : List Bytes) : (F.flatMap lengthPrefix).length = 4 * F.length := by
  simp [List.length_flatMap, lengthPrefix_length, Nat.mul_comm]

theorem frame_interleaved_cons (f : Bytes) (F : List Bytes) (T : Bytes) :
    frame (f :: F) T .interleaved = lengthPrefix f ++ (f ++ frame F T .interleaved) := by
  simp [frame]

/-- A framed buffer is its trailer behind a front of four bytes per field and the fields. -/
theorem exists_frame_eq_append (F : List Bytes) (T : Bytes) (layout : Layout) :
    ∃ A, frame F T layout = A ++ T ∧ A.length = interleavedStart (F.map List.length) := by
  cases layout with
  | grouped =>
    refine ⟨_, rfl, ?_⟩
    rw [List.length_append, flatMap_lengthPrefix_length, List.length_flatten, interleavedStart, List.length_map]
  | interleaved =>
    refine ⟨_, rfl, ?_⟩
    induction F with
    | nil => rfl
    | cons f F ih =>
      simp [interleavedStart_cons, lengthPrefix_length, ih, Nat.add_assoc]

theorem groupedDeclares_frame (F : List Bytes) (T : Bytes) (hF : ∀ f ∈ F, f.length < 2 ^ 32) :
    groupedDeclares (frame F T .grouped) (F.map List.length) := by
  intro i hi
  rw [List.length_map] at hi
  have hsplit : F.flatMap lengthPrefix =
      (F.take i).flatMap lengthPrefix ++ (lengthPrefix F[i] ++ (F.drop (i + 1)).flatMap lengthPrefix) := by
    rw [← List.flatMap_cons, ← List.flatMap_append, List.getElem_cons_drop, List.take_append_drop]
  have hprefix := prefixAt_append_lengthPrefix ((F.take i).flatMap lengthPrefix) F[i]
    ((F.drop (i + 1)).flatMap lengthPrefix ++ F.flatten ++ T) (hF _ (List.getElem_mem hi))
  rw [flatMap_lengthPrefix_length, List.length_take_of_le (Nat.le_of_lt hi)] at hprefix
  rw [frame, hsplit, List.getElem?_map, List.getElem?_eq_getElem hi, Option.map_some, ← hprefix]
  simp only [List.append_assoc]

theorem interleavedFitsFrom_frame (A T : Bytes) (F : List Bytes) (hF : ∀ f ∈ F, f.length < 2 ^ 32) :
    interleavedFitsFrom (A ++ frame F T .interleaved) A.length (F.map List.length) := by
  induction F generalizing A with
  | nil => trivial
  | cons f F ih =>
    obtain ⟨hf, hF⟩ := List.forall_mem_cons.mp hF
    rw [frame_interleaved_cons]
    have hrest := ih (A ++ lengthPrefix f ++ f) hF
    simp only [List.append_assoc, List.length_append, lengthPrefix_length, ← Nat.add_assoc] at hrest
    refine ⟨prefixAt_append_lengthPrefix A f _ hf, ?_, hrest⟩
    simp only [List.length_append, lengthPrefix_length]
    omega

theorem frame_length (F : List Bytes) (T : Bytes) (layout : Layout) :
    (frame F T layout).length = interleavedStart (F.map List.length) + T.length := by
  obtain ⟨A, hframe, hA⟩ := exists_frame_eq_append F T layout
  rw [hframe, List.length_append, hA]

/-- Parsing a framed buffer finds its fields and its trailer. -/
theorem parse_frame (F : List Bytes) (T : Bytes) (layout : Layout) (hF : ∀ f ∈ F, f.length < 2 ^ 32) :
    parse (frame F T layout) F.length layout =
      .ok (frameSpans (F.map List.length) layout) (interleavedStart (F.map List.length)) T.length := by
  have hlen := frame_length F T layout
  have htlen : (frame F T layout).length - interleavedStart (F.map List.length) = T.length := by omega
  cases layout with
  | grouped =>
    have hparse := parse_grouped_of_declares _ _ (groupedDeclares_frame F T hF)
    rw [placeFields_of_fits _ _ _ _ (by rw [hlen]; exact Nat.le_add_right _ _), ← interleavedStart, htlen] at hparse
    rw [List.length_map] at hparse
    rw [hparse, frameSpans, List.length_map]
  | interleaved =>
    have hfits := (interleavedFits_iff _ _).mpr (interleavedFitsFrom_frame [] T F hF)
    have hparse := parse_interleaved_of_fits _ _ hfits
    rwa [List.nil_append, htlen, List.length_map] at hparse

/-- The fields of a framed buffer are found where `frameSpans` says. -/
theorem fieldBytes_frame (F : List Bytes) (T : Bytes) (layout : Layout) :
    (frameSpans (F.map List.length) layout).map (fieldBytes (frame F T layout)) = F := by
  cases layout with
  | grouped =>
    have hfields := fieldBytes_fieldSpans (fun _ => []) 0 (fun _ => rfl) (F.flatMap lengthPrefix) T F
    rw [flatMap_lengthPrefix_length] at hfields
    simpa [frame, frameSpans, List.flatMap_id'] using hfields
  | interleaved =>
    simpa [frame, frameSpans] using fieldBytes_fieldSpans lengthPrefix 4 lengthPrefix_length [] T F

/-- The trailer of a framed buffer is found behind them. -/
theorem slice_trailer_frame (F : List Bytes) (T : Bytes) (layout : Layout) :
    slice (frame F T layout) (interleavedStart (F.map List.length)) T.length = T := by
  obtain ⟨A, hframe, hA⟩ := exists_frame_eq_append F T layout
  rw [hframe, ← hA]
  simp [slice]

theorem groupedDeclares.lt {B : Bytes} {lens : List Nat} (h : groupedDeclares B lens) : ∀ len ∈ lens, len < 2 ^ 32 := by
  intro len hlen
  obtain ⟨i, hi, rfl⟩ := List.mem_iff_getElem.mp hlen
  exact prefixAt_lt B _ _ ((h i hi).trans (List.getElem?_eq_getElem hi))

theorem interleavedFits_lt (B : Bytes) (lens : List Nat) (h : interleavedFits B lens) : ∀ len ∈ lens, len < 2 ^ 32 := by
  intro len hlen
  obtain ⟨i, hi⟩ := List.mem_iff_getElem?.mp hlen
  obtain ⟨hprefix, -⟩ := h i len hi
  exact prefixAt_lt B _ len hprefix

/-- Prefixes that declare the lengths of some fields are those fields' length prefixes. -/
theorem flatMap_lengthPrefix_append_drop (B : Bytes) (p : Nat) (F : List Bytes)
    (h : ∀ i, i < F.length → prefixAt B (p + 4 * i) = (F.map List.length)[i]?) :
    F.flatMap lengthPrefix ++ B.drop (p + 4 * F.length) = B.drop p := by
  induction F generalizing p with
  | nil => rfl
  | cons f F ih =>
    have hhead : prefixAt B p = some f.length := h 0 (Nat.succ_pos _)
    have hrest := ih (p + 4) fun i hi => by
      rw [Nat.add_assoc, Nat.add_comm 4, ← Nat.mul_succ, h (i + 1) (Nat.succ_lt_succ hi)]
      rfl
    rw [Nat.add_assoc, Nat.add_comm 4, ← Nat.mul_succ] at hrest
    rw [List.flatMap_cons, List.append_assoc, List.length_cons, hrest, ← slice_of_prefixAt B f p hhead,
      ← drop_eq_slice_append]

/-- A GROUPED buffer whose prefixes declare lengths that fit is a framed buffer of fields of those lengths. -/
theorem exists_frame_of_groupedDeclares (B : Bytes) (lens : List Nat) (h : groupedDeclares B lens)
    (hfits : 4 * lens.length + lens.sum ≤ B.length) : ∃ F T, frame F T .grouped = B ∧ F.map List.length = lens := by
  have hlen : ((B.drop (4 * lens.length)).take lens.sum).length = lens.sum := by
    rw [List.length_take, List.length_drop]
    omega
  have hflat := List.flatten_splitLengths _ lens hlen.le
  have hmap := List.map_splitLengths_length _ lens hlen.ge
  refine ⟨_, B.drop (4 * lens.length + lens.sum), ?_, hmap⟩
  have hprefixes := flatMap_lengthPrefix_append_drop B 0 (lens.splitLengths _) fun i hi => by
    rw [hmap, Nat.zero_add]
    exact h i (by simpa using hi)
  rw [Nat.zero_add, List.drop_zero, List.length_splitLengths] at hprefixes
  rw [frame, hflat, List.append_assoc, ← List.drop_drop, List.take_append_drop, hprefixes]

/-- The same for INTERLEAVED, behind any index. -/
theorem exists_frame_of_interleavedFitsFrom (B : Bytes) (p : Nat) (lens : List Nat) (h : interleavedFitsFrom B p lens) :
    ∃ F T, frame F T .interleaved = B.drop p ∧ F.map List.length = lens := by
  induction lens generalizing p with
  | nil => exact ⟨[], B.drop p, rfl, rfl⟩
  | cons len lens ih =>
    obtain ⟨hprefix, hfit, hrest⟩ := h
    obtain ⟨F, T, hF, rfl⟩ := ih _ hrest
    have hlen := slice_length_of_le B (p + 4) len hfit
    refine ⟨slice B (p + 4) len :: F, T, ?_, by rw [List.map_cons, hlen]⟩
    rw [frame_interleaved_cons, hF, ← drop_eq_slice_append, ← slice_of_prefixAt B _ p (by rw [hlen, hprefix]),
      ← drop_eq_slice_append]

/-- A buffer that parses is a framed buffer, of fields whose lengths four bytes can declare. -/
theorem exists_frame_of_parse (B : Bytes) (k : Nat) (layout : Layout) (fields : List Span) (toff tlen : Nat)
    (h : parse B k layout = .ok fields toff tlen) :
    ∃ F T, frame F T layout = B ∧ F.length = k ∧ ∀ f ∈ F, f.length < 2 ^ 32 := by
  cases layout with
  | grouped =>
    rcases parse_grouped_cases B k with ⟨i, -, hshort⟩ | ⟨lens, rfl, hdecl⟩
    · cases h.symm.trans hshort
    · rw [parse_grouped_of_declares B lens hdecl] at h
      have hfits := fits_of_placeFields _ _ lens hdecl.le_length (by rw [h]; rfl)
      obtain ⟨F, T, hF, rfl⟩ := exists_frame_of_groupedDeclares B lens hdecl hfits
      exact ⟨F, T, hF, (List.length_map _).symm, List.forall_mem_map.mp hdecl.lt⟩
  | interleaved =>
    obtain ⟨lens, hfits, rfl | ⟨hk, hshort⟩ | ⟨hk, len, hprefix, hshort⟩⟩ := parse_interleaved_cases B k
    · obtain ⟨F, T, hF, rfl⟩ := exists_frame_of_interleavedFitsFrom B 0 lens ((interleavedFits_iff B lens).mp hfits)
      exact ⟨F, T, hF, (List.length_map _).symm, List.forall_mem_map.mp (interleavedFits_lt B _ hfits)⟩
    · cases h.symm.trans (parse_interleaved_of_no_prefix B k lens hfits hk hshort)
    · cases h.symm.trans (parse_interleaved_of_short B k len lens hfits hk hprefix hshort)

/-- A parse succeeds exactly on framed buffers, and finds their fields and their trailer. -/
theorem parse_eq_ok_iff (B : Bytes) (k : Nat) (layout : Layout) (fields : List Span) (toff tlen : Nat) :
    parse B k layout = .ok fields toff tlen ↔
      ∃ F T, B = frame F T layout ∧ k = F.length ∧ (∀ f ∈ F, f.length < 2 ^ 32) ∧
        fields = frameSpans (F.map List.length) layout ∧ toff = interleavedStart (F.map List.length) ∧
        tlen = T.length := by
  constructor
  · intro h
    obtain ⟨F, T, rfl, rfl, hF⟩ := exists_frame_of_parse B k layout fields toff tlen h
    rw [parse_frame F T layout hF, ParseResult.ok.injEq] at h
    obtain ⟨hfields, htoff, htlen⟩ := h
    exact ⟨F, T, rfl, rfl, hF, hfields.symm, htoff.symm, htlen.symm⟩
  · rintro ⟨F, T, rfl, rfl, hF, rfl, rfl, rfl⟩
    exact parse_frame F T layout hF

/-- Settles O37: the buffer is a framed one, and its fields lie where `frameSpans` says. -/
theorem parsedFieldsFit : Obligations.ParsedFieldsFit := by
  intro B k layout fields toff tlen h
  obtain ⟨F, T, rfl, rfl, -, rfl, rfl, rfl⟩ := (parse_eq_ok_iff B k layout fields toff tlen).mp h
  have hlen := frame_length F T layout
  have hlens := frameSpans_lengths (F.map List.length) layout
  refine ⟨?_, fun f hf => ?_, frameSpans_pairwise _ layout, hlen.symm, ?_⟩
  · rw [← List.length_map (·.2), hlens, List.length_map]
  · have := frameSpans_bounds _ layout f hf
    omega
  · rw [hlens, hlen, interleavedStart, List.length_map]

/-- Settles O38: framed buffers are exactly those that parse, and the parse finds what was framed. -/
theorem parseFrameRoundTrips : Obligations.ParseFrameRoundTrips := by
  refine ⟨fun F T layout _ hF => ?_, fun B k layout fields toff tlen _ h => ?_⟩
  · refine ⟨_, _, _, parse_frame F T layout fun f hf => ?_, frameSpans_lengths _ layout, fieldBytes_frame F T layout,
      slice_trailer_frame F T layout⟩
    have := hF f hf
    omega
  · obtain ⟨F, T, rfl, rfl, -, rfl, rfl, rfl⟩ := (parse_eq_ok_iff B k layout fields toff tlen).mp h
    rw [slice_trailer_frame F T layout]
    exact congrArg (frame · T layout) (fieldBytes_frame F T layout)

/-! ### No prefixed field, and one (R186) -/

theorem parse_zero (B : Bytes) (layout : Layout) : parse B 0 layout = .ok [] 0 B.length := by cases layout <;> rfl

theorem parse_one_of_no_prefix (B : Bytes) (layout : Layout) (h : B.length < 4) :
    parse B 1 layout = .shortPrefix 0 := by
  have hnone : prefixAt B 0 = none := (prefixAt_eq_none_iff B 0).mpr (by omega)
  cases layout with
  | grouped => simp [parse, parseGrouped, groupedLengths, hnone]
  | interleaved => exact parseInterleavedFrom_of_no_prefix B 0 0 0 hnone

/-- With one field the layouts coincide: its length stands right before it in both. -/
theorem parse_one_of_prefix (B : Bytes) (layout : Layout) (len : Nat) (h : prefixAt B 0 = some len) :
    parse B 1 layout =
      if B.length < 4 + len then .shortField 0 else .ok [(4, len)] (4 + len) (B.length - (4 + len)) := by
  cases layout with
  | grouped =>
    have hdecl : groupedDeclares B [len] := by
      intro i hi
      obtain rfl := Nat.lt_one_iff.mp hi
      exact h
    exact parse_grouped_of_declares B [len] hdecl
  | interleaved =>
    rw [parse, parseInterleaved, parseInterleavedFrom_of_prefix B 0 0 0 len h, Nat.zero_add]
    rfl

theorem prefixAt_cons (b₀ b₁ b₂ b₃ : Byte) (R : Bytes) : prefixAt (b₀ :: b₁ :: b₂ :: b₃ :: R) 0 =
    some (b₀.toNat + 2 ^ 8 * b₁.toNat + 2 ^ 16 * b₂.toNat + 2 ^ 24 * b₃.toNat) :=
  dec32_toNat b₀ b₁ b₂ b₃

/-- Settles O34: without a field the rest is the whole buffer, and with one both loops take one step. -/
theorem parseSmallCases : Obligations.ParseSmallCases := by
  refine ⟨parse_zero, parse_one_of_no_prefix, ?_, fun R layout hR => ?_⟩
  · rintro b₀ b₁ b₂ b₃ R layout l rfl
    rw [parse_one_of_prefix _ layout _ (prefixAt_cons b₀ b₁ b₂ b₃ R), List.length_cons, List.length_cons,
      List.length_cons, List.length_cons]
    refine ⟨fun hshort => if_pos (by omega), fun hfit => ?_⟩
    rw [if_neg (by omega), ParseResult.ok.injEq]
    exact ⟨rfl, rfl, by omega⟩
  · rw [parse_one_of_prefix _ layout _ (prefixAt_cons 0xFF 0xFF 0xFF 0xFF R)]
    refine if_pos ?_
    simp only [List.length_cons, BitVec.reduceToNat]
    omega

end Sys2Proof.Machine
end

section
/-! PROOFS. The commands FP_PARSE and FP_FRAME (spec/43_framing.md R193 to R202): their words, the registers a parse
writes, the regions a frame reads, and that a frame after a parse gives the input back. -/
namespace Sys2Proof.Machine

/-! ### The words (R193, R200; 30_encoding.md R96) -/

theorem framingWord_toNat (op : Byte) (k : BitVec 3) (layout : Layout) :
    (cmd32 0 layout.bit k 0 op).toNat = op.toNat + k.toNat * 2 ^ 16 + layout.bit.toNat * 2 ^ 19 := by
  simp only [cmd32_toNat, BitVec.ofNat_eq_ofNat, BitVec.toNat_zero]
  omega

/-- A framing word with K above 4, or with a field that R91 wants 0, is ILLEGAL. -/
theorem runCommand_of_illegal_framing (w : Word) (s : State) (hop : opField w = 0x30 ∨ opField w = 0x31)
    (h : 5 ≤ (kField w).toNat ∨ imm8Field w ≠ 0 ∨ rsvField w ≠ 0) :
    runCommand w s = .next (raiseStatus .illegal 0 (opField w) s) := by
  have hillegal : ¬ LegalFields (rsvField w) (layoutField w) (kField w) (imm8Field w) (opField w) := by
    rw [not_legalFields_iff]
    rcases h with hk | himm8 | hrsv
    · exact .inr (.inr (.inr (.inr ⟨hop, hk⟩)))
    · refine .inr (.inr (.inl ⟨?_, himm8⟩))
      rcases hop with hop | hop <;> rw [hop] <;> decide
    · exact .inr (.inl hrsv)
  obtain ⟨e, he⟩ := (exists_decode_eq_error_iff w).mpr (mt (exists_decode_eq_ok_iff w).mp hillegal)
  exact runCommand_of_error w e s he

/-- The word of a raised status, as a number (40_control.md R114). -/
theorem statusWord_raised (code : Code) (idx : Nat) (op : Byte) (h : idx < 8) :
    statusWord code idx 0 false op = BitVec.ofNat 32 (op.toNat * 2 ^ 24 + code.value + idx * 0x100) := by
  rw [← BitVec.setWidth_eq (statusWord code idx 0 false op), ← BitVec.ofNat_toNat,
    statusWord_toNat code idx 0 false op h]
  congr 1
  simp only [BitVec.ofNat_eq_ofNat, BitVec.toNat_zero, Bool.toNat_false]
  omega

/-! ### The registers a parse writes (R194, R196) -/

theorem fieldBankOf_toNat (vs : List Nat) (hlen : vs.length ≤ 4) (hlt : ∀ v ∈ vs, v < 2 ^ 32) :
    [(fieldBankOf vs).r0, (fieldBankOf vs).r1, (fieldBankOf vs).r2, (fieldBankOf vs).r3].map BitVec.toNat =
      vs ++ List.replicate (4 - vs.length) 0 := by
  have hmod : ∀ v ∈ vs, v % 2 ^ 32 = v := fun v hv => Nat.mod_eq_of_lt (hlt v hv)
  match vs, hlen with
  | [], _ => rfl
  | [a], _ | [a, b], _ | [a, b, c], _ | [a, b, c, d], _ => simpa [fieldBankOf] using hmod

/-- Bit i of UTF8_BAD is 1 exactly when field i is there and not valid (R193). -/
theorem utf8BadBits_getLsbD (valid : List Bool) (i : Nat) (hlen : valid.length ≤ 4) :
    (utf8BadBits valid).getLsbD i = true ↔ valid[i]? = some false := by
  have hbit : (utf8BadBits valid).getLsbD i = (decide (i < 4) && !valid.getD i true) := by
    match i with
    | 0 | 1 | 2 | 3 =>
      simp only [utf8BadBits, BitVec.getLsbD_append, BitVec.getLsbD_ofBool]
      simp
    | i + 4 => simp
  rw [hbit, List.getD_eq_getElem?_getD]
  cases hv : valid[i]? with
  | none => simp
  | some v =>
    obtain ⟨hi, -⟩ := List.getElem?_eq_some_iff.mp hv
    simp [Nat.lt_of_lt_of_le hi hlen]

/-! ### FP_PARSE (R194, R195) -/

/-- What FP_PARSE leaves behind when the parse succeeds. -/
structure State.Parsed (s t : State) (B : Bytes) (k : Nat) (fields : List Span) (toff tlen : Nat) : Prop where
  fieldOff : [t.fieldOff.r0, t.fieldOff.r1, t.fieldOff.r2, t.fieldOff.r3].map BitVec.toNat
    = fields.map (·.1) ++ List.replicate (4 - k) 0
  fieldLen : [t.fieldLen.r0, t.fieldLen.r1, t.fieldLen.r2, t.fieldLen.r3].map BitVec.toNat
    = fields.map (·.2) ++ List.replicate (4 - k) 0
  trailOff : t.trailOff.toNat = toff
  trailLen : t.trailLen.toNat = tlen
  status : t.status = statusWord .ok 0 (utf8BadBits (fields.map fun f => utf8Valid (slice B f.1 f.2)))
    (!utf8Valid (slice B toff tlen)) 0x30
  frame : s.SameButParse t

theorem exists_exec_fpParse (k : BitVec 3) (layout : Layout) (s : State) (B : Bytes) (fields : List Span)
    (toff tlen : Nat) (hk : k.toNat ≤ 4) (hB : inputBytes s = some B)
    (hparse : parse B k.toNat layout = .ok fields toff tlen) :
    ∃ t, exec (.fpParse k layout) s = .next t ∧ s.Parsed t B k.toNat fields toff tlen := by
  obtain ⟨hlen, hfit, -, htrail, -⟩ := parsedFieldsFit B k.toNat layout fields toff tlen hparse
  have hnat := fun n (hn : n ≤ B.length) => toNat_ofNat_of_le_input s B n hB hn
  obtain ⟨hin, -⟩ := (inputBytes_eq_some_iff s B).mp hB
  have hlt : B.length < 2 ^ 32 := hin ▸ s.inLen.isLt
  have hst : Stages s (.fpParse k layout) _ := .fpParse k layout B fields toff tlen ((kLegal_iff k).mpr hk) hB hparse
  have hoff := fieldBankOf_toNat (fields.map (·.1)) (by rw [List.length_map]; omega)
    (List.forall_mem_map.mpr fun f hf => by have := hfit f hf; omega)
  have hlens := fieldBankOf_toNat (fields.map (·.2)) (by rw [List.length_map]; omega)
    (List.forall_mem_map.mpr fun f hf => by have := hfit f hf; omega)
  rw [List.length_map, hlen] at hoff hlens
  exact ⟨_, hst.exec_eq_of_no_output rfl, hoff, hlens, hnat toff (by omega), hnat tlen (by omega), rfl,
    ⟨rfl, rfl, rfl, rfl, rfl, rfl, fun _ => rfl, fun _ => rfl, rfl, rfl⟩⟩

/-- A raised status is the one thing that changes, to R114's number. -/
theorem Raises.exec_eq_number {s : State} {i : Instr} {code : Code} {idx : Nat} (h : Raises s i code idx) (op : Byte)
    (hop : i.opcode = op) (n : Nat) (hn : op.toNat * 2 ^ 24 + code.value = n) :
    exec i s = .next { s with status := BitVec.ofNat 32 (n + idx * 0x100) } := by
  have hidx := h.idx_le
  rw [← hn, ← statusWord_raised code idx op (by omega), h.exec_eq, hop]
  rfl

/-- Settles O39: each outcome of the parser is one end of the command. -/
theorem fpParseResult : Obligations.FpParseResult := by
  refine ⟨fun k layout => ?_, fun w s hop h => ?_, fun k layout s B hk hlen hread => ?_⟩
  · cases layout <;> exact framingWord_toNat 0x30 k _
  · rw [runCommand_of_illegal_framing w s (.inl hop) h, hop]
    rfl
  · have hB := inputBytes_of_read s B hlen hread
    have hlegal := (kLegal_iff k).mpr hk
    refine ⟨fun fields toff tlen hparse => ?_, fun i hparse => ?_, fun i hparse => ?_⟩
    · obtain ⟨t, ht, hfieldOff, hfieldLen, htrailOff, htrailLen, hstatus, hframe⟩ :=
        exists_exec_fpParse k layout s B fields toff tlen hk hB hparse
      obtain ⟨hfields, -⟩ := parsedFieldsFit B k.toNat layout fields toff tlen hparse
      refine ⟨t, ht, hfieldOff, hfieldLen, htrailOff, htrailLen, ?_, ?_, ?_, fun i => ?_, ?_, hframe⟩ <;> rw [hstatus]
      · exact statusCode_ok 0 _ _ _ (by omega)
      · exact BitVec.eq_of_toNat_eq (statusIdx_statusWord .ok 0 _ _ _ (by omega))
      · exact statusLastOp_statusWord .ok 0 _ _ _ (by omega)
      · rw [statusUtf8Bad_statusWord .ok 0 _ _ _ (by omega), utf8BadBits_getLsbD _ i (by rw [List.length_map]; omega),
          List.getElem?_map, Option.map_eq_some_iff]
      · rw [statusUtf8BadTrail_statusWord .ok 0 _ _ _ (by omega), ofBool_eq_one_iff, Bool.not_eq_true']
    · exact (Raises.shortPrefix k layout B i hlegal hB hparse).exec_eq_number 0x30 rfl 0x30000003 rfl
    · exact (Raises.shortField k layout B i hlegal hB hparse).exec_eq_number 0x30 rfl 0x30000004 rfl

/-! ### FP_FRAME (R200, R201) -/

theorem firstOutOfRange_eq_some (L n i : Nat) (rs : List Span) (r : Span) (hr : rs[i]? = some r) (hout : L < r.1 + r.2)
    (hbefore : ∀ j q, j < i → rs[j]? = some q → q.1 + q.2 ≤ L) : firstOutOfRange L n rs = some (n + i) := by
  induction rs generalizing n i with
  | nil => cases hr
  | cons q rs ih =>
    cases i with
    | zero =>
      cases hr
      have hfalse : ¬ inRange L r = true := by rw [inRange_iff]; omega
      simp [firstOutOfRange, hfalse]
    | succ i =>
      have htrue := (inRange_iff L q).mpr (hbefore 0 q (Nat.succ_pos i) rfl)
      have hrest := ih (n + 1) i hr fun j q hj hq => hbefore (j + 1) q (Nat.succ_lt_succ hj) hq
      rw [firstOutOfRange, if_pos htrue, hrest, Nat.add_assoc, Nat.add_comm 1]

theorem readRegions_of_map (s : State) (rs : List Span) (F : List Bytes) (h : F.map some = rs.map (readRegion s)) :
    readRegions s rs = some F := by
  induction rs generalizing F with
  | nil =>
    obtain rfl := List.map_eq_nil_iff.mp h
    rfl
  | cons r rs ih =>
    obtain ⟨f, F, rfl, hf, hF⟩ := List.map_eq_cons_iff.mp h
    rw [readRegions, ← hf, ih F hF]

/-- What a command that stages output alone does when it fits. -/
theorem Stages.exists_exec_of_output_fits {s : State} {i : Instr} {out : Bytes} (h : Stages s i { output := out })
    (hfit : s.fits out) : ∃ t, exec i s = .next t ∧ s.Appends t out ∧ t.status = statusWord .ok 0 0 false i.opcode ∧
      t.rle = s.rle ∧ s.SameButOutput t := by
  have hover := (fits_iff s out).mp hfit
  refine ⟨_, h.exec_eq, commit_appends _ _ s hover rfl, ?_⟩
  rw [commit_of_fits _ _ s hover]
  exact ⟨rfl, rfl, rfl, rfl, rfl, rfl, rfl, rfl, rfl, rfl, fun _ => rfl, rfl, rfl⟩

/-- With regions inside an input that can be read, FP_FRAME stages the frame of the input's bytes there. -/
theorem stages_fpFrame_of_inputBytes (k : BitVec 3) (layout : Layout) (s : State) (B : Bytes) (hk : k.toNat ≤ 4)
    (hB : inputBytes s = some B) (hfields : ∀ r ∈ fieldRegions k.toNat s, r.1 + r.2 ≤ B.length)
    (htrail : (trailRegion s).1 + (trailRegion s).2 ≤ B.length) :
    Stages s (.fpFrame k layout)
      { output := frame ((fieldRegions k.toNat s).map (fieldBytes B)) (fieldBytes B (trailRegion s)) layout } := by
  obtain ⟨hlen, -⟩ := (inputBytes_eq_some_iff s B).mp hB
  rw [hlen] at hfields htrail
  refine .fpFrame k layout _ _ ((kLegal_iff k).mpr hk) ((firstOutOfRange_eq_none_iff _ 0 _).mpr hfields)
    ((inRange_iff _ _).mpr htrail) (readRegions_of_map s _ _ ?_) (readRegion_of_inputBytes s B _ hB htrail)
  rw [List.map_map]
  exact List.map_congr_left fun r hr => (readRegion_of_inputBytes s B r hB (hfields r hr)).symm

/-- Settles O40: each check of a region is one end of the command, and the commit is the last. -/
theorem fpFrameResult : Obligations.FpFrameResult := by
  refine ⟨fun k layout => ?_, fun w s hop h => ?_, fun k layout s hk => ⟨fun i r hr hout hbefore => ?_,
    fun hfields => ⟨fun hout => ?_, fun htrail F T hF hT => ?_⟩⟩⟩
  · cases layout <;> exact framingWord_toNat 0x31 k _
  · rw [runCommand_of_illegal_framing w s (.inr hop) h, hop]
    rfl
  · have hfirst := firstOutOfRange_eq_some _ 0 i _ r hr hout hbefore
    rw [Nat.zero_add] at hfirst
    exact (Raises.fieldRange k layout i ((kLegal_iff k).mpr hk) hfirst).exec_eq_number 0x31 rfl 0x31000006 rfl
  · have hnone := (firstOutOfRange_eq_none_iff _ 0 _).mpr hfields
    have htrail : inRange (inputLength s) (trailRegion s) = false := by
      rw [← Bool.not_eq_true, inRange_iff]
      exact Nat.not_le.mpr hout
    exact (Raises.trailRange k layout ((kLegal_iff k).mpr hk) hnone htrail).exec_eq_number 0x31 rfl 0x31000006 rfl
  · have hnone := (firstOutOfRange_eq_none_iff _ 0 _).mpr hfields
    have hst : Stages s (.fpFrame k layout) _ := .fpFrame k layout F T ((kLegal_iff k).mpr hk) hnone
      ((inRange_iff _ _).mpr htrail) (readRegions_of_map s _ F hF) hT.symm
    have hfits := hst.exists_exec_of_output_fits
    have hfull := hst.exec_eq_of_not_fits
    rw [show (Instr.fpFrame k layout).opcode = 0x31 from rfl] at hfits hfull
    exact ⟨hfits, hfull⟩

/-! ### A frame after a parse (R202) -/

/-- The regions that a parse's registers name are the fields it found. -/
theorem State.Parsed.fieldRegions {s t : State} {B : Bytes} {k : Nat} {fields : List Span} {toff tlen : Nat}
    (h : s.Parsed t B k fields toff tlen) (hlen : fields.length = k) : fieldRegions k t = fields := by
  have hzip : Sys2Proof.Machine.fieldRegions k t =
      (([t.fieldOff.r0, t.fieldOff.r1, t.fieldOff.r2, t.fieldOff.r3].map BitVec.toNat).zip
        ([t.fieldLen.r0, t.fieldLen.r1, t.fieldLen.r2, t.fieldLen.r3].map BitVec.toNat)).take k := rfl
  rw [hzip, h.fieldOff, h.fieldLen, List.zip_append (by simp), List.zip_map']
  simp [← hlen]

/-- An FP_PARSE that ends with OK has parsed its input. -/
theorem parsed_of_ok (k : BitVec 3) (layout : Layout) (s t : State) (B : Bytes) (hB : inputBytes s = some B)
    (ht : exec (.fpParse k layout) s = .next t) (hok : statusCode t.status = 0) :
    k.toNat ≤ 4 ∧ ∃ fields toff tlen, parse B k.toNat layout = .ok fields toff tlen ∧
      s.Parsed t B k.toNat fields toff tlen := by
  rcases exec_next_cases _ s t ht with ⟨st, hst, -⟩ | ⟨code, idx, hr, rfl⟩
  · cases hst with
    | fpParse _ _ B' fields toff tlen hk hB' hparse =>
      cases hB.symm.trans hB'
      obtain ⟨t', ht', hparsed⟩ := exists_exec_fpParse k layout s B fields toff tlen ((kLegal_iff k).mp hk) hB hparse
      cases ht.symm.trans ht'
      exact ⟨(kLegal_iff k).mp hk, fields, toff, tlen, hparse, hparsed⟩
  · have hidx := hr.idx_le
    have hcode := statusCode_statusWord code idx 0 false (Instr.fpParse k layout).opcode (by omega)
    rw [raiseStatus_status] at hok
    rw [hok] at hcode
    exact absurd (Code.value_injective code .ok hcode.symm) hr.code_ne_ok

/-- Settles O41: FP_FRAME reads back the fields and the trailer that the parse found, whose frame is the input. -/
theorem frameAfterParseCopiesInput : Obligations.FrameAfterParseCopiesInput := by
  intro k layout s t B hB ht hok hroom
  obtain ⟨hk, fields, toff, tlen, hparse, hparsed⟩ := parsed_of_ok k layout s t B hB ht hok
  obtain ⟨hlen, hfit, -, htrail, -⟩ := parsedFieldsFit B k.toNat layout fields toff tlen hparse
  obtain ⟨-, hframe⟩ := parseFrameRoundTrips
  have hfields := hparsed.fieldRegions hlen
  have htregion : trailRegion t = (toff, tlen) := Prod.ext hparsed.trailOff hparsed.trailLen
  obtain ⟨hin, hread⟩ := (inputBytes_eq_some_iff s B).mp hB
  have hBt : inputBytes t = some B := by
    rw [inputBytes_eq_some_iff, hparsed.frame.inLen]
    exact ⟨hin, fun j hj => (hparsed.frame.ibuf j).trans (hread j hj)⟩
  have hst := stages_fpFrame_of_inputBytes k layout t B hk hBt
    (by rw [hfields]; exact fun f hf => (hfit f hf).2) (by rw [htregion]; exact htrail.le)
  rw [hfields, htregion] at hst
  have hcopy : frame (fields.map (fieldBytes B)) (fieldBytes B (toff, tlen)) layout = B :=
    hframe B k.toNat layout fields toff tlen hk hparse
  rw [hcopy] at hst
  obtain ⟨u, hu, happends, hstatus, -⟩ := hst.exists_exec_of_output_fits (.inr hroom)
  exact ⟨u, hu, by rw [hstatus, statusCode_ok 0 _ _ _ (by omega)], happends⟩

end Sys2Proof.Machine
end

section
/-! PROOFS. The match and replace profiles (spec/43_framing.md R214 to R219): each parser outcome and what the profile
answers for it. -/
namespace Sys2Proof.Machine

/-! ### The match profile (R215, R216) -/

theorem regexStep_of_compile (e : RegexEngine) (p v : Bytes) (re : e.Regex) (h : e.compile p = some re) :
    regexStep e p v = if e.isMatch re v then 1 else 0 := by
  simp only [regexStep, h]

theorem regexStep_of_no_compile (e : RegexEngine) (p v : Bytes) (h : e.compile p = none) : regexStep e p v = 0 := by
  simp only [regexStep, h]

theorem regexStep_zero_or_one (e : RegexEngine) (p v : Bytes) : regexStep e p v = 0 ∨ regexStep e p v = 1 := by
  cases h : e.compile p with
  | none => exact .inl (regexStep_of_no_compile e p v h)
  | some re =>
    rw [regexStep_of_compile e p v re h]
    cases e.isMatch re v
    · exact .inl rfl
    · exact .inr rfl

/-- The value of the match profile on a pattern and a subject: the regex step, or 0 where one is not valid UTF-8. -/
def matchValue (e : RegexEngine) (p v : Bytes) : Word := if utf8Valid p && utf8Valid v then regexStep e p v else 0

theorem matchValue_zero_or_one (e : RegexEngine) (p v : Bytes) : matchValue e p v = 0 ∨ matchValue e p v = 1 := by
  rw [matchValue]
  split
  · exact regexStep_zero_or_one e p v
  · exact .inl rfl

theorem matchValue_of_fallback (e : RegexEngine) (p v : Bytes)
    (h : utf8Valid p = false ∨ utf8Valid v = false ∨ (e.compile p).isNone = true) : matchValue e p v = 0 := by
  rcases h with hp | hv | hnone
  · simp [matchValue, hp]
  · simp [matchValue, hv]
  · simp [matchValue, regexStep_of_no_compile e p v (Option.isNone_iff_eq_none.mp hnone)]

/-- With a pattern length that fits, the profile's value is that of the pattern and the subject behind it. -/
theorem matchOut_of_prefix (e : RegexEngine) (B : Bytes) (plen : Nat) (hprefix : prefixAt B 0 = some plen)
    (hfit : 4 + plen ≤ B.length) : matchOut e B = enc32 (matchValue e (slice B 4 plen) (B.drop (4 + plen))) := by
  have hparse := parse_one_of_prefix B .grouped plen hprefix
  rw [if_neg (Nat.not_lt.mpr hfit)] at hparse
  rw [matchOut_of_ok e B (4, plen) _ _ hparse, slice_to_end, matchValue]
  rfl

/-- With valid strings and a pattern that compiles it is what the engine answers. -/
theorem matchOut_of_compile (e : RegexEngine) (B : Bytes) (plen : Nat) (re : e.Regex)
    (hprefix : prefixAt B 0 = some plen) (hfit : 4 + plen ≤ B.length) (hp : utf8Valid (slice B 4 plen) = true)
    (hv : utf8Valid (B.drop (4 + plen)) = true) (hre : e.compile (slice B 4 plen) = some re) :
    matchOut e B = if e.isMatch re (B.drop (4 + plen)) then [1, 0, 0, 0] else [0, 0, 0, 0] := by
  rw [matchOut_of_prefix e B plen hprefix hfit, matchValue, hp, hv, Bool.and_self, if_pos rfl,
    regexStep_of_compile e _ _ re hre, apply_ite enc32]
  rfl

theorem matchOut_of_no_prefix (e : RegexEngine) (B : Bytes) (h : B.length < 4) : matchOut e B = enc32 0 :=
  matchOut_of_short e B 0 (by rw [parse_one_of_no_prefix B .grouped h]; rfl)

theorem parse_one_of_short (B : Bytes) (layout : Layout) (plen : Nat) (hprefix : prefixAt B 0 = some plen)
    (hshort : B.length < 4 + plen) : parse B 1 layout = .shortField 0 := by
  rw [parse_one_of_prefix B layout plen hprefix, if_pos hshort]

theorem matchOut_of_short_pattern (e : RegexEngine) (B : Bytes) (plen : Nat) (hprefix : prefixAt B 0 = some plen)
    (hshort : B.length < 4 + plen) : matchOut e B = enc32 0 :=
  matchOut_of_short e B 0 (by rw [parse_one_of_short B .grouped plen hprefix hshort]; rfl)

theorem matchOut_zero_or_one (e : RegexEngine) (B : Bytes) : matchOut e B = enc32 0 ∨ matchOut e B = enc32 1 := by
  cases hprefix : prefixAt B 0 with
  | none => exact .inl (matchOut_of_no_prefix e B ((prefixAt_eq_none_iff B 0).mp hprefix))
  | some plen =>
    rcases Nat.lt_or_ge B.length (4 + plen) with hshort | hfit
    · exact .inl (matchOut_of_short_pattern e B plen hprefix hshort)
    · rw [matchOut_of_prefix e B plen hprefix hfit]
      exact (matchValue_zero_or_one e _ _).imp (congrArg enc32) (congrArg enc32)

/-- Settles O42: the parser's three outcomes are the cases, and `matchValue` is the profile on the last. -/
theorem matchProfileFallbacks : Obligations.MatchProfileFallbacks := by
  intro e B
  refine ⟨matchOut_zero_or_one e B, fun h => ⟨parse_one_of_no_prefix B .grouped h, matchOut_of_no_prefix e B h⟩,
    fun plen hprefix => ⟨fun hshort => ?_, fun hfit => ⟨?_, fun hfallback => ?_, fun re hp hv hre => ?_⟩⟩⟩
  · exact ⟨parse_one_of_short B .grouped plen hprefix hshort, matchOut_of_short_pattern e B plen hprefix hshort⟩
  · rw [parse_one_of_prefix B .grouped plen hprefix, if_neg (Nat.not_lt.mpr hfit)]
  · rw [matchOut_of_prefix e B plen hprefix hfit, matchValue_of_fallback e _ _ hfallback]
    rfl
  · exact matchOut_of_compile e B plen re hprefix hfit hp hv hre

/-! ### The replace profile (R217 to R219) -/

theorem replaceOut_of_shortPrefix (e : RegexEngine) (B : Bytes) (i : Nat) (h : parse B 2 .grouped = .shortPrefix i) :
    replaceOut e B = B := by
  simp only [replaceOut, h]

theorem replaceOut_of_shortField (e : RegexEngine) (B : Bytes) (i plen rlen : Nat)
    (h : parse B 2 .grouped = .shortField i) (hp : prefixAt B 0 = some plen) (hr : prefixAt B 4 = some rlen) :
    replaceOut e B = B.drop (min (8 + plen + rlen) B.length) := by
  simp only [replaceOut, h, partialEcho, hp, hr]

/-- On a parse with two fields the profile gives the subject back wherever it cannot replace. -/
theorem replaceOut_of_fallback (e : RegexEngine) (B : Bytes) (p r : Span) (toff tlen : Nat)
    (h : parse B 2 .grouped = .ok [p, r] toff tlen)
    (hfallback : utf8Valid (fieldBytes B p) = false ∨ utf8Valid (fieldBytes B r) = false ∨
      utf8Valid (slice B toff tlen) = false ∨ (e.compile (fieldBytes B p)).isNone = true) :
    replaceOut e B = slice B toff tlen := by
  simp only [replaceOut, h]
  split
  · next hvalid =>
    simp only [Bool.and_eq_true] at hvalid
    obtain ⟨⟨hp, hr⟩, hv⟩ := hvalid
    have hnone : e.compile (fieldBytes B p) = none := by simpa [hp, hr, hv] using hfallback
    rw [hnone]
  · rfl

theorem replaceOut_of_compile (e : RegexEngine) (B : Bytes) (p r : Span) (toff tlen : Nat) (re : e.Regex)
    (h : parse B 2 .grouped = .ok [p, r] toff tlen) (hp : utf8Valid (fieldBytes B p) = true)
    (hr : utf8Valid (fieldBytes B r) = true) (hv : utf8Valid (slice B toff tlen) = true)
    (hre : e.compile (fieldBytes B p) = some re) :
    replaceOut e B = e.replaceAll re (fieldBytes B r) (slice B toff tlen) := by
  simp only [replaceOut, h, hp, hr, hv, Bool.and_self, if_true, hre]

/-- With both lengths there, the parse of two GROUPED fields is the second loop. -/
theorem parse_two_of_prefixes (B : Bytes) (plen rlen : Nat) (hp : prefixAt B 0 = some plen)
    (hr : prefixAt B 4 = some rlen) : parse B 2 .grouped = placeFields B.length 0 8 [plen, rlen] := by
  have hdecl : groupedDeclares B [plen, rlen] := fun i hi =>
    match i, hi with
    | 0, _ => hp
    | 1, _ => hr
  exact parse_grouped_of_declares B [plen, rlen] hdecl

/-- Settles O43: the parser's three outcomes are the cases; in the second the echo starts at the buffer's end. -/
theorem replaceProfileFallbacks : Obligations.ReplaceProfileFallbacks := by
  intro e B
  refine ⟨fun hshort => ?_, fun plen rlen hp hr => ⟨fun hshort => ?_, fun hfit => ?_⟩⟩
  · have hparse := (parse_grouped_eq_shortPrefix_iff B 2 (B.length / 4)).mpr (by omega)
    exact ⟨hparse, replaceOut_of_shortPrefix e B _ hparse⟩
  · have hroom := le_length_of_prefixAt B 4 rlen hr
    have hparse : parse B 2 .grouped = .shortField 0 ∨ parse B 2 .grouped = .shortField 1 := by
      rw [parse_two_of_prefixes B plen rlen hp hr]
      rcases Nat.lt_or_ge B.length (8 + plen) with hpshort | hpfit
      · exact .inl (placeFields_of_short B.length 8 plen [] [rlen] hroom hpshort)
      · exact .inr (placeFields_of_short B.length 8 rlen [plen] [] hpfit hshort)
    have hecho : replaceOut e B = B.drop (min (8 + plen + rlen) B.length) := by
      rcases hparse with h | h <;> exact replaceOut_of_shortField e B _ plen rlen h hp hr
    refine ⟨hparse, hecho, ?_⟩
    rw [hecho, Nat.min_eq_right hshort.le, List.drop_length]
  · have hparse : parse B 2 .grouped
        = .ok [(8, plen), (8 + plen, rlen)] (8 + plen + rlen) (B.length - (8 + plen + rlen)) := by
      rw [parse_two_of_prefixes B plen rlen hp hr, placeFields_of_fits _ _ _ _ (by simpa [Nat.add_assoc] using hfit)]
      simp [Nat.add_assoc]
    have hfallback := replaceOut_of_fallback e B _ _ _ _ hparse
    have hreplace := fun re => replaceOut_of_compile e B _ _ _ _ re hparse
    rw [slice_to_end] at hfallback
    simp only [slice_to_end] at hreplace
    exact ⟨hparse, hfallback, hreplace⟩

/-! ### The source's examples (R214) -/

/-- Settles O44: each example is one clause of the profiles on a concrete buffer. -/
theorem sourceExamplesOfProfiles : Obligations.SourceExamplesOfProfiles := by
  rintro e ⟨haPlus, hzPlus, hbanana, hparen⟩
  refine ⟨?_, ?_, ?_, ?_⟩
  · obtain ⟨re, hre, hmatch⟩ := Option.map_eq_some_iff.mp haPlus
    exact Eq.trans (matchOut_of_compile e _ 2 re rfl (by decide) rfl rfl hre) (if_pos hmatch)
  · obtain ⟨re, hre, hmatch⟩ := Option.map_eq_some_iff.mp hzPlus
    exact Eq.trans (matchOut_of_compile e _ 2 re rfl (by decide) rfl rfl hre) (if_neg (Bool.eq_false_iff.mp hmatch))
  · obtain ⟨re, hre, hreplace⟩ := Option.map_eq_some_iff.mp hbanana
    exact Eq.trans (replaceOut_of_compile e _ (8, 1) (9, 1) 10 6 re rfl rfl rfl rfl hre) hreplace
  · exact replaceOut_of_fallback e _ (8, 1) (9, 0) 9 5 rfl (.inr (.inr (.inr hparen)))

end Sys2Proof.Machine
end

section
/-! PROOFS. The exceptions family (spec/60_exceptions.md): the status codes a command can end with, and the parameters
power-on reset refuses. -/
namespace Sys2Proof.Machine

/-! ### The code a command ends with (R231) -/

/-- A commit ends with OVERFLOW where its output does not fit, and with OK elsewhere (40_control.md R113). -/
theorem commit_code_toNat (op : Byte) (st : Staged) (s : State) :
    (statusCode (commit op st s).status).toNat = if overflows s st.output then 2 else 0 := by
  rcases commit_cases op st s with ⟨hover, hc⟩ | ⟨hfits, hc⟩
  · rw [hc, hover, raiseStatus_status, statusCode_statusWord .overflow 0 0 false op (by omega)]
    rfl
  · rw [hc, hfits, withStatus_status, statusCode_statusWord .ok 0 _ _ op (by omega)]
    rfl

theorem commit_code_of_no_output (op : Byte) (st : Staged) (s : State) (h : st.output = []) :
    (statusCode (commit op st s).status).toNat = 0 := by
  rw [commit_code_toNat, h, overflows_nil, if_neg Bool.false_ne_true]

theorem commit_code_cases (op : Byte) (st : Staged) (s : State) :
    (statusCode (commit op st s).status).toNat = 0 ∨ (statusCode (commit op st s).status).toNat = 2 := by
  rw [commit_code_toNat]
  split
  · exact .inr rfl
  · exact .inl rfl

/-- A command that raises a status before its commit ends with that code. -/
theorem Raises.code_toNat {s : State} {i : Instr} {code : Code} {idx : Nat} (h : Raises s i code idx) (op : Byte) :
    (statusCode (raiseStatus code idx op s).status).toNat = code.value := by
  have hidx := h.idx_le
  rw [raiseStatus_status, statusCode_statusWord code idx 0 false op (by omega)]

/-- Settles O12. A command that stages no output commits with OK and one that stages some with OK or OVERFLOW; every
other code is one that `Raises` gives the command. -/
theorem codesOfEachCommand : Obligations.CodesOfEachCommand := by
  intro i s t h
  rcases exec_next_cases i s t h with ⟨st, hst, rfl⟩ | ⟨code, idx, hr, rfl⟩
  · have hcode := commit_code_cases i.opcode st s
    have hquiet := commit_code_of_no_output i.opcode st s
    generalize (statusCode (commit i.opcode st s).status).toNat = n at hcode hquiet ⊢
    cases hst with
    | nop | outClear | softReset | rleInit | le32Dec => simp [hquiet rfl]
    | rlePush | rleFlush | rlePushbuf | rleEncode | le32Enc => simpa using hcode
    | fpParse k _ _ _ _ _ hk => simp [(kLegal_iff k).mp hk, hquiet rfl]
    | fpFrame k _ _ _ hk => rcases hcode with rfl | rfl <;> simp [(kLegal_iff k).mp hk]
  · rw [hr.code_toNat]
    cases hr with
    | shortData => decide
    | parseIllegal k _ hk | frameIllegal k _ hk =>
      simp [mt (kLegal_iff k).mpr (Bool.eq_false_iff.mp hk), Code.value]
    | shortPrefix k _ _ _ hk | shortField k _ _ _ hk | fieldRange k _ _ hk | trailRange k _ hk =>
      simp [(kLegal_iff k).mp hk, Code.value]

/-! ### Refused configurations (R237) -/

theorem ofParameters_eq_none_iff (isize osize kMax : Nat) (idValue : Word) :
    Config.ofParameters isize osize kMax idValue = none ↔
      ¬ (1 ≤ isize ∧ isize ≤ 2 ^ 30 ∧ 1 ≤ osize ∧ osize ≤ 2 ^ 30 ∧ kMax = 4) := by
  simp only [Config.ofParameters, Config.kMax, dite_eq_right_iff, reduceCtorEq, imp_false, and_assoc]

/-- A configuration that is built has the parameters it was asked for. -/
theorem ofParameters_eq_some {isize osize kMax : Nat} {idValue : Word} {c : Config}
    (h : Config.ofParameters isize osize kMax idValue = some c) :
    c.ibufSize = isize ∧ c.obufSize = osize ∧ c.idValue = idValue := by
  unfold Config.ofParameters at h
  split at h
  · next hallowed =>
    cases h
    obtain ⟨⟨hi, -⟩, ⟨ho, -⟩, -⟩ := hallowed
    exact ⟨Nat.sub_add_cancel hi, Nat.sub_add_cancel ho, rfl⟩
  · cases h

theorem powerOn_of_some {isize osize kMax : Nat} {idValue : Word} {c : Config}
    (h : Config.ofParameters isize osize kMax idValue = some c) :
    powerOn isize osize kMax idValue = .next (State.resetWith c) := by
  simp only [powerOn, h]

theorem powerOn_refused_iff (isize osize kMax : Nat) (idValue : Word) :
    powerOn isize osize kMax idValue = .refused .badConfiguration ↔
      Config.ofParameters isize osize kMax idValue = none := by
  cases h : Config.ofParameters isize osize kMax idValue <;> simp [powerOn, h]

/-- Settles O56: power-on reset refuses where no configuration can be built, and else resets the one that was. -/
theorem badConfigurationsRefused : Obligations.BadConfigurationsRefused := by
  intro isize osize kMax idValue
  have hnone := ofParameters_eq_none_iff isize osize kMax idValue
  refine ⟨(powerOn_refused_iff _ _ _ _).trans hnone, fun hi hi' ho ho' hk => ?_⟩
  obtain ⟨c, hc⟩ := Option.ne_none_iff_exists'.mp fun h => hnone.mp h ⟨hi, hi', ho, ho', hk⟩
  exact ⟨c, powerOn_of_some hc, ofParameters_eq_some hc⟩

end Sys2Proof.Machine
end

section
/-! PROOFS. The reset family (spec/70_reset_and_hazards.md): what the registers read right after power-on reset. -/
namespace Sys2Proof.Machine

/-- The idle encoder's word is RLE_STATE's reset value (R22, R31). -/
@[simp] theorem rleStateWord_idle : rleStateWord RleState.idle = 0 := by decide

/-- R22's reset value: 0 for every register but the three constants. -/
theorem readReg_resetWith (c : Config) (r : Reg) (hid : r ≠ .id) (hicap : r ≠ .ibufCap) (hocap : r ≠ .obufCap) :
    readReg (State.resetWith c) r = 0 := by
  cases r with
  | id => exact absurd rfl hid
  | ibufCap => exact absurd rfl hicap
  | obufCap => exact absurd rfl hocap
  | rleState => exact rleStateWord_idle
  | _ => rfl

theorem readReg_ibufCap_toNat (s : State) : (readReg s .ibufCap).toNat = s.cfg.ibufSize :=
  (BitVec.toNat_ofNat _ _).trans (Nat.mod_eq_of_lt ((ibufSize_bounds s.cfg).2.trans_lt (by decide)))

theorem readReg_obufCap_toNat (s : State) : (readReg s .obufCap).toNat = s.cfg.obufSize :=
  (BitVec.toNat_ofNat _ _).trans (Nat.mod_eq_of_lt ((obufSize_bounds s.cfg).2.trans_lt (by decide)))

/-- Settles O55: the constants come from the configuration, every other register is 0, and both buffers are empty. -/
theorem powerOnResetValues : Obligations.PowerOnResetValues := fun c =>
  ⟨fun r hr => readReg_resetWith c r
      (ne_of_mem_of_not_mem hr (by decide)) (ne_of_mem_of_not_mem hr (by decide)) (ne_of_mem_of_not_mem hr (by decide)),
    rfl, readReg_ibufCap_toNat _, readReg_obufCap_toNat _, fun i => ⟨written_nil i, written_nil i⟩⟩

end Sys2Proof.Machine
end
